-- ==== Sys2Proof/Word.lean ====
section
/-!
DEFINITION. The word types of TTXDEC, the teletext decoding pipeline (spec file 00_scope.md, rule R9). A bit vector
stands only for what the spec treats as bits: a received byte, a decoded nibble, a decoded character, a magazine
index taken by masking, the timestamp that is latched and copied. Lengths, addresses, page numbers and counts are Nat.
-/

namespace Sys2Proof

/-- A byte of the elementary stream, `b[7]` its most significant bit (R9, R50). -/
abbrev Byte := BitVec 8

/-- A value of four bits, the data of one Hamming 8/4 code word (R103). -/
abbrev Nibble := BitVec 4

/-- A value of seven bits, the data of one odd-parity code word (R107). -/
abbrev Char7 := BitVec 7

/-- A magazine number, 0 to 7 (R24, R78). -/
abbrev Mag := BitVec 3

/-- A packet number, 0 to 31 (R78, R79). -/
abbrev PacketNo := BitVec 5

/-- The signed 64-bit timestamp: latched and copied, never computed with (R22, R226). -/
abbrev Timestamp := BitVec 64

end Sys2Proof
end

