-- ==== Sys2Proof/Config.lean ====
section
/-!
DEFINITION. The parameters of the block (spec file 00_scope.md, rule R8): the fixed values, each under the name the
rule gives it, and the two OPEN parameters `BUF_CAP` and `CNT_W`, which the operations take as an argument.
-/

namespace Sys2Proof

/-- The two OPEN parameters of R8 (93_implementation_defined.md P1, P2). `none` is the spec's default, unbounded. -/
structure Config where
  /-- `BUF_CAP`, how many bytes of a unit the accumulator stores (R52). -/
  bufCap : Option Nat
  /-- `CNT_W`, the width of a diagnostic counter in bits (R38). -/
  cntWidth : Option Nat
deriving DecidableEq, Repr

/-- The configuration the machine runs: both OPEN parameters at the default R8 states. Log entry 1. -/
def Config.std : Config := { bufCap := none, cntWidth := none }

/-- A finite accumulator is allowed only with at least 65541 bytes (R52). -/
def Config.Allowed (cfg : Config) : Prop := ∀ c, cfg.bufCap = some c → 65541 ≤ c

/-- `INVALID`, the sentinel of both code tables (R100). -/
@[simp] abbrev Config.invalid : Byte := 255#8
/-- `MIN_UNIT`, the least analysable unit length (R127). -/
@[simp] abbrev Config.minUnit : Nat := 9
/-- `LEN_OFF`, the address of the 16-bit length field (R128). -/
@[simp] abbrev Config.lenOff : Nat := 4
/-- `LEN_BIAS`, the bytes the length field does not count (R128). -/
@[simp] abbrev Config.lenBias : Nat := 6
/-- `HL_OFF`, the address of the header-extension-length byte (R129). -/
@[simp] abbrev Config.hlOff : Nat := 8
/-- The address of the data identifier when there is no header extension (R129). -/
@[simp] abbrev Config.didOff : Nat := 9
/-- `DID_LO`, the least recognised data identifier (R130). -/
@[simp] abbrev Config.didLo : Byte := 0x10#8
/-- `DID_HI`, the greatest recognised data identifier (R130). -/
@[simp] abbrev Config.didHi : Byte := 0x1F#8
/-- `T_LINE_A`, a data-line record type (R144). -/
@[simp] abbrev Config.tLineA : Byte := 0x02#8
/-- `T_LINE_B`, the other data-line record type (R144). -/
@[simp] abbrev Config.tLineB : Byte := 0x03#8
/-- `T_FILL`, the filler record type (R145). -/
@[simp] abbrev Config.tFill : Byte := 0xFF#8
/-- `LINE_LEN`, the length of a data line in bytes (R144). -/
@[simp] abbrev Config.lineLen : Nat := 44
/-- `SYNC_BYTE`, the framing byte (R161). -/
@[simp] abbrev Config.syncByte : Byte := 0xE4#8
/-- `ROW_MIN`, the least display-row packet number (R173). -/
@[simp] abbrev Config.rowMin : PacketNo := 1#5
/-- `ROW_MAX`, the greatest display-row packet number (R173). -/
@[simp] abbrev Config.rowMax : PacketNo := 25#5
/-- `ROW_LEN`, the bytes of a packet body, so of a decoded row (R83, R173). -/
@[simp] abbrev Config.rowLen : Nat := 40
/-- `HDR_HAM_LEN`, the Hamming-coded bytes of a header packet (R167). -/
@[simp] abbrev Config.hdrHamLen : Nat := 8
/-- `HDR_TEXT_LEN`, the header text bytes of a header packet (R170). -/
@[simp] abbrev Config.hdrTextLen : Nat := 32
/-- The greatest relative page a header may open (R168). -/
@[simp] abbrev Config.maxRelativePage : Nat := 99
/-- `TS_UNKNOWN`, the timestamp value -1 (R22). -/
@[simp] abbrev Config.tsUnknown : Timestamp := -1#64

end Sys2Proof
end

