-- ==== Sys2Proof/Machine/Assoc.lean ====
section
/-!
DEFINITION. A partial map from Nat as a list of (key, value) pairs in ONE canonical form, keys strictly rising. The
rows of a page (R29), the cache of the Page Manager (R197) and the cells of the accumulator (R23) are such lists.
-/

namespace Sys2Proof.Machine

/-- The value stored under key `k`. -/
def assocFind {α : Type} (k : Nat) : List (Nat × α) → Option α
  | [] => none
  | (k', v) :: rest => if k = k' then some v else assocFind k rest

/-- Store `v` under key `k`, replacing what was there. -/
def assocInsert {α : Type} (k : Nat) (v : α) : List (Nat × α) → List (Nat × α)
  | [] => [(k, v)]
  | (k', v') :: rest =>
    if k < k' then (k, v) :: (k', v') :: rest
    else if k = k' then (k, v) :: rest
    else (k', v') :: assocInsert k v rest

/-- Every key is greater than `lo`. -/
def assocAbove {α : Type} (lo : Nat) (l : List (Nat × α)) : Bool := l.all fun x => decide (lo < x.1)

/-- The canonical form: keys strictly rising. -/
def assocSorted {α : Type} : List (Nat × α) → Bool
  | [] => true
  | (k, _) :: rest => assocAbove k rest && assocSorted rest

end Sys2Proof.Machine
end

