-- ==== Sys2Proof/Machine/CodeTables.lean ====
section
/-!
DEFINITION. The code tables of spec file 40_code_tables.md: `HAM84` and `ODDPAR`, each a pure function from a byte to
a byte with the sentinel 255, and their generators `hamCode` and `parCode`, which are also the stimulus encoders
`H` and `P` of R110. Neither table corrects an error (R101).
-/

namespace Sys2Proof.Machine

open Sys2Proof

/-- The code word `c` of R103 for the data value `v`, whose bits 0 to 3 are D1 to D4; the encoder `H` of R110. -/
def hamCode (v : Nibble) : Byte :=
  let d1 := v.getLsbD 0
  let d2 := v.getLsbD 1
  let d3 := v.getLsbD 2
  let d4 := v.getLsbD 3
  let p1 := (true ^^ d1) ^^ (d3 ^^ d4)
  let p2 := (true ^^ d1) ^^ (d2 ^^ d4)
  let p3 := (true ^^ d1) ^^ (d2 ^^ d3)
  let p4 := ((true ^^ p1) ^^ (d1 ^^ p2)) ^^ ((d2 ^^ p3) ^^ (d3 ^^ d4))
  BitVec.ofBoolListBE [p1, d1, p2, d2, p3, d3, p4, d4]

/-- The data bits of a byte in the places R104 gives them: `b[6] | b[4]<<1 | b[2]<<2 | b[0]<<3`. -/
def hamData (b : Byte) : Nibble :=
  BitVec.ofBoolListBE [b.getLsbD 0, b.getLsbD 2, b.getLsbD 4, b.getLsbD 6]

/-- The table `HAM84` (R103, R105): the value whose code word `b` is, and 255 for a byte that is no code word. -/
def ham84 (b : Byte) : Byte :=
  if hamCode (hamData b) = b then (hamData b).setWidth 8 else Config.invalid

/-- The code word `w` of R107 for the data value `c`, whose bits 0 to 6 are D1 to D7; the encoder `P` of R110. -/
def parCode (c : Char7) : Byte :=
  let d1 := c.getLsbD 0
  let d2 := c.getLsbD 1
  let d3 := c.getLsbD 2
  let d4 := c.getLsbD 3
  let d5 := c.getLsbD 4
  let d6 := c.getLsbD 5
  let d7 := c.getLsbD 6
  let p := ((true ^^ d1) ^^ (d2 ^^ d3)) ^^ ((d4 ^^ d5) ^^ (d6 ^^ d7))
  BitVec.ofBoolListBE [d1, d2, d3, d4, d5, d6, d7, p]

/-- The upper seven bits of a byte in reverse order (R108). -/
def parData (b : Byte) : Char7 :=
  BitVec.ofBoolListBE [b.getLsbD 1, b.getLsbD 2, b.getLsbD 3, b.getLsbD 4, b.getLsbD 5, b.getLsbD 6, b.getLsbD 7]

/-- The table `ODDPAR` (R107, R108): the value whose code word `b` is, and 255 for a byte that is no code word. -/
def oddpar (b : Byte) : Byte :=
  if parCode (parData b) = b then (parData b).setWidth 8 else Config.invalid

/-- The nibble a `HAM84` look-up yields, `none` when it returns the sentinel (R102: test for 255 and nothing else). -/
def hamNibble (b : Byte) : Option Nibble :=
  if ham84 b = Config.invalid then none else some ((ham84 b).setWidth 4)

/-- The character an `ODDPAR` look-up yields, `none` when it returns the sentinel (R102). -/
def parChar (b : Byte) : Option Char7 :=
  if oddpar b = Config.invalid then none else some ((oddpar b).setWidth 7)

/-- Parity-decode a run of bytes; `none` when any look-up returns the sentinel (R170, R173). -/
def parText : List Byte → Option (List Char7)
  | [] => some []
  | b :: bs =>
    match parChar b, parText bs with
    | some c, some cs => some (c :: cs)
    | _, _ => none

end Sys2Proof.Machine
end

