-- ==== Sys2Proof/Syntax.lean ====
section
/-!
DEFINITION. The instructions of TTXDEC as syntax. R11 says what an instruction is here: an input transaction, a
record of the buffered payload, or a packet inside a data line; `spec/opcode_table.json` adds the data identifier
classes, the line framing, the code words of the two tables and the host-side operations. One constructor per
mnemonic of the table; the rows that share a mnemonic (25 `PKT.ROW`, 6 `PKT.EXT`, 16 `H84`, 128 `PAR`, 2 `REC.LINE`)
are the values of that constructor's operand.
-/

namespace Sys2Proof

/-- The nine control fields of a page (R28, R81). -/
structure PageFlags where
  erase : Bool
  isSubtitle : Bool
  flash : Bool
  hide : Bool
  noHeader : Bool
  outOfSequence : Bool
  updated : Bool
  magazineSerial : Bool
  nationalOptions : BitVec 3
deriving DecidableEq, Repr

/-- A page record (R27): the content of a magazine slot and the payload of a page-completed event. `lines` is the
partial map of R29, a list of (row number, row) in ascending order of row number. -/
structure Page where
  magazine : Mag
  relativePage : Nat
  page : Nat
  subPage : Nat
  header : List Char7
  flags : PageFlags
  lines : List (Nat × List Char7)
  timeStamp : Timestamp
deriving DecidableEq, Repr

/-- What the outside world offers the block and its Page Manager, one at a time (R7, R205). -/
inductive Input where
  /-- The transaction `RESET` (R71, R240). -/
  | reset
  /-- The transaction `FRAG(sop, data, ts)` (R7, R71). -/
  | frag (sop : Bool) (data : List Byte) (ts : Timestamp)
  /-- The host reads diagnostic counter `i` (R194). -/
  | readCounter (i : Fin 8)
  /-- `setCurrentPage(pageNumber | none)` (R199). -/
  | setCurrentPage (n : Option Nat)
  /-- `deactivate(reset)` (R201). -/
  | deactivate (reset : Bool)
  /-- `pages` (R202). -/
  | pages
  /-- A page-completed event reaches the Page Manager (R198). -/
  | pageCompleted (p : Page)
deriving DecidableEq, Repr

/-- The formats that are decoded from bytes of the accumulator (R70, R88): the data identifier of a unit, a record,
a data line, an addressed packet, and one code word of either table. -/
inductive Level where
  | unit | record | line | packet | ham84 | oddpar
deriving DecidableEq, Repr

/-- An instruction as it is stored: at the input port (format 1 of R70) or as bytes of one of the other formats. -/
inductive Encoded where
  | port (x : Input)
  | word (l : Level) (bytes : List Byte)
deriving DecidableEq, Repr

/-- The instructions, one constructor per mnemonic of `spec/opcode_table.json`. -/
inductive Instr where
  /-- `RESET` (R240). -/
  | reset
  /-- `FRAG.CONT`: `FRAG` with `sop = 0` (R121, R122). -/
  | fragCont (data : List Byte) (ts : Timestamp)
  /-- `FRAG.START`: `FRAG` with `sop = 1` (R123, R124). -/
  | fragStart (data : List Byte) (ts : Timestamp)
  /-- `UNIT.TTX`: data identifier 0x10 to 0x1F, `low` its low nibble (R73, R130). -/
  | unitTtx (low : Nibble)
  /-- `UNIT.UNKNOWN`: any other data identifier (R73, R130). -/
  | unitUnknown (did : Byte)
  /-- `REC.LINE`: a record of type 0x02 (`second = false`) or 0x03 (`second = true`) (R144). -/
  | recLine (second : Bool) (body : List Byte)
  /-- `REC.FILL`: a record of type 0xFF (R145). -/
  | recFill (body : List Byte)
  /-- `REC.UNK`: a record of any other type (R146). -/
  | recUnk (t : Byte) (body : List Byte)
  /-- `LINE.FRAMED`: a well-framed data line; `low` is `lineByte[5:0]`, `body` the 40 bytes after the prefix (R161). -/
  | lineFramed (low : BitVec 6) (magByte packByte : Byte) (body : List Byte)
  /-- `LINE.BADFRAME`: a data line with a bad framing byte (R162). -/
  | lineBadframe (lineByte syncByte : Byte) (rest : List Byte)
  /-- `PKT.HDR`: packet 0 of magazine `m` (R166 to R172). -/
  | pktHdr (m : Mag) (body : List Byte)
  /-- `PKT.ROW`: packet `k`, 1 to 25, of magazine `m` (R173 to R175). -/
  | pktRow (k : PacketNo) (m : Mag) (body : List Byte)
  /-- `PKT.EXT`: packet `k`, 26 to 31, of magazine `m` (R176). -/
  | pktExt (k : PacketNo) (m : Mag) (body : List Byte)
  /-- `PKT.ADDRERR`: an address byte is no Hamming code word (R164). -/
  | pktAddrErr (magByte packByte : Byte) (body : List Byte)
  /-- `H84`: the code word of `v` is looked up in `HAM84` (R103). -/
  | h84 (v : Nibble)
  /-- `H84.INVALID`: a byte that is no code word is looked up in `HAM84` (R105). -/
  | h84Invalid (b : Byte)
  /-- `PAR`: the code word of `c` is looked up in `ODDPAR` (R107, R108). -/
  | par (c : Char7)
  /-- `PAR.INVALID`: a byte with an even number of one bits is looked up in `ODDPAR` (R108). -/
  | parInvalid (b : Byte)
  /-- `HOST.READCOUNTER` (R194). -/
  | hostReadCounter (i : Fin 8)
  /-- `HOST.SETCURRENTPAGE` (R199). -/
  | hostSetCurrentPage (n : Option Nat)
  /-- `HOST.DEACTIVATE` (R201). -/
  | hostDeactivate (reset : Bool)
  /-- `HOST.PAGES` (R202). -/
  | hostPages
  /-- `HOST.ONPAGECOMPLETED` (R198). -/
  | hostOnPageCompleted (p : Page)
deriving DecidableEq, Repr

end Sys2Proof
end

