-- ==== Sys2Proof/Machine/State.lean ====
section
/-!
DEFINITION. The state of TTXDEC (spec file 10_state.md) and of the Page Manager its output port is connected to
(45_host_interface.md), and the reasons a step can stop. R20: between two transactions the block is
`(RS.mode, RS.ts, BUF, SLOT[0..7], CNT[0..7])`; `OUT` is its output; the scan pointer is transient.
-/

namespace Sys2Proof.Machine

open Sys2Proof

/-- `RS.mode`, the state of the Stream Reassembler (R21). -/
inductive RsMode where
  /-- synchronizing: waiting for `startOfPacket = true` -/
  | sync
  /-- filling: accumulating bytes -/
  | fill
deriving DecidableEq, Repr

/-- The accumulator `BUF` (R23, R50): `len` counts every appended byte exactly, `cells` are the stored bytes by
address. Its canonical form is `Memory.wf`. An address that is not listed holds no value. -/
structure Memory where
  len : Nat
  cells : List Host.Cell
deriving DecidableEq, Repr

/-- `BUF` with nothing accumulated (R23). -/
def Memory.empty : Memory := { len := 0, cells := [] }

/-- The eight diagnostics (R211). -/
inductive Diag where
  | bufferTooSmall | pesLengthMismatch | headerOverrun | unknownDataId | badLineLength | badFraming
  | unknownLineType | codeError
deriving DecidableEq, Repr

/-- The scan pointer while a unit is analysed (R25): the format that stands at `pos`, and `end` of the payload. -/
structure Scan where
  level : Level
  pos : Nat
  stop : Nat
deriving DecidableEq, Repr

/-- The Page Manager, the consumer of the page-completed output (R196), with what it last handed to its host. -/
structure PageManager where
  /-- `cache`: page number to page, in ascending order of page number (R197). -/
  cache : List (Nat × Page)
  /-- `current`: the armed watch (R196). -/
  current : Option Nat
  /-- `enabled`: decoding enabled (R196). -/
  enabled : Bool
  /-- `subscriber`: whether a callback is registered (R196). -/
  subscriber : Bool
  /-- The pages the subscriber callback was invoked with in the last step, in order. Log entry 5. -/
  calls : List Page
  /-- The last snapshot `pages` returned, as a map, because R202 gives it no order. Log entry 6. -/
  snapshot : List (Nat × Page)
deriving DecidableEq, Repr

/-- The machine. -/
structure State where
  /-- `RS.mode` (R21). -/
  mode : RsMode
  /-- `RS.ts` (R22). -/
  ts : Timestamp
  /-- `BUF` (R23). -/
  buf : Memory
  /-- `SLOT[0..7]` (R24). -/
  slot : Vector (Option Page) 8
  /-- `CNT[0..7]` (R30). -/
  cnt : Vector Nat 8
  /-- `OUT`, the page-completed events of the last transaction in order (R31). -/
  out : List Page
  /-- What a read of the counters shows the consumer while it handles each event of `OUT`, in the same order: the
  counters at the moment of that event (R250). Log entry 7. -/
  eventCounters : List (Vector Nat 8)
  /-- `pos` and `end`, transient: `none` between transactions (R25). -/
  scan : Option Scan
  /-- The value the last stand-alone table look-up returned (R100). Log entry 5. -/
  lookup : Byte
  /-- The value the counter port last presented (R194). Log entry 5. -/
  counterPort : Nat
  /-- The Page Manager, outside the block (R196). -/
  host : PageManager
  /-- What the outside world has offered and the block has not yet taken, oldest first (R7). Log entry 3. -/
  inputs : List Input
deriving DecidableEq, Repr

/-- The reasons a step stops. The spec has none (R210, R12): all three are stops of the model in states that no
run reaches. -/
inductive Fault where
  /-- Raised by a read of `n` bytes of `BUF` at an address from `a` up that is not below `BUF.len`: R10 says no rule
  makes such a read. Safe: the model stops where the hardware is not described. Log entry 8. -/
  | noSuchAddress (a n : Nat)
  /-- Raised by a `UNIT` instruction executed while no unit is under analysis. Safe: R25 gives the scan pointer no
  existence there. Log entry 8. -/
  | noUnitUnderAnalysis
  /-- Raised if a record scan were still running after more rounds than its payload has bytes. Safe: R150 says it
  cannot happen. Log entry 8. -/
  | scanDidNotEnd
deriving DecidableEq, Repr

/-- The reasons an instruction has no meaning. -/
inductive Refusal where
  /-- Raised by `exec`'s arm of an instruction that has no meaning yet. Safe. No arm does. -/
  | notModelled (mnemonic : String)
  /-- Raised by a transaction issued while a unit is being analysed (93_implementation_defined.md U2: "Treatment:
  `refuse`"). Safe. -/
  | reentrant
  /-- Raised by `step` if the fetched bytes had not their format's length. Safe: the fetch gives the length. -/
  | undecodable
deriving DecidableEq, Repr

/-- The Page Manager's initial state (R196); `subscriber` is a DESIGN CHOICE of log entry 4. -/
def PageManager.initial : PageManager :=
  { cache := [], current := none, enabled := false, subscriber := false, calls := [], snapshot := [] }

/-- The machine right after reset (R34). The model's own output fields start at the values of log entry 5. -/
def State.reset : State :=
  { mode := .sync
    ts := Config.tsUnknown
    buf := Memory.empty
    slot := Vector.replicate 8 none
    cnt := Vector.replicate 8 0
    out := []
    eventCounters := []
    scan := none
    lookup := 0#8
    counterPort := 0
    host := PageManager.initial
    inputs := [] }

end Sys2Proof.Machine
end

