-- ==== Sys2Proof/Machine/Ops.lean ====
section
/-!
DEFINITION. The named operations over the state that the primitives of R10 stand for: `MemRead`, `Append`, `Clear`
(20_memory.md), `raise` (60_exceptions.md), `SLOT[m]` read and write, `emit`, the scan pointer, and the Page Manager's
handling of a page-completed event (45_host_interface.md).
-/

namespace Sys2Proof.Machine

open Sys2Proof

/-! ### The accumulator -/

/-- `MemRead(a, 1)` (R10): the byte at address `a`; `none` where the address holds no byte. -/
def Memory.read (m : Memory) (a : Nat) : Option Byte := assocFind a m.cells

/-- `MemRead(a, 2)` (R10, R54): a 16-bit big-endian read. -/
def Memory.read16 (m : Memory) (a : Nat) : Option Nat :=
  match m.read a, m.read (a + 1) with
  | some hi, some lo => some (hi.toNat * 256 + lo.toNat)
  | _, _ => none

/-- The `n` bytes at addresses `a .. a + n - 1`. -/
def Memory.readBytes (m : Memory) (a : Nat) : Nat → Option (List Byte)
  | 0 => some []
  | n + 1 =>
    match m.read a, m.readBytes (a + 1) n with
    | some b, some bs => some (b :: bs)
    | _, _ => none

/-- The bytes of `data` at addresses `a, a + 1, ...`. -/
def cellsFrom (a : Nat) : List Byte → List Host.Cell
  | [] => []
  | b :: bs => (a, b) :: cellsFrom (a + 1) bs

/-- The leading part of `data`, appended at address `a`, that an accumulator of capacity `cap` stores (R52). -/
def storedPart (cap : Option Nat) (a : Nat) (data : List Byte) : List Byte :=
  match cap with
  | none => data
  | some c => data.take (c - a)

/-- `Append(data)` (R51), with the capacity rule of R52: the length counts every byte exactly. -/
def Memory.append (cap : Option Nat) (m : Memory) (data : List Byte) : Memory :=
  { len := m.len + data.length
    cells := m.cells ++ cellsFrom m.len (storedPart cap m.len data) }

/-- The canonical form of `BUF`: the stored bytes are at addresses `0, 1, ...` without a gap, in that order, and
none lies at or beyond `len`. -/
def Memory.wf (m : Memory) : Bool :=
  decide (m.cells.map (fun c => c.1) = List.range m.cells.length) && decide (m.cells.length ≤ m.len)

/-- How many of `n` appended bytes an accumulator of capacity `cap` stores (R52). -/
def storedCount (cap : Option Nat) (n : Nat) : Nat :=
  match cap with
  | none => n
  | some c => min c n

/-- `BUF` stores exactly what an accumulator of capacity `cap` stores (R52). -/
def Memory.holds (cap : Option Nat) (m : Memory) : Bool := decide (m.cells.length = storedCount cap m.len)

/-- Every appended byte is stored: `BUF` of an unbounded accumulator (R52). -/
def Memory.complete (m : Memory) : Bool := m.holds none

/-- What an accumulator of capacity `c` stores of the bytes an unbounded one stores (R52). -/
def Memory.capped (c : Nat) (m : Memory) : Memory := { len := m.len, cells := m.cells.take c }

/-- `Append` on the accumulator. -/
def State.append (cfg : Config) (data : List Byte) (s : State) : State :=
  { s with buf := s.buf.append cfg.bufCap data }

/-- `Clear()` (R51). -/
def State.clearBuf (s : State) : State := { s with buf := Memory.empty }

/-- `RS.mode <- x`. -/
def State.setMode (x : RsMode) (s : State) : State := { s with mode := x }

/-- `RS.ts <- ts`. -/
def State.setTs (ts : Timestamp) (s : State) : State := { s with ts := ts }

/-! ### The scan pointer -/

/-- `pos` and `end` cease to exist: the scan of the unit has ended (R25, R141, R148). -/
def State.endScan (s : State) : State := { s with scan := none }

/-- `pos <- pos`, `end <- stop`, with the format that stands at `pos`. -/
def State.setScan (level : Level) (pos stop : Nat) (s : State) : State :=
  { s with scan := some { level := level, pos := pos, stop := stop } }

/-! ### Diagnostics: the block's exceptions -/

/-- The counter number of a diagnostic, its code (R30, R211). -/
def Diag.code : Diag → Fin 8
  | .bufferTooSmall => 0
  | .pesLengthMismatch => 1
  | .headerOverrun => 2
  | .unknownDataId => 3
  | .badLineLength => 4
  | .badFraming => 5
  | .unknownLineType => 6
  | .codeError => 7

/-- The structural diagnostics (R211): those that re-arm synchronization (R213). -/
def Diag.structural : Diag → Bool
  | .bufferTooSmall => true
  | .pesLengthMismatch => true
  | .headerOverrun => true
  | .unknownDataId => true
  | .badLineLength => true
  | .badFraming => false
  | .unknownLineType => false
  | .codeError => false

/-- One more event on a counter, held at the maximum of a finite width (R38, R212). -/
def bump (cfg : Config) (n : Nat) : Nat :=
  match cfg.cntWidth with
  | none => n + 1
  | some w => min (n + 1) (2 ^ w - 1)

/-- `CNT[i]` (R194). -/
def State.counter (s : State) (i : Fin 8) : Nat := s.cnt[i.val]'i.isLt

/-- `CNT[c] <- CNT[c] + 1` (R212 step 1). -/
def State.count (cfg : Config) (d : Diag) (s : State) : State :=
  { s with cnt := s.cnt.set d.code.val (bump cfg (s.counter d.code)) d.code.isLt }

/-- `raise D` (R212): taking the block's exception. The counter is the only lasting trace; nothing is saved. -/
def State.raise (cfg : Config) (d : Diag) (s : State) : State :=
  if d.structural then (s.count cfg d).setMode .sync else s.count cfg d

/-- `raise D` where the raising rule ends the scan of the unit (R142, R143, R144, R162, R213). R223: there is no
return from it and nothing to restore; the next unit is treated like any other. -/
def State.raiseAndEnd (cfg : Config) (d : Diag) (s : State) : State := (s.raise cfg d).endScan

/-! ### The magazine slots and the output -/

/-- `SLOT[m]` (R24). -/
def State.slotAt (s : State) (m : Mag) : Option Page := s.slot[m.toNat]'m.isLt

/-- `SLOT[m] <- v` (R24). -/
def State.setSlot (m : Mag) (v : Option Page) (s : State) : State :=
  { s with slot := s.slot.set m.toNat v m.isLt }

/-- The Page Manager's handling of a page-completed event (R198). -/
def PageManager.pageCompleted (p : Page) (h : PageManager) : PageManager :=
  { h with
    cache := if h.enabled then assocInsert p.page p h.cache else h.cache
    calls := if h.current = some p.page ∧ h.subscriber = true then h.calls ++ [p] else h.calls }

/-- `emit(p)` (R10, R191): the event joins `OUT` and, synchronously, reaches the one consumer (R192, R203), which may
read the counters while it handles the event and sees them as they are at this moment (R250). -/
def State.emit (p : Page) (s : State) : State :=
  { s with
    out := s.out ++ [p]
    eventCounters := s.eventCounters ++ [s.cnt]
    host := s.host.pageCompleted p }

/-- The value the consumer sees when it reads counter `i` while it handles event `k` of the last transaction (R250);
`none` where there was no such event. Reading has no side effect (R194). -/
def State.readDuringEvent (k : Nat) (i : Fin 8) (s : State) : Option Nat := (s.eventCounters[k]?).map fun v => v.get i

/-- `PKT.HDR` step 1 (R166): emit the page held for this magazine, if any, and empty the slot. -/
def State.closePage (m : Mag) (s : State) : State :=
  match s.slotAt m with
  | none => s
  | some p => (s.emit p).setSlot m none

/-- `SLOT[m].lines[k] <- d` where a page is open (R173, R174). -/
def State.storeRow (m : Mag) (k : PacketNo) (d : List Char7) (s : State) : State :=
  match s.slotAt m with
  | none => s
  | some p => s.setSlot m (some { p with lines := assocInsert k.toNat d p.lines })

/-! ### The start of a step -/

/-- The callbacks of an earlier step are past. -/
def State.clearCalls (s : State) : State := { s with host := { s.host with calls := [] } }

/-- `OUT` is empty at the start of every transaction (R31). -/
def State.beginTxn (s : State) : State := { s.clearCalls with out := [], eventCounters := [] }

/-- Go on with the next state of an outcome. -/
def andThen (o : Host.Outcome State Fault Refusal) (f : State → Host.Outcome State Fault Refusal) :
    Host.Outcome State Fault Refusal :=
  match o with
  | .next s => f s
  | .fault r => .fault r
  | .refused r => .refused r

/-- A transaction is taken only between transactions: one issued while a unit is being analysed is refused, as
93_implementation_defined.md U2 asks. -/
def betweenTransactions (s : State) (o : Host.Outcome State Fault Refusal) : Host.Outcome State Fault Refusal :=
  match s.scan with
  | none => o
  | some _ => .refused .reentrant

end Sys2Proof.Machine
end

