-- ==== Sys2Proof/Machine/Codes.lean ====
section
/-!
DEFINITION. The look-ups of the code tables as instructions (spec file 40_code_tables.md). A look-up reads no state
(R101); what it returns stands in `lookup`, the model's own output field (log entry 5), and nothing else changes.
-/

namespace Sys2Proof.Machine

open Sys2Proof

/-- The table answers `r`. -/
def State.answer (r : Byte) (s : State) : State := { s with lookup := r }

/-- `H84`: the code word of `v` is looked up in `HAM84` (R103). -/
def execH84 (v : Nibble) (s : State) : Host.Outcome State Fault Refusal := .next (s.answer (ham84 (hamCode v)))

/-- `H84.INVALID`: a byte that is no code word is looked up in `HAM84` (R105). -/
def execH84Invalid (b : Byte) (s : State) : Host.Outcome State Fault Refusal := .next (s.answer (ham84 b))

/-- `PAR`: the code word of `c` is looked up in `ODDPAR` (R107). -/
def execPar (c : Char7) (s : State) : Host.Outcome State Fault Refusal := .next (s.answer (oddpar (parCode c)))

/-- `PAR.INVALID`: a byte that is no code word is looked up in `ODDPAR` (R108). -/
def execParInvalid (b : Byte) (s : State) : Host.Outcome State Fault Refusal := .next (s.answer (oddpar b))

end Sys2Proof.Machine
end

