-- ==== Sys2Proof/Machine/Operands.lean ====
section
/-!
DEFINITION. The operands of the packets (spec files 30_encoding.md rules R80 and R82, 43_line_decoder.md): the eight
Hamming-coded header fields, the page identity and the sub-page number.
-/

namespace Sys2Proof.Machine

open Sys2Proof

/-- The eight decoded header fields (R80). -/
structure HeaderFields where
  units : Nibble
  tens : Nibble
  s1 : Nibble
  s2c4 : Nibble
  s3 : Nibble
  s4c5c6 : Nibble
  c7_10 : Nibble
  c11_14 : Nibble
deriving DecidableEq, Repr

/-- The header fields from the bytes at line offsets 4 to 11, the first eight of the packet body, in the order of
R80 (from general knowledge of ETS 300 706, as 93_implementation_defined.md G1 says; log entry 9). `none` when any
of the eight is no code word (R167): all eight are decoded before anything is tested. -/
def readHeader : List Byte → Option HeaderFields
  | b0 :: b1 :: b2 :: b3 :: b4 :: b5 :: b6 :: b7 :: _ =>
    match hamNibble b0, hamNibble b1, hamNibble b2, hamNibble b3,
      hamNibble b4, hamNibble b5, hamNibble b6, hamNibble b7 with
    | some units, some tens, some s1, some s2c4, some s3, some s4c5c6, some c7_10, some c11_14 =>
      some { units, tens, s1, s2c4, s3, s4c5c6, c7_10, c11_14 }
    | _, _, _, _, _, _, _, _ => none
  | _ => none

/-- The header text bytes, line offsets 12 to 43 (R80, R170). -/
def headerText (body : List Byte) : List Byte := body.drop Config.hdrHamLen

/-- `relativePage = 10 * tens + units`, 0 to 165 (R82, R168). -/
def HeaderFields.relativePage (f : HeaderFields) : Nat := 10 * f.tens.toNat + f.units.toNat

/-- The page number (R82, R169): `100 * m + relativePage`, plus 800 where that is below 100. -/
def pageNumber (m : Mag) (relativePage : Nat) : Nat :=
  let page0 := 100 * m.toNat + relativePage
  if page0 < 100 then page0 + 800 else page0

/-- The sub-page number (R82, R171). -/
def HeaderFields.subPage (f : HeaderFields) : Nat :=
  (f.s4c5c6 &&& 3#4).toNat * 1000 + f.s3.toNat * 100 + (f.s2c4 &&& 7#4).toNat * 10 + f.s1.toNat

/-- The placeholder page the Page Manager delivers for a page it has not cached (R200). -/
def placeholder (n : Nat) : Page :=
  { magazine := BitVec.ofNat 3 (n / 100 % 8)
    relativePage := n % 100
    page := n
    subPage := 0
    header := []
    flags :=
      { erase := false, isSubtitle := false, flash := false, hide := false, noHeader := false
        outOfSequence := false, updated := false, magazineSerial := false, nationalOptions := 0#3 }
    lines := []
    timeStamp := Config.tsUnknown }

/-- Identity of pages on the host side is by `(page, subPage)` (R204). Nothing in the block uses it. -/
def samePage (p q : Page) : Bool := decide (p.page = q.page ∧ p.subPage = q.subPage)

end Sys2Proof.Machine
end

