-- ==== Sys2Proof/Machine/HostOps.lean ====
section
/-!
DEFINITION. The operations of the host (spec file 45_host_interface.md): the counter read port and the Page Manager,
which the spec transcribes from the source. None of them changes the block (R205).
-/

namespace Sys2Proof.Machine

open Sys2Proof

/-- The page the Page Manager has for number `n`: the cached one, else the placeholder (R199, R200). -/
def PageManager.pageFor (n : Nat) (h : PageManager) : Page :=
  match assocFind n h.cache with
  | some p => p
  | none => placeholder n

/-- `setCurrentPage(pageNumber | none)` (R199). -/
def PageManager.setCurrentPage (n : Option Nat) (h : PageManager) : PageManager :=
  match n with
  | none => { h with current := none, calls := [] }
  | some n =>
    { h with
      current := some n
      enabled := true
      calls := if h.subscriber then [h.pageFor n] else [] }

/-- `deactivate(reset)` (R201). -/
def PageManager.deactivate (reset : Bool) (h : PageManager) : PageManager :=
  { h with current := none, enabled := false, calls := [], cache := if reset then [] else h.cache }

/-- `pages` (R202): a snapshot of all cached pages. -/
def PageManager.pages (h : PageManager) : PageManager := { h with snapshot := h.cache, calls := [] }

/-- `HOST.READCOUNTER` (R194): reading has no side effect on the block. -/
def execHostReadCounter (i : Fin 8) (s : State) : Host.Outcome State Fault Refusal :=
  .next { s.clearCalls with counterPort := s.counter i }

/-- `HOST.SETCURRENTPAGE` (R199). -/
def execHostSetCurrentPage (n : Option Nat) (s : State) : Host.Outcome State Fault Refusal :=
  .next { s with host := s.host.setCurrentPage n }

/-- `HOST.DEACTIVATE` (R201). -/
def execHostDeactivate (reset : Bool) (s : State) : Host.Outcome State Fault Refusal :=
  .next { s with host := s.host.deactivate reset }

/-- `HOST.PAGES` (R202). -/
def execHostPages (s : State) : Host.Outcome State Fault Refusal := .next { s with host := s.host.pages }

/-- `HOST.ONPAGECOMPLETED` (R198): the event on the consumer's side alone. -/
def execHostOnPageCompleted (p : Page) (s : State) : Host.Outcome State Fault Refusal :=
  .next { s with host := s.clearCalls.host.pageCompleted p }

end Sys2Proof.Machine
end

