-- ==== Sys2Proof/WellFormed.lean ====
section
/-!
DEFINITION. Which terms of `Instr` are instructions the encoding admits (spec files 30_encoding.md, 10_state.md). Each
check is a named Bool, so that a test can show the term it refuses.
-/

namespace Sys2Proof

open Sys2Proof.Machine

/-- A row of a page: number 1 to 25 and exactly 40 values (R29, R53). -/
def rowWf (x : Nat × List Char7) : Bool := decide (1 ≤ x.1 ∧ x.1 ≤ 25) && decide (x.2.length = Config.rowLen)

/-- The row store of a page: rows in ascending order, each well formed (R29, R35 d). -/
def linesWf (l : List (Nat × List Char7)) : Bool := assocSorted l && l.all rowWf

/-- The identity of a page in the ranges of R27: `page` follows from magazine and relative page (R35 b, c). -/
def identityWf (p : Page) : Bool :=
  decide (p.relativePage ≤ Config.maxRelativePage) &&
  decide (p.page = if p.magazine = 0#3 then 800 + p.relativePage else 100 * p.magazine.toNat + p.relativePage) &&
  decide (p.subPage ≤ 4585)

/-- A page record in the ranges of R27, as R35 b to d state them. -/
def Page.wf (p : Page) : Bool :=
  identityWf p && decide (p.header.length = Config.hdrTextLen) && linesWf p.lines

/-- A record body's length fits its one length byte (R74). -/
def bodyFits (body : List Byte) : Bool := decide (body.length ≤ 255)

/-- A data identifier that is none of 0x10 to 0x1F (R73). -/
def didUnknown (did : Byte) : Bool := !(decide (Config.didLo ≤ did) && decide (did ≤ Config.didHi))

/-- A record type that is none of 0x02, 0x03, 0xFF (R75). -/
def typeUnknown (t : Byte) : Bool := decide (t ≠ Config.tLineA ∧ t ≠ Config.tLineB ∧ t ≠ Config.tFill)

/-- The two framing bytes of a data line are both as R161 asks. -/
def wellFramed (lineByte syncByte : Byte) : Bool :=
  decide (syncByte = Config.syncByte) && decide (lineByte.extractLsb' 6 2 = 3#2)

/-- A packet body is 40 bytes (R76). -/
def bodyIsPacket (body : List Byte) : Bool := decide (body.length = Config.rowLen)

/-- A display-row packet number, 1 to 25 (R79). -/
def isRowNo (k : PacketNo) : Bool := decide (Config.rowMin ≤ k) && decide (k ≤ Config.rowMax)

/-- An extension packet number, 26 to 31 (R79). -/
def isExtNo (k : PacketNo) : Bool := decide (Config.rowMax < k)

/-- At least one of the two address bytes is no Hamming code word (R164). -/
def addressInvalid (magByte packByte : Byte) : Bool :=
  decide (ham84 magByte = Config.invalid) || decide (ham84 packByte = Config.invalid)

/-- The terms of `Instr` that the encoding admits. -/
def Instr.wf : Instr → Bool
  | .reset => true
  | .fragCont _ _ => true
  | .fragStart _ _ => true
  | .unitTtx _ => true
  | .unitUnknown did => didUnknown did
  | .recLine _ body => bodyFits body
  | .recFill body => bodyFits body
  | .recUnk t body => typeUnknown t && bodyFits body
  | .lineFramed _ _ _ body => bodyIsPacket body
  | .lineBadframe lineByte syncByte rest => !wellFramed lineByte syncByte && decide (rest.length = 42)
  | .pktHdr _ body => bodyIsPacket body
  | .pktRow k _ body => isRowNo k && bodyIsPacket body
  | .pktExt k _ body => isExtNo k && bodyIsPacket body
  | .pktAddrErr magByte packByte body => addressInvalid magByte packByte && bodyIsPacket body
  | .h84 _ => true
  | .h84Invalid b => decide (ham84 b = Config.invalid)
  | .par _ => true
  | .parInvalid b => decide (oddpar b = Config.invalid)
  | .hostReadCounter _ => true
  | .hostSetCurrentPage _ => true
  | .hostDeactivate _ => true
  | .hostPages => true
  | .hostOnPageCompleted p => p.wf

end Sys2Proof
end

