-- ==== Sys2Proof/Decode.lean ====
section
/-!
DEFINITION. The decoder of every format of spec file 30_encoding.md, and after it the encoder. Decoding is total: a
byte string that has the length of its format always decodes (R84: no encoding traps), and one of another length is
rejected by name. The maps are the ones of `spec/opcode_table.json`: data identifier (R73), record type (R75), line
framing (R77), packet address (R78, R79), code words (R103, R108).
-/

namespace Sys2Proof

open Sys2Proof.Machine

/-! ### The maps of each format -/

/-- A data identifier's class (R73). -/
inductive UnitKind where
  | ttx (low : Nibble)
  | unknown
deriving DecidableEq, Repr

/-- The data identifier map of R73. -/
def decodeDid (did : Byte) : UnitKind :=
  if Config.didLo ≤ did ∧ did ≤ Config.didHi then .ttx (did.setWidth 4) else .unknown

/-- A record type's operation (R75). -/
inductive RecordKind where
  | line (second : Bool)
  | fill
  | unk
deriving DecidableEq, Repr

/-- The record type map of R75. -/
def decodeType (t : Byte) : RecordKind :=
  if t = Config.tLineA then .line false
  else if t = Config.tLineB then .line true
  else if t = Config.tFill then .fill
  else .unk

/-- The framing of a data line (R161); `low` is `lineByte[5:0]`, which nothing uses (R77). -/
inductive FrameKind where
  | framed (low : BitVec 6)
  | bad
deriving DecidableEq, Repr

/-- The framing check of R161: `syncByte = 0xE4` and `lineByte[7:6] = 0b11`. -/
def decodeFraming (lineByte syncByte : Byte) : FrameKind :=
  if syncByte = Config.syncByte ∧ lineByte.extractLsb' 6 2 = 3#2 then .framed (lineByte.setWidth 6) else .bad

/-- What the two address bytes of a data line select (R79, R164). -/
inductive PacketKind where
  | hdr (m : Mag)
  | row (k : PacketNo) (m : Mag)
  | ext (k : PacketNo) (m : Mag)
  | addrErr
deriving DecidableEq, Repr

/-- The magazine of R78: `magRaw & 0x7`. -/
def magOf (magRaw : Nibble) : Mag := (magRaw &&& 7#4).setWidth 3

/-- The packet number of R78: `(magRaw >> 3) | (packRaw << 1)`. -/
def packetOf (magRaw packRaw : Nibble) : PacketNo :=
  (magRaw.setWidth 5 >>> 3) ||| (packRaw.setWidth 5 <<< 1)

/-- The packet number map of R79. -/
def packetKind (k : PacketNo) (m : Mag) : PacketKind :=
  if k = 0#5 then .hdr m
  else if k ≤ Config.rowMax then .row k m
  else .ext k m

/-- The address decode of R163 and R164. -/
def decodeAddress (magByte packByte : Byte) : PacketKind :=
  match hamNibble magByte, hamNibble packByte with
  | some magRaw, some packRaw => packetKind (packetOf magRaw packRaw) (magOf magRaw)
  | _, _ => .addrErr

/-! ### Decoding -/

/-- Why a byte string is no instruction of a format: it has not the format's length (R70). -/
inductive Reject where
  | unitNeedsOneByte
  | recordNeedsTypeAndLength
  | recordBodyLength
  | lineNeeds44Bytes
  | packetNeeds42Bytes
  | codeWordNeedsOneByte
deriving DecidableEq, Repr

/-- Format 1: the transaction, selected by its kind and its `sop` bit (R71), or a host operation. -/
def decodeInput : Input → Instr
  | .reset => .reset
  | .frag false data ts => .fragCont data ts
  | .frag true data ts => .fragStart data ts
  | .readCounter i => .hostReadCounter i
  | .setCurrentPage n => .hostSetCurrentPage n
  | .deactivate r => .hostDeactivate r
  | .pages => .hostPages
  | .pageCompleted p => .hostOnPageCompleted p

/-- Format 2: the data identifier byte of a unit (R73). -/
def decodeUnit : List Byte → Except Reject Instr
  | [did] =>
    match decodeDid did with
    | .ttx low => .ok (.unitTtx low)
    | .unknown => .ok (.unitUnknown did)
  | _ => .error .unitNeedsOneByte

/-- Format 3: type byte, length byte, body (R74). -/
def decodeRecord : List Byte → Except Reject Instr
  | t :: n :: body =>
    if body.length = n.toNat then
      match decodeType t with
      | .line second => .ok (.recLine second body)
      | .fill => .ok (.recFill body)
      | .unk => .ok (.recUnk t body)
    else .error .recordBodyLength
  | _ => .error .recordNeedsTypeAndLength

/-- Format 4: the 44 bytes of a data line (R76). -/
def decodeLine : List Byte → Except Reject Instr
  | lineByte :: syncByte :: magByte :: packByte :: body =>
    if body.length = Config.rowLen then
      match decodeFraming lineByte syncByte with
      | .framed low => .ok (.lineFramed low magByte packByte body)
      | .bad => .ok (.lineBadframe lineByte syncByte (magByte :: packByte :: body))
    else .error .lineNeeds44Bytes
  | _ => .error .lineNeeds44Bytes

/-- Format 5: the two address bytes and the 40 bytes of a packet body (R76, R79). -/
def decodePacket : List Byte → Except Reject Instr
  | magByte :: packByte :: body =>
    if body.length = Config.rowLen then
      match decodeAddress magByte packByte with
      | .hdr m => .ok (.pktHdr m body)
      | .row k m => .ok (.pktRow k m body)
      | .ext k m => .ok (.pktExt k m body)
      | .addrErr => .ok (.pktAddrErr magByte packByte body)
    else .error .packetNeeds42Bytes
  | _ => .error .packetNeeds42Bytes

/-- A byte at a position where `HAM84` applies (R103, R105). -/
def decodeHam : List Byte → Except Reject Instr
  | [b] =>
    match hamNibble b with
    | some v => .ok (.h84 v)
    | none => .ok (.h84Invalid b)
  | _ => .error .codeWordNeedsOneByte

/-- A byte at a position where `ODDPAR` applies (R107, R108). -/
def decodePar : List Byte → Except Reject Instr
  | [b] =>
    match parChar b with
    | some c => .ok (.par c)
    | none => .ok (.parInvalid b)
  | _ => .error .codeWordNeedsOneByte

/-- The decoder: every format, selected by where the word stands and never by its value (R109). -/
def decode : Encoded → Except Reject Instr
  | .port x => .ok (decodeInput x)
  | .word .unit bytes => decodeUnit bytes
  | .word .record bytes => decodeRecord bytes
  | .word .line bytes => decodeLine bytes
  | .word .packet bytes => decodePacket bytes
  | .word .ham84 bytes => decodeHam bytes
  | .word .oddpar bytes => decodePar bytes

/-! ### Encoding -/

/-- The two address bytes of magazine `m`, packet `k`: `ADDR(m, k)` of R87. -/
def addrBytes (m : Mag) (k : PacketNo) : List Byte :=
  [hamCode (m.setWidth 4 ||| ((k &&& 1#5).setWidth 4 <<< 3)), hamCode ((k >>> 1).setWidth 4)]

/-- Type byte, length byte, body: `REC(t, body)` of R87. -/
def recordBytes (t : Byte) (body : List Byte) : List Byte := t :: BitVec.ofNat 8 body.length :: body

/-- The encoder: the words of a well-formed instruction. -/
def encode : Instr → Encoded
  | .reset => .port .reset
  | .fragCont data ts => .port (.frag false data ts)
  | .fragStart data ts => .port (.frag true data ts)
  | .unitTtx low => .word .unit [0x10#8 ||| low.setWidth 8]
  | .unitUnknown did => .word .unit [did]
  | .recLine false body => .word .record (recordBytes Config.tLineA body)
  | .recLine true body => .word .record (recordBytes Config.tLineB body)
  | .recFill body => .word .record (recordBytes Config.tFill body)
  | .recUnk t body => .word .record (recordBytes t body)
  | .lineFramed low magByte packByte body =>
    .word .line ((0xC0#8 ||| low.setWidth 8) :: Config.syncByte :: magByte :: packByte :: body)
  | .lineBadframe lineByte syncByte rest => .word .line (lineByte :: syncByte :: rest)
  | .pktHdr m body => .word .packet (addrBytes m 0#5 ++ body)
  | .pktRow k m body => .word .packet (addrBytes m k ++ body)
  | .pktExt k m body => .word .packet (addrBytes m k ++ body)
  | .pktAddrErr magByte packByte body => .word .packet (magByte :: packByte :: body)
  | .h84 v => .word .ham84 [hamCode v]
  | .h84Invalid b => .word .ham84 [b]
  | .par c => .word .oddpar [parCode c]
  | .parInvalid b => .word .oddpar [b]
  | .hostReadCounter i => .port (.readCounter i)
  | .hostSetCurrentPage n => .port (.setCurrentPage n)
  | .hostDeactivate r => .port (.deactivate r)
  | .hostPages => .port .pages
  | .hostOnPageCompleted p => .port (.pageCompleted p)

/-! ### The words of the opcode table

A row of `spec/opcode_table.json` is a pattern over ONE field of one format, and the patterns of different formats
overlap: 0x10 is a data identifier, a record type, a packet address and an odd-parity code word. R109 says that only
the position of a byte tells which applies. A word that comes with no position is read in the first format of the
order below that has a row for it (log entry 2). -/

/-- The format a bare table word is read in; `none` is the input port. -/
def tableLevel (nbits w : Nat) : Option Level :=
  if 8 < nbits then some .line
  else if w = 0 ∨ w = 1 then none
  else if w = 2 ∨ w = 3 ∨ w = 255 then some .record
  else if w = 16 then some .unit
  else if w % 8 = 0 then some .packet
  else if ham84 (BitVec.ofNat 8 w) ≠ Config.invalid then some .ham84
  else if oddpar (BitVec.ofNat 8 w) ≠ Config.invalid then some .oddpar
  else if w / 16 = 1 then some .unit
  else some .packet

/-- A run of zero bytes: the operand bytes the table gives no bits. -/
def zeroBytes (n : Nat) : List Byte := List.replicate n 0#8

/-- The bytes of a table word in a format. `LINE` words are `(lineByte << 8) | syncByte` and `PACKET` words are
`(packRaw << 4) | magRaw`, the decoded address, so that the bytes stored are its two code words. -/
def tableBytes (l : Level) (w : Nat) : List Byte :=
  match l with
  | .unit => [BitVec.ofNat 8 w]
  | .record => [BitVec.ofNat 8 w, 0#8]
  | .line => [BitVec.ofNat 8 (w / 256), BitVec.ofNat 8 w] ++ zeroBytes 42
  | .packet => [hamCode (BitVec.ofNat 4 w), hamCode (BitVec.ofNat 4 (w / 16))] ++ zeroBytes 40
  | .ham84 => [BitVec.ofNat 8 w]
  | .oddpar => [BitVec.ofNat 8 w]

/-- A table word as it is stored: a `FRAG` transaction whose `sop` is the word, or bytes of its format. -/
def tableEncoded (nbits w : Nat) : Encoded :=
  match tableLevel nbits w with
  | none => .port (.frag (w == 1) [] 0#64)
  | some l => .word l (tableBytes l w)

/-- The instruction the decoder reads from a bare word of the opcode table. -/
def decodeTableWord (nbits w : Nat) : Option Instr :=
  match decode (tableEncoded nbits w) with
  | .ok i => some i
  | .error _ => none

end Sys2Proof
end

