-- ==== Sys2Proof/Machine/Flags.lean ====
section
/-!
DEFINITION. The nine control fields of a page, the block's only flags (R28), from the control bits C4 to C14 of the
header packet (R81, R171). No operation reads them (R180).
-/

namespace Sys2Proof.Machine

open Sys2Proof

/-- C4, erase page: `s2c4[3]`. -/
def HeaderFields.c4 (f : HeaderFields) : Bool := f.s2c4.getLsbD 3
/-- C5, newsflash: `s4c5c6[2]`. -/
def HeaderFields.c5 (f : HeaderFields) : Bool := f.s4c5c6.getLsbD 2
/-- C6, subtitle: `s4c5c6[3]`. -/
def HeaderFields.c6 (f : HeaderFields) : Bool := f.s4c5c6.getLsbD 3
/-- C7, suppress header: `c7_10[0]`. -/
def HeaderFields.c7 (f : HeaderFields) : Bool := f.c7_10.getLsbD 0
/-- C8, update indicator: `c7_10[1]`. -/
def HeaderFields.c8 (f : HeaderFields) : Bool := f.c7_10.getLsbD 1
/-- C9, interrupted sequence: `c7_10[2]`. -/
def HeaderFields.c9 (f : HeaderFields) : Bool := f.c7_10.getLsbD 2
/-- C10, inhibit display: `c7_10[3]`. -/
def HeaderFields.c10 (f : HeaderFields) : Bool := f.c7_10.getLsbD 3
/-- C11, magazine serial: `c11_14[0]`. -/
def HeaderFields.c11 (f : HeaderFields) : Bool := f.c11_14.getLsbD 0
/-- C12 to C14 as a number, C12 least significant: `c11_14[3:1]`. -/
def HeaderFields.c12_14 (f : HeaderFields) : BitVec 3 := f.c11_14.extractLsb' 1 3

/-- The flag each control bit feeds (R81, decisions D13 and D14; log entry 9). -/
def HeaderFields.flags (f : HeaderFields) : PageFlags :=
  { erase := f.c4
    isSubtitle := f.c6
    flash := f.c5
    hide := f.c10
    noHeader := f.c7
    outOfSequence := f.c9
    updated := f.c8
    magazineSerial := f.c11
    nationalOptions := f.c12_14 }

end Sys2Proof.Machine
end

