-- ==== Sys2Proof/Machine/Packets.lean ====
section
/-!
DEFINITION. The packets of a data line (spec file 43_line_decoder.md, rules R164 to R176): `PKT.HDR`, `PKT.ROW`,
`PKT.EXT` and the address miss. `body` holds the line bytes `B(4) .. B(43)`.
-/

namespace Sys2Proof.Machine

open Sys2Proof

/-- The page a header opens (R172): no rows, the timestamp of the unit under analysis. -/
def newPage (m : Mag) (f : HeaderFields) (header : List Char7) (ts : Timestamp) : Page :=
  { magazine := m
    relativePage := f.relativePage
    page := pageNumber m f.relativePage
    subPage := f.subPage
    header := header
    flags := f.flags
    lines := []
    timeStamp := ts }

/-- `PKT.HDR` after its step 1: R167 (fields), R168 (filler test), R170 (text), R172 (open the page). -/
def openPage (cfg : Config) (m : Mag) (body : List Byte) (s : State) : State :=
  match readHeader body with
  | none => s.raise cfg .codeError
  | some f =>
    if Config.maxRelativePage < f.relativePage then s
    else
      match parText (headerText body) with
      | none => s.raise cfg .codeError
      | some h => s.setSlot m (some (newPage m f h s.ts))

/-- `Header(m, p)` of R177: step 1 comes first and nothing undoes it (R166). -/
def header (cfg : Config) (m : Mag) (body : List Byte) (s : State) : State := openPage cfg m body (s.closePage m)

/-- `Row(m, k, p)` of R177: all 40 bytes are parity-decoded before the slot is looked at (R173 to R175). -/
def row (cfg : Config) (k : PacketNo) (m : Mag) (body : List Byte) (s : State) : State :=
  match parText body with
  | none => s.raise cfg .codeError
  | some d => s.storeRow m k d

/-- Packets 26 to 31: content ignored (R176). -/
def extension (s : State) : State := s

/-- An address byte is invalid: the line is dropped, the scan continues (R164). -/
def addressMiss (cfg : Config) (s : State) : State := s.raise cfg .codeError

/-- `PKT.HDR` (R166 to R172). -/
def execPktHdr (m : Mag) (body : List Byte) (s : State) : Host.Outcome State Fault Refusal :=
  .next (header Config.std m body s)

/-- `PKT.ROW` (R173 to R175). -/
def execPktRow (k : PacketNo) (m : Mag) (body : List Byte) (s : State) : Host.Outcome State Fault Refusal :=
  .next (row Config.std k m body s)

/-- `PKT.EXT` (R176). -/
def execPktExt (_k : PacketNo) (_m : Mag) (_body : List Byte) (s : State) :
    Host.Outcome State Fault Refusal := .next (extension s)

/-- `PKT.ADDRERR` (R164). -/
def execPktAddrErr (_magByte _packByte : Byte) (_body : List Byte) (s : State) :
    Host.Outcome State Fault Refusal := .next (addressMiss Config.std s)

end Sys2Proof.Machine
end

