-- ==== Sys2Proof/Machine/Lines.lean ====
section
/-!
DEFINITION. The decode of one data line (spec file 43_line_decoder.md, rules R161 to R165 and R177): framing, address,
routing by packet number. `ABANDON` is the end of the scan; `CONTINUE` leaves the scan pointer for R147's advance.
-/

namespace Sys2Proof.Machine

open Sys2Proof

/-- A well-framed line: address decode and routing (R163 to R165). -/
def framedLine (cfg : Config) (magByte packByte : Byte) (body : List Byte) (s : State) : State :=
  match decodeAddress magByte packByte with
  | .hdr m => header cfg m body s
  | .row k m => row cfg k m body s
  | .ext _ _ => extension s
  | .addrErr => addressMiss cfg s

/-- A framing failure: `BadFraming`, and the rest of the unit is abandoned (R162). -/
def badFrame (cfg : Config) (s : State) : State := s.raiseAndEnd cfg .badFraming

/-- `DecodeLine(p)` of R177 on the bytes of the line. -/
def dataLine (cfg : Config) (bytes : List Byte) (s : State) : State :=
  match bytes with
  | lineByte :: syncByte :: magByte :: packByte :: body =>
    match decodeFraming lineByte syncByte with
    | .framed _ => framedLine cfg magByte packByte body s
    | .bad => badFrame cfg s
  | _ => s

/-- `LINE.FRAMED` (R161, R163 to R165). `lineByte[5:0]` is not used (R77). -/
def execLineFramed (_low : BitVec 6) (magByte packByte : Byte) (body : List Byte) (s : State) :
    Host.Outcome State Fault Refusal :=
  .next (framedLine Config.std magByte packByte body s)

/-- `LINE.BADFRAME` (R162). -/
def execLineBadframe (_lineByte _syncByte : Byte) (_rest : List Byte) (s : State) :
    Host.Outcome State Fault Refusal := .next (badFrame Config.std s)

end Sys2Proof.Machine
end

