-- ==== Sys2Proof/Machine/Records.lean ====
section
/-!
DEFINITION. The Line Dispatcher (spec file 42_dispatcher.md): the record operations `REC.LINE`, `REC.FILL`, `REC.UNK`,
the fetch of a record with its two framing checks, and the scan of a unit's payload.
-/

namespace Sys2Proof.Machine

open Sys2Proof

/-- `REC.LINE` (R144): a body that is not 44 bytes ends the scan, else the line is decoded. -/
def lineRecord (cfg : Config) (body : List Byte) (s : State) : State :=
  if body.length = Config.lineLen then dataLine cfg body s else s.raiseAndEnd cfg .badLineLength

/-- `REC.FILL` (R145): skipped. -/
def fillRecord (s : State) : State := s

/-- `REC.UNK` (R146): counted and skipped. -/
def unknownRecord (cfg : Config) (s : State) : State := s.raise cfg .unknownLineType

/-- `REC.LINE`, types 0x02 and 0x03, treated alike (R144). -/
def execRecLine (_second : Bool) (body : List Byte) (s : State) : Host.Outcome State Fault Refusal :=
  .next (lineRecord Config.std body s)

/-- `REC.FILL` (R145). -/
def execRecFill (_body : List Byte) (s : State) : Host.Outcome State Fault Refusal := .next (fillRecord s)

/-- `REC.UNK` (R146). -/
def execRecUnk (_t : Byte) (_body : List Byte) (s : State) : Host.Outcome State Fault Refusal := .next (unknownRecord Config.std s)

/-- The meaning of the record whose type byte is `t` (R75, R149). -/
def record (cfg : Config) (t : Byte) (body : List Byte) (s : State) : State :=
  match decodeType t with
  | .line _ => lineRecord cfg body s
  | .fill => fillRecord s
  | .unk => unknownRecord cfg s

/-- What the dispatcher finds at `pos` (R141 to R143). -/
inductive RecordFetch where
  /-- `pos = end`: the scan has ended normally. -/
  | ended
  /-- One byte remains, or the body would overrun the payload. -/
  | badLength
  /-- A record of type `t` with length byte `n` and its body. -/
  | found (t n : Byte) (body : List Byte)
  /-- An address that holds no byte was read. -/
  | missing (a n : Nat)
deriving DecidableEq, Repr

/-- Fetch the record at `pos`, in the order of R149: both checks come before the type is looked at. -/
def fetchRecord (m : Memory) (pos stop : Nat) : RecordFetch :=
  if stop ≤ pos then .ended
  else if stop - pos < 2 then .badLength
  else
    match m.read pos, m.read (pos + 1) with
    | some t, some n =>
      if stop < pos + 2 + n.toNat then .badLength
      else
        match m.readBytes (pos + 2) n.toNat with
        | some body => .found t n body
        | none => .missing (pos + 2) n.toNat
    | _, _ => .missing pos 2

/-- The format that stands after one of the given format: a record follows a line or a packet (R74). -/
def nextLevel : Level → Level
  | .unit => .unit
  | .record => .record
  | .line => .record
  | .packet => .record
  | .ham84 => .ham84
  | .oddpar => .oddpar

/-- Move the scan pointer past the `n` bytes that were fetched (R147). Nothing moves when the scan has ended. -/
def State.advance (n : Nat) (s : State) : State :=
  match s.scan with
  | none => s
  | some sc => s.setScan (nextLevel sc.level) (sc.pos + n) sc.stop

/-- One round of the scan loop of R149 at `pos`. -/
def scanRound (cfg : Config) (pos stop : Nat) (s : State) : Host.Outcome State Fault Refusal :=
  match fetchRecord s.buf pos stop with
  | .ended => .next s.endScan
  | .badLength => .next (s.raiseAndEnd cfg .badLineLength)
  | .found t n body => .next ((record cfg t body s).advance (2 + n.toNat))
  | .missing a n => .fault (.noSuchAddress a n)

/-- The scan loop of R149: rounds until the scan has ended. `fuel` bounds the rounds (R150). -/
def scanLoop (cfg : Config) : Nat → State → Host.Outcome State Fault Refusal
  | 0, _ => .fault .scanDidNotEnd
  | fuel + 1, s =>
    match s.scan with
    | none => .next s
    | some sc => andThen (scanRound cfg sc.pos sc.stop s) (scanLoop cfg fuel)

/-- `Dispatch(start, end)` (R149). -/
def dispatch (cfg : Config) (start stop : Nat) (s : State) : Host.Outcome State Fault Refusal :=
  scanLoop cfg (stop - start + 2) (s.setScan .record start stop)

end Sys2Proof.Machine
end

