-- ==== Sys2Proof/Machine/Units.lean ====
section
/-!
DEFINITION. The analysis of a completed unit (spec file 41_reassembler.md, rules R126 to R132) and the data identifier
classes `UNIT.TTX` and `UNIT.UNKNOWN` (R73, R130, R131).
-/

namespace Sys2Proof.Machine

open Sys2Proof

/-- A recognised data identifier under the scan pointer: the records after it are scanned to the end of the unit
(R131). -/
def knownUnit (cfg : Config) (s : State) : Host.Outcome State Fault Refusal :=
  match s.scan with
  | none => .fault .noUnitUnderAnalysis
  | some sc => dispatch cfg (sc.pos + 1) sc.stop s

/-- Any other data identifier: `UnknownDataId`, the unit has no effect (R130). -/
def unknownUnit (cfg : Config) (s : State) : State := s.raiseAndEnd cfg .unknownDataId

/-- `UNIT.TTX` (R73, R130, R131); the low nibble of the identifier is not used. -/
def execUnitTtx (_low : Nibble) (s : State) : Host.Outcome State Fault Refusal := knownUnit Config.std s

/-- `UNIT.UNKNOWN` (R130). -/
def execUnitUnknown (_did : Byte) (s : State) : Host.Outcome State Fault Refusal := .next (unknownUnit Config.std s)

/-- The meaning of the data identifier `did`. -/
def unit (cfg : Config) (did : Byte) (s : State) : Host.Outcome State Fault Refusal :=
  match decodeDid did with
  | .ttx _ => knownUnit cfg s
  | .unknown => .next (unknownUnit cfg s)

/-- Checks 3 and 4 of `Analyse` (R129, R130) with the scan pointer on the data identifier. -/
def analyseHeader (cfg : Config) (s : State) : Host.Outcome State Fault Refusal :=
  match s.buf.read Config.hlOff with
  | none => .fault (.noSuchAddress Config.hlOff 1)
  | some hl =>
    let q := Config.didOff + hl.toNat
    if s.buf.len ≤ q then .next (s.raise cfg .headerOverrun)
    else
      match s.buf.read q with
      | none => .fault (.noSuchAddress q 1)
      | some did => unit cfg did (s.setScan .unit q s.buf.len)

/-- `Analyse()` (R126): the four checks in their fixed order, then the hand-over. -/
def analyse (cfg : Config) (s : State) : Host.Outcome State Fault Refusal :=
  if s.buf.len < Config.minUnit then .next (s.raise cfg .bufferTooSmall)
  else
    match s.buf.read16 Config.lenOff with
    | none => .fault (.noSuchAddress Config.lenOff 2)
    | some plen =>
      if plen ≠ s.buf.len - Config.lenBias then .next (s.raise cfg .pesLengthMismatch)
      else analyseHeader cfg s

end Sys2Proof.Machine
end

