-- ==== Sys2Proof/Machine/Transactions.lean ====
section
/-!
DEFINITION. The three transactions (spec files 41_reassembler.md rules R121 to R125, 70_reset_and_hazards.md rule R240).
-/

namespace Sys2Proof.Machine

open Sys2Proof

/-- `RESET` (R240): every piece of the block's state takes its reset value (R34). The Page Manager is not part of the
block (R201), and what the outside world has still to offer is not either. -/
def resetBlock (s : State) : State :=
  { State.reset with
    host := s.clearCalls.host
    inputs := s.inputs
    lookup := s.lookup
    counterPort := s.counterPort }

/-- `FRAG` with `sop = 0` (R121, R122, R125). -/
def fragCont (cfg : Config) (data : List Byte) (s : State) : State :=
  match s.mode with
  | .fill => s.beginTxn.append cfg data
  | .sync => s.beginTxn

/-- The end of `FRAG` with `sop = 1` (R123, R124): `RS.mode <- FILL; Clear(); RS.ts <- ts; Append(data)`. -/
def beginUnit (cfg : Config) (data : List Byte) (ts : Timestamp) (s : State) : State :=
  (((s.setMode .fill).clearBuf).setTs ts).append cfg data

/-- `FRAG` with `sop = 1` (R123 to R125): the old unit is analysed first when the block is filling. -/
def fragStart (cfg : Config) (data : List Byte) (ts : Timestamp) (s : State) : Host.Outcome State Fault Refusal :=
  match s.mode with
  | .fill => andThen (analyse cfg s.beginTxn) fun a => .next (beginUnit cfg data ts a)
  | .sync => .next (beginUnit cfg data ts s.beginTxn)

/-- `RESET` (R240). -/
def execReset (s : State) : Host.Outcome State Fault Refusal := betweenTransactions s (.next (resetBlock s))

/-- `FRAG.CONT` (R121, R122); its timestamp is ignored. -/
def execFragCont (data : List Byte) (_ts : Timestamp) (s : State) : Host.Outcome State Fault Refusal :=
  betweenTransactions s (.next (fragCont Config.std data s))

/-- `FRAG.START` (R123, R124). -/
def execFragStart (data : List Byte) (ts : Timestamp) (s : State) : Host.Outcome State Fault Refusal :=
  betweenTransactions s (fragStart Config.std data ts s)

end Sys2Proof.Machine
end

