-- ==== Sys2Proof/Machine/Dispatch.lean ====
section
/-! DEFINITION. The meaning of every instruction, one arm per constructor of `Instr`. -/

namespace Sys2Proof.Machine

open Sys2Proof

def exec (i : Instr) (s : State) : Host.Outcome State Fault Refusal :=
  match i with
  | .reset => Sys2Proof.Machine.execReset s
  | .fragCont data ts => Sys2Proof.Machine.execFragCont data ts s
  | .fragStart data ts => Sys2Proof.Machine.execFragStart data ts s
  | .unitTtx low => Sys2Proof.Machine.execUnitTtx low s
  | .unitUnknown did => Sys2Proof.Machine.execUnitUnknown did s
  | .recLine second body => Sys2Proof.Machine.execRecLine second body s
  | .recFill body => Sys2Proof.Machine.execRecFill body s
  | .recUnk t body => Sys2Proof.Machine.execRecUnk t body s
  | .lineFramed low magByte packByte body => Sys2Proof.Machine.execLineFramed low magByte packByte body s
  | .lineBadframe lineByte syncByte rest => Sys2Proof.Machine.execLineBadframe lineByte syncByte rest s
  | .pktHdr m body => Sys2Proof.Machine.execPktHdr m body s
  | .pktRow k m body => Sys2Proof.Machine.execPktRow k m body s
  | .pktExt k m body => Sys2Proof.Machine.execPktExt k m body s
  | .pktAddrErr magByte packByte body => Sys2Proof.Machine.execPktAddrErr magByte packByte body s
  | .h84 v => Sys2Proof.Machine.execH84 v s
  | .h84Invalid b => Sys2Proof.Machine.execH84Invalid b s
  | .par c => Sys2Proof.Machine.execPar c s
  | .parInvalid b => Sys2Proof.Machine.execParInvalid b s
  | .hostReadCounter n => Sys2Proof.Machine.execHostReadCounter n s
  | .hostSetCurrentPage n => Sys2Proof.Machine.execHostSetCurrentPage n s
  | .hostDeactivate r => Sys2Proof.Machine.execHostDeactivate r s
  | .hostPages => Sys2Proof.Machine.execHostPages s
  | .hostOnPageCompleted p => Sys2Proof.Machine.execHostOnPageCompleted p s

end Sys2Proof.Machine
end

