-- ==== Sys2Proof/Machine/Fetch.lean ====
section
/-!
DEFINITION. What the pipeline takes next (R6, R7, R25): between transactions the oldest offered input; while a unit is
analysed the element of the format that stands at the scan pointer.
-/

namespace Sys2Proof.Machine

open Sys2Proof

/-- What a step finds. -/
inductive Fetched where
  /-- Nothing is offered: the block is idle and holds its state (R230). -/
  | idle
  /-- The scan pointer is at the end of the payload (R141). -/
  | ended
  /-- A record whose header or body the payload does not hold (R142, R143). -/
  | badLength
  /-- An instruction as it is stored, and how many bytes it takes. -/
  | word (e : Encoded) (n : Nat)
  /-- An address that holds no byte was read. -/
  | missing (a n : Nat)
deriving DecidableEq, Repr

/-- The `n` bytes at `pos`, an instruction of format `l`. -/
def fetchBytes (l : Level) (m : Memory) (pos n : Nat) : Fetched :=
  match m.readBytes pos n with
  | some bytes => .word (.word l bytes) n
  | none => .missing pos n

/-- The next element of a scan. -/
def fetchScan (m : Memory) (sc : Scan) : Fetched :=
  match sc.level with
  | .unit => fetchBytes .unit m sc.pos 1
  | .record =>
    match fetchRecord m sc.pos sc.stop with
    | .ended => .ended
    | .badLength => .badLength
    | .found t n body => .word (.word .record (t :: n :: body)) (2 + n.toNat)
    | .missing a n => .missing a n
  | .line => fetchBytes .line m sc.pos Config.lineLen
  | .packet => fetchBytes .packet m sc.pos 42
  | .ham84 => if sc.stop ≤ sc.pos then .ended else fetchBytes .ham84 m sc.pos 1
  | .oddpar => if sc.stop ≤ sc.pos then .ended else fetchBytes .oddpar m sc.pos 1

/-- What the machine takes next. -/
def fetch (s : State) : Fetched :=
  match s.scan with
  | some sc => fetchScan s.buf sc
  | none =>
    match s.inputs with
    | [] => .idle
    | x :: _ => .word (.port x) 0

/-- An input that was fetched is taken from the queue; bytes of the accumulator stay where they are. -/
def State.take (s : State) : State :=
  match s.scan with
  | some _ => s
  | none => { s with inputs := s.inputs.tail }

/-- `BUF` holding exactly `bytes`. -/
def Memory.ofBytes (bytes : List Byte) : Memory := Memory.empty.append none bytes

/-- The nine bytes before the data identifier of a ten-byte unit with no header extension (R72). -/
def unitPrefix : List Byte := [0#8, 0#8, 0#8, 0#8, 0#8, 4#8, 0#8, 0#8, 0#8]

/-- Store an instruction where the next step fetches: at the head of the input queue, or in `BUF` under the scan
pointer (a data identifier inside a unit of ten bytes). Log entry 3. -/
def State.place (s : State) (e : Encoded) : State :=
  match e with
  | .port x => { s with scan := none, inputs := x :: s.inputs }
  | .word .unit bytes =>
    { s with
      buf := Memory.ofBytes (unitPrefix ++ bytes)
      scan := some { level := .unit, pos := Config.didOff, stop := Config.didOff + bytes.length } }
  | .word l bytes =>
    { s with
      buf := Memory.ofBytes bytes
      scan := some { level := l, pos := 0, stop := bytes.length } }

end Sys2Proof.Machine
end

