-- ==== Sys2Proof/Machine/Step.lean ====
section
/-!
DEFINITION. One step (R6): between transactions one input, run to completion; while a unit is under analysis (which no
state between transactions is) one element of the scan. `fetch`, `exec`, then the scan pointer moves on (R147).
-/

namespace Sys2Proof.Machine

open Sys2Proof

/-- One step of the machine. -/
def step (s : State) : Host.Outcome State Fault Refusal :=
  match fetch s with
  | .idle => .next s
  | .ended => .next s.endScan
  | .badLength => .next (s.raiseAndEnd Config.std .badLineLength)
  | .missing a n => .fault (.noSuchAddress a n)
  | .word e n =>
    match decode e with
    | .error _ => .refused .undecodable
    | .ok i => andThen (exec i s.take) fun t => .next (t.advance n)

/-- `s` with the instruction of a bare opcode-table word stored where `step` fetches next. Log entries 2 and 3. -/
def State.withFetchWord (s : State) (nbits w : Nat) : State := s.place (tableEncoded nbits w)

end Sys2Proof.Machine
end

