-- ==== Sys2Proof/Safety.lean ====
section
/-!
DEFINITION. What a good state is, in the terms statements use: the invariants of R35, the block of R20 as one value,
and what is visible of the pipeline apart from its consumer.
-/

namespace Sys2Proof.Machine

open Sys2Proof

/-- The complete state of the block between two transactions (R20). -/
structure Block where
  mode : RsMode
  ts : Timestamp
  buf : Memory
  slot : Vector (Option Page) 8
  cnt : Vector Nat 8
deriving DecidableEq, Repr

/-- The block's part of a state (R20). -/
def State.block (s : State) : Block := { mode := s.mode, ts := s.ts, buf := s.buf, slot := s.slot, cnt := s.cnt }

/-- A slot's content is nothing or a page of the slot's own magazine in the ranges of R27 (R35 a to d). -/
def slotOk (m : Mag) (v : Option Page) : Bool :=
  match v with
  | none => true
  | some p => decide (p.magazine = m) && p.wf

/-- Every slot's content is as R35 a to d say. -/
def State.SlotsWf (s : State) : Prop := ∀ m : Mag, slotOk m (s.slotAt m) = true

/-- The accumulator is in canonical form and holds every appended byte (R23, R51). -/
def State.BufWf (s : State) : Prop := s.buf.wf = true ∧ s.buf.complete = true

/-- The scan stays inside the unit: `pos <= end` and `end <= BUF.len` at every format (R25, R150), and a format of fixed
length lies inside it (R126, R160). -/
def scanInside (len : Nat) (sc : Scan) : Bool :=
  decide (sc.stop ≤ len) && decide (sc.pos ≤ sc.stop) &&
  match sc.level with
  | .unit => decide (sc.pos < sc.stop)
  | .record => true
  | .line => decide (sc.pos + Config.lineLen ≤ sc.stop)
  | .packet => decide (sc.pos + 42 ≤ sc.stop)
  | .ham84 => true
  | .oddpar => true

/-- The scan pointer, where there is one, is inside the unit. -/
def State.ScanWf (s : State) : Prop := s.scan.all (scanInside s.buf.len) = true

/-- Every event of the last transaction carries a page in the ranges of R27, and the counters were readable at each
(R250). -/
def State.OutWf (s : State) : Prop := s.out.all Page.wf = true ∧ s.eventCounters.length = s.out.length

/-- A cache entry lies under its page's own number. -/
def cacheEntryOk (x : Nat × Page) : Bool := decide (x.2.page = x.1) && x.2.wf

/-- The cache holds at most one page per page number, under its own number (R197). -/
def PageManager.CacheWf (h : PageManager) : Prop := assocSorted h.cache = true ∧ h.cache.all cacheEntryOk = true

/-- Every offered input is a well-formed instruction. -/
def State.InputsWf (s : State) : Prop := s.inputs.all (fun x => (decodeInput x).wf) = true

/-- The invariant of R35 with the canonical forms the model adds. -/
structure State.Inv (s : State) : Prop where
  bufWf : s.BufWf
  slotsWf : s.SlotsWf
  scanWf : s.ScanWf
  outWf : s.OutWf
  cacheWf : s.host.CacheWf
  inputsWf : s.InputsWf

/-- Between transactions (R20, R25) there is no scan pointer, and `SYNC` holds only while no `FRAG.START` has come
since reset (R133): the block is then as reset leaves it. -/
def State.BetweenTransactions (s : State) : Prop :=
  s.scan = none ∧ (s.mode = .sync → s.block = State.reset.block)

/-- A state with another consumer behind the output port. -/
def State.withHost (s : State) (h : PageManager) : State := { s with host := h }

/-- A state with other counter values. -/
def State.withCounters (s : State) (c : Vector Nat 8) : State := { s with cnt := c }

/-- Where an instruction of each format can be taken: a transaction between transactions (R6, U2), a data identifier
while the scan pointer is on one (R131); any other instruction anywhere. -/
def ready (i : Instr) (s : State) : Bool :=
  match i with
  | .reset => s.scan.isNone
  | .fragCont _ _ => s.scan.isNone
  | .fragStart _ _ => s.scan.isNone
  | .unitTtx _ => s.scan.any fun sc => decide (sc.level = .unit)
  | .unitUnknown _ => true
  | .recLine _ _ => true
  | .recFill _ => true
  | .recUnk _ _ => true
  | .lineFramed _ _ _ _ => true
  | .lineBadframe _ _ _ => true
  | .pktHdr _ _ => true
  | .pktRow _ _ _ => true
  | .pktExt _ _ _ => true
  | .pktAddrErr _ _ _ => true
  | .h84 _ => true
  | .h84Invalid _ => true
  | .par _ => true
  | .parInvalid _ => true
  | .hostReadCounter _ => true
  | .hostSetCurrentPage _ => true
  | .hostDeactivate _ => true
  | .hostPages => true
  | .hostOnPageCompleted _ => true

end Sys2Proof.Machine
end

