-- ==== Sys2Proof/Certificates/Slice0/Obligations.lean ====
section
/-!
DEFINITION. The statements for the provers. They come from the numbered rules of the spec; each docstring names the
rule or the log entry it rests on. A result statement is an equation `exec i s = .next t`: it says that the instruction
completes, what it writes, and, because `t` is `s` with exactly the named fields replaced, its whole frame: every other
slot, counter, byte of `BUF` and field is as before.
-/

open Sys2Proof Sys2Proof.Machine

/-! ### Words the statements share -/

namespace Sys2Proof.Claims

/-- How many one bits a byte has. -/
def ones (b : Byte) : Nat := (List.range 8).countP fun i => b.getLsbD i

/-- All bytes. -/
def allBytes : List Byte := (List.range 256).map fun n => BitVec.ofNat 8 n

/-- The full table under R108, row by row; 255 stands for the dash. -/
def oddparTable : List Nat :=
  [255, 0, 64, 255, 32, 255, 255, 96, 16, 255, 255, 80, 255, 48, 112, 255] ++
  [8, 255, 255, 72, 255, 40, 104, 255, 255, 24, 88, 255, 56, 255, 255, 120] ++
  [4, 255, 255, 68, 255, 36, 100, 255, 255, 20, 84, 255, 52, 255, 255, 116] ++
  [255, 12, 76, 255, 44, 255, 255, 108, 28, 255, 255, 92, 255, 60, 124, 255] ++
  [2, 255, 255, 66, 255, 34, 98, 255, 255, 18, 82, 255, 50, 255, 255, 114] ++
  [255, 10, 74, 255, 42, 255, 255, 106, 26, 255, 255, 90, 255, 58, 122, 255] ++
  [255, 6, 70, 255, 38, 255, 255, 102, 22, 255, 255, 86, 255, 54, 118, 255] ++
  [14, 255, 255, 78, 255, 46, 110, 255, 255, 30, 94, 255, 62, 255, 255, 126] ++
  [1, 255, 255, 65, 255, 33, 97, 255, 255, 17, 81, 255, 49, 255, 255, 113] ++
  [255, 9, 73, 255, 41, 255, 255, 105, 25, 255, 255, 89, 255, 57, 121, 255] ++
  [255, 5, 69, 255, 37, 255, 255, 101, 21, 255, 255, 85, 255, 53, 117, 255] ++
  [13, 255, 255, 77, 255, 45, 109, 255, 255, 29, 93, 255, 61, 255, 255, 125] ++
  [255, 3, 67, 255, 35, 255, 255, 99, 19, 255, 255, 83, 255, 51, 115, 255] ++
  [11, 255, 255, 75, 255, 43, 107, 255, 255, 27, 91, 255, 59, 255, 255, 123] ++
  [7, 255, 255, 71, 255, 39, 103, 255, 255, 23, 87, 255, 55, 255, 255, 119] ++
  [255, 15, 79, 255, 47, 255, 255, 111, 31, 255, 255, 95, 255, 63, 127, 255]

/-- The counters with one more event of `d` (R212). -/
def counted (d : Diag) (s : State) : Vector Nat 8 :=
  s.cnt.set d.code.val (s.counter d.code + 1) d.code.isLt

/-- The consumer at the start of a step: the callbacks of an earlier step are past (log entry 5). -/
def quiet (h : PageManager) : PageManager := { h with calls := [] }

/-- `BUF` holding exactly `data`, `data[0]` at address 0 (R50). -/
def holding (data : List Byte) : Memory := { len := data.length, cells := (List.range data.length).zip data }

/-- The four unit checks of R126 at `BUF` in the spec's own order: the diagnostic of the first that fails. -/
def UnitFails (m : Memory) : Diag → Prop
  | .bufferTooSmall => m.len < 9
  | .pesLengthMismatch => 9 ≤ m.len ∧ ∃ hi lo, m.read 4 = some hi ∧ m.read 5 = some lo ∧
      hi.toNat * 256 + lo.toNat ≠ m.len - 6
  | .headerOverrun => 9 ≤ m.len ∧ ∃ hi lo hl, m.read 4 = some hi ∧ m.read 5 = some lo ∧
      hi.toNat * 256 + lo.toNat = m.len - 6 ∧ m.read 8 = some hl ∧ m.len ≤ 9 + hl.toNat
  | .unknownDataId => 9 ≤ m.len ∧ ∃ hi lo hl did, m.read 4 = some hi ∧ m.read 5 = some lo ∧
      hi.toNat * 256 + lo.toNat = m.len - 6 ∧ m.read 8 = some hl ∧ 9 + hl.toNat < m.len ∧
      m.read (9 + hl.toNat) = some did ∧ (did.toNat < 0x10 ∨ 0x1F < did.toNat)
  | .badLineLength => False
  | .badFraming => False
  | .unknownLineType => False
  | .codeError => False

/-- `BUF` passes the four checks, with the data identifier at address `q` (R131). -/
def UnitPasses (m : Memory) (q : Nat) : Prop :=
  9 ≤ m.len ∧ ∃ hi lo hl did, m.read 4 = some hi ∧ m.read 5 = some lo ∧
    hi.toNat * 256 + lo.toNat = m.len - 6 ∧ m.read 8 = some hl ∧ q = 9 + hl.toNat ∧ q < m.len ∧
    m.read q = some did ∧ 0x10 ≤ did.toNat ∧ did.toNat ≤ 0x1F

/-- The state the analysis of a unit starts from, with the scan pointer on the data identifier at `q`. -/
def onDataId (q : Nat) (s : State) : State :=
  { s with
    out := []
    eventCounters := []
    host := quiet s.host
    scan := some { level := .unit, pos := q, stop := s.buf.len } }

/-- The fields of a header packet as code words, in the order of R80. -/
def headerCodes (f : HeaderFields) : List Byte :=
  [hamCode f.units, hamCode f.tens, hamCode f.s1, hamCode f.s2c4, hamCode f.s3, hamCode f.s4c5c6,
    hamCode f.c7_10, hamCode f.c11_14]

/-- What step 1 of `PKT.HDR` leaves (R166): the page held for the magazine, if any, is the last event and the slot is
empty. -/
def Closed (m : Mag) (s t : State) : Prop :=
  (s.slotAt m = none ∧ t = s) ∨
  ∃ p, s.slotAt m = some p ∧
    t = { s with
      out := s.out ++ [p]
      eventCounters := s.eventCounters ++ [s.cnt]
      host := s.host.pageCompleted p
      slot := s.slot.set m.toNat none m.isLt }

/-- Continuation fragments, one transaction after another. -/
def continueWith : List (List Byte × Timestamp) → State → Host.Outcome State Fault Refusal
  | [], s => .next s
  | (data, ts) :: rest, s => andThen (exec (.fragCont data ts) s) (continueWith rest)

end Sys2Proof.Claims

open Sys2Proof.Claims

/-! ### Code tables -/

/-- R105: exactly 16 entries of `HAM84` are valid, the other 240 are the sentinel, and the 16 code words are distinct. -/
def Obligations.HamSixteenValidEntries : Prop :=
  (allBytes.filter fun b => ham84 b ≠ 255#8).length = 16 ∧
  (allBytes.filter fun b => ham84 b = 255#8).length = 240 ∧
  (∀ b, (∀ v, hamCode v ≠ b) → ham84 b = 255#8) ∧
  ∀ v w, hamCode v = hamCode w → v = w

/-- R103, R104, R111: the sixteen code words in order, the value of each, the bits of a value in its code word. -/
def Obligations.HamTableContents : Prop :=
  (List.range 16).map (fun n => (hamCode (BitVec.ofNat 4 n)).toNat) =
    [0xA8, 0x40, 0x92, 0x7A, 0x26, 0xCE, 0x1C, 0xF4, 0x0B, 0xE3, 0x31, 0xD9, 0x85, 0x6D, 0xBF, 0x57] ∧
  ∀ v : Nibble, (ham84 (hamCode v)).toNat = v.toNat ∧
    (hamCode v).getLsbD 6 = v.getLsbD 0 ∧ (hamCode v).getLsbD 4 = v.getLsbD 1 ∧
    (hamCode v).getLsbD 2 = v.getLsbD 2 ∧ (hamCode v).getLsbD 0 = v.getLsbD 3

/-- R106: what errors `HAM84` detects. One, two or three inverted bits, and any odd number of them, are always
detected; of the 70 four-bit patterns exactly 14 per code word decode to another value. -/
def Obligations.HamDetectionStrength : Prop :=
  (∀ v, ones (hamCode v) % 2 = 1) ∧
  (∀ v w, v ≠ w → 4 ≤ ones (hamCode v ^^^ hamCode w)) ∧
  (∀ v e, ones e = 1 ∨ ones e = 2 ∨ ones e = 3 ∨ ones e % 2 = 1 → ham84 (hamCode v ^^^ e) = 255#8) ∧
  (allBytes.filter fun e => ones e = 4).length = 70 ∧
  (∀ v, (allBytes.filter fun e => ones e = 4 ∧ ham84 (hamCode v ^^^ e) ≠ 255#8).length = 14) ∧
  (∀ v e, ones e = 4 → ham84 (hamCode v ^^^ e) ≠ 255#8 → ham84 (hamCode v ^^^ e) ≠ v.setWidth 8) ∧
  ham84 (0xA8#8 ^^^ 0b00010111#8) = 14#8

/-- R108: closed form and full contents of `ODDPAR`, and what it detects. -/
def Obligations.OddParityClosedForm : Prop :=
  (∀ b, oddpar b ≠ 255#8 ↔ ones b % 2 = 1) ∧
  (∀ b, oddpar b ≠ 255#8 → (oddpar b).toNat =
    (b.getLsbD 7).toNat + (b.getLsbD 6).toNat * 2 + (b.getLsbD 5).toNat * 4 + (b.getLsbD 4).toNat * 8 +
      (b.getLsbD 3).toNat * 16 + (b.getLsbD 2).toNat * 32 + (b.getLsbD 1).toNat * 64) ∧
  (allBytes.filter fun b => oddpar b ≠ 255#8).length = 128 ∧
  (allBytes.filter fun b => oddpar b = 255#8).length = 128 ∧
  (∀ b e, oddpar b ≠ 255#8 → ones e = 1 → oddpar (b ^^^ e) = 255#8) ∧
  (∀ b e, oddpar b ≠ 255#8 → ones e = 2 → oddpar (b ^^^ e) ≠ 255#8) ∧
  allBytes.map (fun b => (oddpar b).toNat) = oddparTable

/-- R102: the sentinel cannot be mistaken for data. -/
def Obligations.SentinelIsNoData : Prop :=
  (∀ b, ham84 b = 255#8 ∨ (ham84 b).toNat ≤ 15) ∧ (∃ b, ham84 b = 15#8) ∧
  (∀ b, oddpar b = 255#8 ∨ (oddpar b).toNat ≤ 127) ∧ (∃ b, oddpar b = 127#8)

/-- R109: every byte `HAM84` accepts `ODDPAR` accepts, every byte `ODDPAR` rejects `HAM84` rejects, 112 bytes are
accepted by `ODDPAR` alone, and which table applies is decided by the position. -/
def Obligations.TablesCompared : Prop :=
  (∀ b, ham84 b ≠ 255#8 → oddpar b ≠ 255#8) ∧ (∀ b, oddpar b = 255#8 → ham84 b = 255#8) ∧
  (allBytes.filter fun b => oddpar b ≠ 255#8 ∧ ham84 b = 255#8).length = 112 ∧
  ∀ v : Nibble, decode (.word .ham84 [hamCode v]) = .ok (.h84 v) ∧
    ∃ c, decode (.word .oddpar [hamCode v]) = .ok (.par c)

/-- R110: the round trips `HAM84(H(v)) = v` and `ODDPAR(P(c)) = c`. -/
def Obligations.EncodersRoundTrip : Prop :=
  (∀ v : Nibble, ham84 (hamCode v) = v.setWidth 8) ∧ ∀ c : Char7, oddpar (parCode c) = c.setWidth 8

/-- R100, R101: a look-up executed on its own answers the table's entry on the model's output field (log entry 5) and
changes nothing else: the value of a code word, 255 for any other byte. -/
def Obligations.LookupResults : Prop :=
  ∀ s : State,
    (∀ v : Nibble, exec (.h84 v) s = .next { s with lookup := v.setWidth 8 }) ∧
    (∀ c : Char7, exec (.par c) s = .next { s with lookup := c.setWidth 8 }) ∧
    (∀ b, (Instr.h84Invalid b).wf = true → exec (.h84Invalid b) s = .next { s with lookup := 255#8 }) ∧
    (∀ b, (Instr.parInvalid b).wf = true → exec (.parInvalid b) s = .next { s with lookup := 255#8 })

/-! ### Encoding -/

/-- Decoding the encoding of a well-formed instruction gives it back, for every operand. -/
def Obligations.DecodeOfEncode : Prop := ∀ i : Instr, i.wf = true → decode (encode i) = .ok i

/-- Encoding what was decoded gives the word back, and what is decoded from bytes is well formed: every word has one
meaning. -/
def Obligations.EncodeOfDecode : Prop :=
  ∀ e i, decode e = .ok i → encode i = e ∧ ((∃ l bytes, e = .word l bytes) → i.wf = true)

/-- R84, R70: the block has no encoding that traps. Bytes of a format's length always decode. -/
def Obligations.EveryWordDecodes : Prop :=
  (∀ did, ∃ i, decode (.word .unit [did]) = .ok i) ∧
  (∀ t n body, body.length = n.toNat → ∃ i, decode (.word .record (t :: n :: body)) = .ok i) ∧
  (∀ bytes, bytes.length = 44 → ∃ i, decode (.word .line bytes) = .ok i) ∧
  (∀ bytes, bytes.length = 42 → ∃ i, decode (.word .packet bytes) = .ok i) ∧
  (∀ b, ∃ i, decode (.word .ham84 [b]) = .ok i) ∧ (∀ b, ∃ i, decode (.word .oddpar [b]) = .ok i) ∧
  ∀ x, ∃ i, decode (.port x) = .ok i

/-- R78: magazine and packet number from the two decoded address nibbles, by the formulas and bit by bit. -/
def Obligations.AddressAssembly : Prop :=
  ∀ magRaw packRaw : Nibble,
    decodeAddress (hamCode magRaw) (hamCode packRaw) = packetKind (packetOf magRaw packRaw) (magOf magRaw) ∧
    (magOf magRaw).toNat = magRaw.toNat &&& 7 ∧
    (packetOf magRaw packRaw).toNat = (magRaw.toNat >>> 3) ||| (packRaw.toNat <<< 1) ∧
    (magOf magRaw).getLsbD 0 = (hamCode magRaw).getLsbD 6 ∧
    (magOf magRaw).getLsbD 1 = (hamCode magRaw).getLsbD 4 ∧
    (magOf magRaw).getLsbD 2 = (hamCode magRaw).getLsbD 2 ∧
    (packetOf magRaw packRaw).getLsbD 0 = (hamCode magRaw).getLsbD 0 ∧
    (packetOf magRaw packRaw).getLsbD 1 = (hamCode packRaw).getLsbD 6 ∧
    (packetOf magRaw packRaw).getLsbD 2 = (hamCode packRaw).getLsbD 4 ∧
    (packetOf magRaw packRaw).getLsbD 3 = (hamCode packRaw).getLsbD 2 ∧
    (packetOf magRaw packRaw).getLsbD 4 = (hamCode packRaw).getLsbD 0

/-- A few words written out from the encodings of R73, R75, R76 and T40 decode to the instruction they stand for. -/
def Obligations.WrittenWordsDecode : Prop :=
  decode (.word .unit [0x1F#8]) = .ok (.unitTtx 15#4) ∧
  decode (.word .unit [0x20#8]) = .ok (.unitUnknown 0x20#8) ∧
  decode (.word .record [0xFF#8, 2#8, 0xFF#8, 0xFF#8]) = .ok (.recFill [0xFF#8, 0xFF#8]) ∧
  decode (.word .record [0x01#8, 3#8, 0xAA#8, 0xBB#8, 0xCC#8]) = .ok (.recUnk 1#8 [0xAA#8, 0xBB#8, 0xCC#8]) ∧
  decode (.word .record [0x03#8, 1#8, 0#8]) = .ok (.recLine true [0#8]) ∧
  decodeAddress 0x40#8 0xA8#8 = .hdr 1#3 ∧ decodeAddress 0xE3#8 0xA8#8 = .row 1#5 1#3 ∧
  decodeAddress 0x0B#8 0x85#8 = .row 25#5 0#3 ∧ decodeAddress 0x92#8 0x6D#8 = .ext 26#5 2#3 ∧
  decodeAddress 0x57#8 0x57#8 = .ext 31#5 7#3 ∧ decodeAddress 0x27#8 0x40#8 = .addrErr

/-! ### The accumulator -/

/-- R51, R50: `Append` keeps every earlier byte, puts `data[i]` at address `len + i`, and no address beyond the new
length holds a byte. -/
def Obligations.AppendThenRead : Prop :=
  ∀ (m : Memory) (data : List Byte), m.wf = true → m.complete = true →
    (m.append none data).len = m.len + data.length ∧
    (∀ a, a < m.len → (m.append none data).read a = m.read a) ∧
    (∀ i (h : i < data.length), (m.append none data).read (m.len + i) = some data[i]) ∧
    ∀ a, m.len + data.length ≤ a → (m.append none data).read a = none

/-- R52: an accumulator of at least 65541 bytes cannot be told from an unbounded one. From states that agree but for
the bytes it does not store, `FRAG.START` and `FRAG.CONT` lead to such states again, with the same slots, counters
and events. The capacity rule is the spec's decision D7 (log entry 15). -/
def Obligations.FiniteAccumulatorUnobservable : Prop :=
  ∀ (c : Nat) (data : List Byte) (ts : Timestamp) (s : State), 65541 ≤ c → s.BufWf →
    (∀ t, fragStart Config.std data ts s = .next t →
      fragStart { bufCap := some c, cntWidth := none } data ts { s with buf := s.buf.capped c } =
        .next { t with buf := t.buf.capped c }) ∧
    fragCont { bufCap := some c, cntWidth := none } data { s with buf := s.buf.capped c } =
      { fragCont Config.std data s with buf := (fragCont Config.std data s).buf.capped c }

/-- R38: a counter of finite width is held at its maximum instead of wrapping, and never falls. That it saturates is the
spec's decision D11 (log entry 15). -/
def Obligations.FiniteCounterSaturates : Prop :=
  ∀ (cap : Option Nat) (w n : Nat), n ≤ 2 ^ w - 1 →
    bump { bufCap := cap, cntWidth := some w } n = (if n = 2 ^ w - 1 then n else n + 1) ∧
    n ≤ bump { bufCap := cap, cntWidth := some w } n ∧
    bump { bufCap := cap, cntWidth := some w } n ≤ 2 ^ w - 1

/-! ### Transactions -/

/-- R240, R34: what `RESET` leaves, and that a second one changes nothing. The Page Manager's cache, watch and
enable and the inputs still offered are as before. That the block has a reset, and its values, are the spec's
decisions D26 and D3 (log entry 15); `eventCounters` is the model's own (log entry 7). -/
def Obligations.ResetLeaves : Prop :=
  ∀ s : State, s.scan = none →
    ∃ t, exec .reset s = .next t ∧
      t.mode = .sync ∧ t.ts.toInt = -1 ∧ t.buf.len = 0 ∧ (∀ a, t.buf.read a = none) ∧
      (∀ m, t.slotAt m = none) ∧ (∀ i, t.counter i = 0) ∧ t.out = [] ∧ t.eventCounters = [] ∧ t.scan = none ∧
      t.host = quiet s.host ∧ t.inputs = s.inputs ∧ t.lookup = s.lookup ∧ t.counterPort = s.counterPort ∧
      exec .reset t = .next t

/-- R121, R122: `FRAG.CONT` appends while filling and drops its bytes while synchronizing; its timestamp is ignored,
no event and no count comes of it. That dropped bytes are not counted is decision D27; `quiet` is log entry 5. -/
def Obligations.FragContResult : Prop :=
  ∀ (data : List Byte) (ts : Timestamp) (s : State), s.scan = none →
    exec (.fragCont data ts) s = .next
      { s with
        buf := if s.mode = .fill then s.buf.append none data else s.buf
        out := []
        eventCounters := []
        host := quiet s.host }

/-- R123: `FRAG.START` while synchronizing starts a unit and analyses nothing. That bytes and timestamp are the
fragment's own is decisions D4 and D5. -/
def Obligations.FragStartWhileSync : Prop :=
  ∀ (data : List Byte) (ts : Timestamp) (s : State), s.scan = none → s.mode = .sync →
    exec (.fragStart data ts) s = .next
      { s with
        mode := .fill
        ts := ts
        buf := holding data
        out := []
        eventCounters := []
        host := quiet s.host }

/-- R127 to R130, R132, R212, R217: while filling, the first unit check that fails is counted, once; nothing else of
the old unit has any effect, and the new unit begins. The boundary `q = len` and the end in `FILL` are the spec's
decisions D8 and D6, the new unit's bytes and timestamp D4 and D5 (log entry 15). -/
def Obligations.FailedUnitOnlyCounts : Prop :=
  ∀ (data : List Byte) (ts : Timestamp) (s : State) (d : Diag), s.scan = none → s.mode = .fill →
    UnitFails s.buf d →
    exec (.fragStart data ts) s = .next
      { s with
        mode := .fill
        ts := ts
        buf := holding data
        cnt := counted d s
        out := []
        eventCounters := []
        host := quiet s.host }

/-- R126: the checks are complete. A unit of a complete accumulator fails exactly one of them, or passes them all. That a
header which exactly fills the unit fails is the spec's decision D8 (log entry 15). -/
def Obligations.UnitChecksDecide : Prop :=
  ∀ m : Memory, m.wf = true → m.complete = true →
    ((∃ d, UnitFails m d) ∨ ∃ q, UnitPasses m q) ∧
    (∀ d d', UnitFails m d → UnitFails m d' → d = d') ∧ ∀ d q, UnitFails m d → ¬ UnitPasses m q

/-- R124, R131: while filling, a unit that passes the checks is scanned by `UNIT.TTX`, with the old timestamp and the
old bytes; then the new unit begins. Its bytes and its timestamp are the fragment's own by the spec's decisions D4 and D5
(log entry 15). -/
def Obligations.PassingUnitIsScanned : Prop :=
  ∀ (data : List Byte) (ts : Timestamp) (s : State) (q : Nat) (low : Nibble), s.scan = none → s.mode = .fill →
    s.BufWf → UnitPasses s.buf q →
    ∃ t, exec (.unitTtx low) (onDataId q s) = .next t ∧ t.scan = none ∧ t.ts = s.ts ∧ t.buf = s.buf ∧
      exec (.fragStart data ts) s = .next { t with mode := .fill, ts := ts, buf := holding data }

/-- R35 f, R133: after any `FRAG.START` the block is filling, holds the fragment's bytes and timestamp, and no scan is
live. The bytes and the timestamp are the spec's decisions D4 and D5, the mode after a structural diagnostic is D6 (log
entry 15). -/
def Obligations.FragStartEndsFilling : Prop :=
  ∀ (data : List Byte) (ts : Timestamp) (s t : State), exec (.fragStart data ts) s = .next t →
    t.mode = .fill ∧ t.ts = ts ∧ t.buf = holding data ∧ t.scan = none ∧ t.inputs = s.inputs

/-- R132, property 5 of the source: after a unit that fails a check, the next unit decodes exactly as if the corrupt
one had never been sent. The same transaction issued while synchronizing leads to the same state but for the counter.
That the triggering fragment is itself the awaited start is the spec's decision D6 (conflict C5, log entry 15). -/
def Obligations.ResynchronizationIdempotent : Prop :=
  ∀ (data : List Byte) (ts : Timestamp) (s t u : State) (d : Diag), s.scan = none → s.mode = .fill →
    UnitFails s.buf d → exec (.fragStart data ts) s = .next t →
    exec (.fragStart data ts) { s with mode := .sync, buf := Memory.empty } = .next u →
    t.withCounters u.cnt = u ∧ ∀ i, t.counter i = if i = d.code then u.counter i + 1 else u.counter i

/-- R136: a unit delivered in any number of fragments leads to the same state and the same events as the unit in one
fragment. The counters readable at each of those events (R250, decision D23) are the same too; their field is log entry
7. That a later fragment's timestamp is ignored is the spec's decision D4 (log entry 15). -/
def Obligations.FragmentationInvariance : Prop :=
  ∀ (data : List Byte) (rest : List (List Byte × Timestamp)) (ts : Timestamp) (s t u v : State),
    exec (.fragStart data ts) s = .next t → continueWith rest t = .next u →
    exec (.fragStart (data ++ (rest.map (fun x => x.1)).flatten) ts) s = .next v →
    u.block = v.block ∧ t.out = v.out ∧ t.eventCounters = v.eventCounters ∧ u.scan = v.scan ∧ u.inputs = v.inputs ∧
      quiet u.host = quiet v.host

/-- U2 of 93_implementation_defined.md: a transaction issued while a unit is under analysis is refused. The refusal
is the treatment the spec asks for (log entry 11). -/
def Obligations.ReentryRefused : Prop :=
  ∀ (data : List Byte) (ts : Timestamp) (s : State) (sc : Scan), s.scan = some sc →
    exec .reset s = .refused .reentrant ∧ exec (.fragCont data ts) s = .refused .reentrant ∧
    exec (.fragStart data ts) s = .refused .reentrant

/-! ### Units and records -/

/-- R130, R212, R213: an unknown data identifier is counted, ends the scan and re-arms synchronization. R162, R214:
a badly framed line counts `BadFraming` once and ends the scan; the mode is not written. That the mode is not
written is the spec's decision D22. -/
def Obligations.ScanEndingDiagnostics : Prop :=
  ∀ (did lineByte syncByte : Byte) (rest : List Byte) (s : State),
    exec (.unitUnknown did) s = .next
      { s with cnt := counted .unknownDataId s, mode := .sync, scan := none } ∧
    exec (.lineBadframe lineByte syncByte rest) s = .next { s with cnt := counted .badFraming s, scan := none }

/-- R131, R149, R150: `UNIT.TTX` completes, and is the run of single record steps from the byte after the data
identifier until the scan has ended, at most one step per two bytes of payload and one more. Single record steps are
the model's choice, log entry 10; R6 makes a step a whole transaction. -/
def Obligations.UnitScanIsRecordSteps : Prop :=
  ∀ (low : Nibble) (s : State) (sc : Scan), s.BufWf → s.scan = some sc → sc.stop ≤ s.buf.len →
    ∃ t n, exec (.unitTtx low) s = .next t ∧ t.scan = none ∧ n ≤ (sc.stop - (sc.pos + 1)) / 2 + 1 ∧
      Host.Core.run Sys2Proof.core n (s.setScan .record (sc.pos + 1) sc.stop) = .next t

/-- R61, R36, R126: the scan of a unit reads `BUF` and `RS.ts` and writes neither; it takes no input. -/
def Obligations.ScanWritesNoBuffer : Prop :=
  ∀ (low : Nibble) (s t : State), exec (.unitTtx low) s = .next t →
    t.buf = s.buf ∧ t.ts = s.ts ∧ t.inputs = s.inputs ∧ t.lookup = s.lookup ∧ t.counterPort = s.counterPort ∧
      t.scan = none

/-- R193, R191, R198, R203: the events of a scan join `OUT` in order and reach the Page Manager in that order, each
one whole page; nothing else reaches it. R250: at each event the counters can be read; what is read has at least what
stood before the scan and what earlier events showed, and at most what stands after it. That the Page Manager handles
an event at the point of emission, with nothing of another thread in between, is log entry 7; that the consumer sees the
counters of that moment is the spec's decision D23. -/
def Obligations.ScanEventsReachConsumer : Prop :=
  ∀ (low : Nibble) (s t : State), s.Inv → exec (.unitTtx low) s = .next t →
    ∃ events, t.out = s.out ++ events ∧ (∀ p ∈ events, p.wf = true) ∧
      t.host = events.foldl (fun h p => h.pageCompleted p) s.host ∧
      ∃ shown, t.eventCounters = s.eventCounters ++ shown ∧ shown.length = events.length ∧
        (∀ v ∈ shown, ∀ i : Fin 8, s.counter i ≤ v.get i ∧ v.get i ≤ t.counter i) ∧
        shown.Pairwise fun v w => ∀ i : Fin 8, v.get i ≤ w.get i

/-- R144, R148: a data-line record whose length is not 44 counts `BadLineLength`, ends the scan and re-arms
synchronization; one of 44 bytes does what the line in it does. Types 0x02 and 0x03 are alike. The treatment of a
wrong length is the spec's decision D10. -/
def Obligations.RecLineResult : Prop :=
  ∀ (second : Bool) (body : List Byte) (s : State),
    (body.length ≠ 44 → exec (.recLine second body) s = .next
      { s with cnt := counted .badLineLength s, mode := .sync, scan := none }) ∧
    (body.length = 44 → ∃ i t, decode (.word .line body) = .ok i ∧ exec i s = .next t ∧
      exec (.recLine second body) s = .next t)

/-- R145: a filler record changes nothing. R146: an unrecognised record counts one `UnknownLineType` and changes nothing
else; in particular the scan goes on. R176: a packet 26 to 31 changes nothing; that its body is not even checked is the
spec's decision D20 (log entry 15). -/
def Obligations.SkippedRecordsAndPackets : Prop :=
  ∀ (t : Byte) (k : PacketNo) (m : Mag) (body : List Byte) (s : State),
    exec (.recFill body) s = .next s ∧
    exec (.recUnk t body) s = .next { s with cnt := counted .unknownLineType s } ∧
    exec (.pktExt k m body) s = .next s

/-- R141 to R143: at a record the step ends the scan normally at the end of the payload, and counts `BadLineLength`
and ends the scan where one byte remains or the declared body would overrun, whatever the type byte. That zero
remaining bytes are the normal end is the spec's decision D9; that one record is one step is the model's choice, log
entry 10 (R6 makes a step a whole transaction). -/
def Obligations.RecordFramingChecks : Prop :=
  ∀ (s : State) (pos stop : Nat), s.scan = some { level := .record, pos := pos, stop := stop } →
    (pos = stop → step s = .next { s with scan := none }) ∧
    (pos + 1 = stop → step s = .next
      { s with cnt := counted .badLineLength s, mode := .sync, scan := none }) ∧
    (∀ t n : Byte, pos + 2 ≤ stop → s.buf.read pos = some t → s.buf.read (pos + 1) = some n →
      stop < pos + 2 + n.toNat → step s = .next
        { s with cnt := counted .badLineLength s, mode := .sync, scan := none })

/-! ### Lines and packets -/

/-- R161: which lines are well framed. -/
def Obligations.FramingCheck : Prop :=
  ∀ (lineByte syncByte magByte packByte : Byte) (body : List Byte), body.length = 40 →
    ((syncByte = 0xE4#8 ∧ 0xC0 ≤ lineByte.toNat) ↔
      decode (.word .line (lineByte :: syncByte :: magByte :: packByte :: body)) =
        .ok (.lineFramed (lineByte.setWidth 6) magByte packByte body)) ∧
    (¬ (syncByte = 0xE4#8 ∧ 0xC0 ≤ lineByte.toNat) ↔
      decode (.word .line (lineByte :: syncByte :: magByte :: packByte :: body)) =
        .ok (.lineBadframe lineByte syncByte (magByte :: packByte :: body)))

/-- R163 to R165: a well-framed line does what the packet its address bytes select does. -/
def Obligations.FramedLineRoutes : Prop :=
  ∀ (low : BitVec 6) (magByte packByte : Byte) (body : List Byte) (s : State), body.length = 40 →
    ∃ i t, decode (.word .packet (magByte :: packByte :: body)) = .ok i ∧ exec i s = .next t ∧
      exec (.lineFramed low magByte packByte body) s = .next t

/-- R164: an address byte that is no code word, or two of them, count one `CodeError`; the scan goes on and no slot is
read or written, so a header with a damaged address closes nothing. -/
def Obligations.AddressMiss : Prop :=
  ∀ (low : BitVec 6) (magByte packByte : Byte) (body : List Byte) (s : State),
    ham84 magByte = 255#8 ∨ ham84 packByte = 255#8 →
    exec (.lineFramed low magByte packByte body) s = .next { s with cnt := counted .codeError s } ∧
    exec (.pktAddrErr magByte packByte body) s = .next { s with cnt := counted .codeError s }

/-- R173: a row whose 40 bytes are code words is stored whole under its number in the open page of its magazine;
every other row of the page, every other slot and everything else is as before. R174: with no open page nothing
changes. Replacing an earlier row is the spec's decision D19. -/
def Obligations.RowStores : Prop :=
  ∀ (k : PacketNo) (m : Mag) (d : List Char7) (s : State),
    (s.slotAt m = none → exec (.pktRow k m (d.map parCode)) s = .next s) ∧
    (∀ p, s.slotAt m = some p → ∃ lines,
      exec (.pktRow k m (d.map parCode)) s = .next
        { s with slot := s.slot.set m.toNat (some { p with lines := lines }) m.isLt } ∧
      assocFind k.toNat lines = some d ∧ (∀ n, n ≠ k.toNat → assocFind n lines = assocFind n p.lines) ∧
      (assocSorted p.lines = true → assocSorted lines = true))

/-- R175, R174: a row with an invalid byte counts one `CodeError` however many are invalid, open page or not, and
changes nothing else. That the bytes are tested before the slot, so that a damaged row with no open page counts, is the
spec's decision D19 (log entry 15). -/
def Obligations.RowParityMiss : Prop :=
  ∀ (k : PacketNo) (m : Mag) (body : List Byte) (s : State), (∃ b ∈ body, oddpar b = 255#8) →
    exec (.pktRow k m body) s = .next { s with cnt := counted .codeError s }

/-- R166, R169, R171, R172, R81: a header whose bytes are code words and whose relative page is at most 99 closes the
page of its magazine and opens a new one with the identity, flags, text and timestamp the rules give, and no rows. The
order of the eight fields and the bit each flag is taken from are the spec's decisions D12 to D14 (log entry 9), the 32
text values D15, and the test on the combined value alone D16 (log entry 15). -/
def Obligations.HeaderOpensPage : Prop :=
  ∀ (m : Mag) (f : HeaderFields) (text : List Char7) (s : State),
    10 * f.tens.toNat + f.units.toNat ≤ 99 →
    ∃ c, Closed m s c ∧ exec (.pktHdr m (headerCodes f ++ text.map parCode)) s = .next
      { c with slot := c.slot.set m.toNat (some
        { magazine := m
          relativePage := 10 * f.tens.toNat + f.units.toNat
          page := (if m = 0#3 then 800 else 100 * m.toNat) + (10 * f.tens.toNat + f.units.toNat)
          subPage := (f.s4c5c6.toNat % 4) * 1000 + f.s3.toNat * 100 + (f.s2c4.toNat % 8) * 10 + f.s1.toNat
          header := text
          flags :=
            { erase := f.s2c4.getLsbD 3
              flash := f.s4c5c6.getLsbD 2
              isSubtitle := f.s4c5c6.getLsbD 3
              noHeader := f.c7_10.getLsbD 0
              updated := f.c7_10.getLsbD 1
              outOfSequence := f.c7_10.getLsbD 2
              hide := f.c7_10.getLsbD 3
              magazineSerial := f.c11_14.getLsbD 0
              nationalOptions := BitVec.ofNat 3 (f.c11_14.toNat / 2) }
          lines := []
          timeStamp := s.ts }) m.isLt }

/-- R166, R168, R251: a filler header (relative page above 99) closes the page of its magazine, opens none and
counts nothing, whatever its text bytes are. That it closes the open page before its digits are looked at is the spec's
decision D17 (conflict C3); the test on the combined value, before the text, is its decisions D16 and D18 (log entry
15). -/
def Obligations.FillerHeaderCloses : Prop :=
  ∀ (m : Mag) (f : HeaderFields) (text : List Byte) (s : State),
    99 < 10 * f.tens.toNat + f.units.toNat →
    ∃ c, Closed m s c ∧ c.slotAt m = none ∧ exec (.pktHdr m (headerCodes f ++ text)) s = .next c

/-- R166, R167, R170, R219, R222 e: a header with an invalid Hamming field, or with good fields, relative page at
most 99 and an invalid text byte, closes the page of its magazine, opens none and counts one `CodeError`. That it still
closes the open page is the spec's decision D17 (conflict C4); the text's part in it and the order of the tests are its
decisions D15, D16 and D18 (log entry 15). -/
def Obligations.DamagedHeaderCloses : Prop :=
  ∀ (m : Mag) (fields text : List Byte) (s : State), fields.length = 8 →
    ((∃ b ∈ fields, ham84 b = 255#8) ∨
      ∃ f : HeaderFields, fields = headerCodes f ∧ 10 * f.tens.toNat + f.units.toNat ≤ 99 ∧
        ∃ b ∈ text, oddpar b = 255#8) →
    ∃ c, Closed m s c ∧ c.slotAt m = none ∧ exec (.pktHdr m (fields ++ text)) s = .next
      { c with cnt := counted .codeError s }

/-- Property 6 of the source: two headers of one magazine in a row, the first of which opened a page, emit exactly that
page, and it has no rows. R250: a read of any counter while the consumer handles that event gives its value at that
moment, before anything the second header counts (decision D23). That a second header that opens nothing emits the page
too is the spec's decision D17 (log entry 15). -/
def Obligations.TwoHeadersEmitTheFirst : Prop :=
  ∀ (m : Mag) (body1 body2 : List Byte) (s t u : State) (p : Page),
    exec (.pktHdr m body1) s = .next t → t.slotAt m = some p → exec (.pktHdr m body2) t = .next u →
    u.out = t.out ++ [p] ∧ (∀ i, u.readDuringEvent t.eventCounters.length i = some (t.counter i)) ∧
      u.eventCounters = t.eventCounters ++ [t.cnt] ∧ p.lines = [] ∧ p.magazine = m ∧ p.timeStamp = s.ts

/-- R24: no packet reads or writes a slot of another magazine. Replacing the content of another slot before the packet
is the same as replacing it after. -/
def Obligations.MagazinesAreIsolated : Prop :=
  ∀ (m n : Mag) (k : PacketNo) (body : List Byte) (v : Option Page) (s : State), n ≠ m →
    (∀ t, exec (.pktHdr m body) s = .next t →
      exec (.pktHdr m body) (s.setSlot n v) = .next (t.setSlot n v) ∧ t.slotAt n = s.slotAt n) ∧
    (∀ t, exec (.pktRow k m body) s = .next t →
      exec (.pktRow k m body) (s.setSlot n v) = .next (t.setSlot n v) ∧ t.slotAt n = s.slotAt n) ∧
    ∀ t, exec (.pktExt k m body) s = .next t →
      exec (.pktExt k m body) (s.setSlot n v) = .next (t.setSlot n v) ∧ t.slotAt n = s.slotAt n

/-- R178: one data line raises at most one diagnostic: `BadFraming` with the rest of the unit abandoned, or `CodeError`
with the scan going on, or none; and but for step 1 of a header, a line that raises one changes nothing else. That a
damaged header's step 1 stands is the spec's decision D17, and that a framing failure leaves the mode is D22 (log entry
15). -/
def Obligations.OneDiagnosticPerLine : Prop :=
  ∀ (second : Bool) (body : List Byte) (s t : State), body.length = 44 →
    exec (.recLine second body) s = .next t →
    t = { s with cnt := counted .badFraming s, scan := none } ∨
    t = { s with cnt := counted .codeError s } ∨
    (∃ m c, decodeAddress (body.getD 2 0#8) (body.getD 3 0#8) = .hdr m ∧ Closed m s c ∧
      t = { c with cnt := counted .codeError s }) ∨
    (t.cnt = s.cnt ∧ t.scan = s.scan ∧ t.mode = s.mode)

/-! ### The host's operations -/

/-- R194: reading a counter presents its value and changes nothing of the block. R202: `pages` gives a copy of all
cached pages and changes nothing else. The fields that hold what is presented are the model's (log entries 5 and 6); the
counter port is the spec's decision D25. -/
def Obligations.HostReadsOnlyPresent : Prop :=
  ∀ (i : Fin 8) (s : State),
    exec (.hostReadCounter i) s = .next { s with counterPort := s.counter i, host := quiet s.host } ∧
    exec .hostPages s = .next { s with host := { quiet s.host with snapshot := s.host.cache } }

/-- R199, R200: setting the current page clears the watch; with a number and a registered subscriber the cached page,
else the placeholder, is delivered at once, and the watch and the cache are armed. The block is not touched. That the
placeholder's sub-page and flags are zero and its timestamp -1 is decision D30. -/
def Obligations.SetCurrentPageResult : Prop :=
  ∀ s : State,
    exec (.hostSetCurrentPage none) s = .next { s with host := { quiet s.host with current := none } } ∧
    ∀ n, ∃ p,
      (assocFind n s.host.cache = some p ∨
        (assocFind n s.host.cache = none ∧ p.page = n ∧ p.magazine.toNat = n / 100 % 8 ∧
          p.relativePage = n % 100 ∧ p.header = [] ∧ p.lines = [] ∧ p.subPage = 0 ∧ p.timeStamp.toInt = -1 ∧
          p.flags.nationalOptions = 0#3 ∧ p.flags.erase = false ∧ p.flags.isSubtitle = false ∧
          p.flags.flash = false ∧ p.flags.hide = false ∧ p.flags.noHeader = false ∧
          p.flags.outOfSequence = false ∧ p.flags.updated = false ∧ p.flags.magazineSerial = false)) ∧
      exec (.hostSetCurrentPage (some n)) s = .next
        { s with host := { s.host with
          current := some n
          enabled := true
          calls := if s.host.subscriber = true then [p] else [] } }

/-- R201: `deactivate` disarms the watch, disables decoding and, with reset, clears the cache; it does not touch the
block. -/
def Obligations.DeactivateResult : Prop :=
  ∀ (reset : Bool) (s : State), exec (.hostDeactivate reset) s = .next
    { s with host := { quiet s.host with
      current := none
      enabled := false
      cache := if reset = true then [] else s.host.cache } }

/-- R198: a page-completed event is cached under its page number if decoding is enabled, and handed to the
subscriber if the watch is armed for that number; the block is not touched. The spec's reading of the two conditions
is decision D30. -/
def Obligations.PageCompletedResult : Prop :=
  ∀ (p : Page) (s : State), ∃ cache,
    exec (.hostOnPageCompleted p) s = .next
      { s with host := { s.host with
        cache := cache
        calls := if s.host.current = some p.page ∧ s.host.subscriber = true then [p] else [] } } ∧
    (s.host.enabled = false → cache = s.host.cache) ∧
    (s.host.enabled = true → assocFind p.page cache = some p ∧
      ∀ n, n ≠ p.page → assocFind n cache = assocFind n s.host.cache)

/-- R197: the cache, keyed by page number, never holds more than one page per page number, and at most 800 entries,
after any event; the page completed last replaces the one of its number, whatever its sub-page. -/
def Obligations.CacheOnePagePerNumber : Prop :=
  ∀ (h : PageManager) (p : Page), h.CacheWf → p.wf = true →
    (h.pageCompleted p).CacheWf ∧ ((h.pageCompleted p).cache.map (fun x => x.1)).Nodup ∧
      (h.pageCompleted p).cache.length ≤ 800 ∧
      (h.enabled = true → ∀ q, (p.page, q) ∈ (h.pageCompleted p).cache ↔ q = p)

/-! ### The whole machine -/

/-- A step between transactions runs the decoded input. The queue is log entry 3. -/
def Obligations.StepRunsTheInput : Prop :=
  ∀ (s t : State) (x : Input) (rest : List Input), s.scan = none → s.inputs = x :: rest →
    exec (decodeInput x) { s with inputs := rest } = .next t → t.scan = none → step s = .next t

/-- A step at a record runs the decoded record, then moves the scan pointer past it unless the scan has ended
(R147). Single record steps are log entry 10. -/
def Obligations.StepRunsTheRecord : Prop :=
  ∀ (s t : State) (pos stop : Nat) (ty n : Byte) (body : List Byte) (i : Instr),
    s.scan = some { level := .record, pos := pos, stop := stop } →
    s.buf.read pos = some ty → s.buf.read (pos + 1) = some n →
    s.buf.readBytes (pos + 2) n.toNat = some body → pos + 2 + n.toNat ≤ stop →
    decode (.word .record (ty :: n :: body)) = .ok i → exec i s = .next t →
    (t.scan = none → step s = .next t) ∧
    (t.scan = s.scan → step s = .next
      { t with scan := some { level := .record, pos := pos + 2 + n.toNat, stop := stop } })

/-- A step at any other format runs the decoded bytes: a data identifier, a line, an addressed packet, a code word.
Single element steps are log entry 10. -/
def Obligations.StepRunsTheBytes : Prop :=
  ∀ (s t : State) (l : Level) (pos stop len : Nat) (bytes : List Byte) (i : Instr),
    (l = .unit ∧ len = 1) ∨ (l = .line ∧ len = 44) ∨ (l = .packet ∧ len = 42) ∨
      (l = .ham84 ∧ len = 1 ∧ pos < stop) ∨ (l = .oddpar ∧ len = 1 ∧ pos < stop) →
    s.scan = some { level := l, pos := pos, stop := stop } → s.buf.readBytes pos len = some bytes →
    decode (.word l bytes) = .ok i → exec i s = .next t →
    (t.scan = none → step s = .next t) ∧
    (t.scan = s.scan → step s = .next
      { t with scan := some { level := nextLevel l, pos := pos + len, stop := stop } })

/-- Reset meets the invariants. The values of the model's own fields are log entries 3 to 6. -/
def Obligations.ResetMeetsTheInvariants : Prop := State.reset.Inv ∧ State.reset.BetweenTransactions

/-- R35 a to d with the canonical forms, and R25, R150: `pos <= end <= BUF.len` while a scan is live, at every format.
Every step keeps the invariant, from every state that meets it. -/
def Obligations.StepKeepsTheInvariant : Prop := ∀ s t : State, s.Inv → step s = .next t → t.Inv

/-- R20, R25, R133: a step from between transactions ends between transactions, and `SYNC` is left only by the first
`FRAG.START` after reset. That a failed
unit does not leave it in `SYNC` is the spec's decision D6 (log entry 15). -/
def Obligations.StepKeepsBetweenTransactions : Prop :=
  ∀ s t : State, s.BetweenTransactions → step s = .next t → t.BetweenTransactions

/-- R210, R84, R150, R225: every well-formed instruction completes, from every state that meets the invariant and
stands where an instruction of its format is taken, and the invariant holds after it. -/
def Obligations.EveryInstructionCompletes : Prop :=
  ∀ (i : Instr) (s : State), i.wf = true → s.Inv → ready i s = true → ∃ t, exec i s = .next t ∧ t.Inv

/-- R210, R84: malformed input never stops the block. From every state whose accumulator is in canonical form and
complete and whose scan pointer, if any, is inside the unit, a step answers a next state: whatever is offered, whatever
the bytes, the slots, the counters and the Page Manager are. -/
def Obligations.StepNeverStops : Prop := ∀ s : State, s.BufWf → s.ScanWf → ∃ t, step s = .next t

/-- R35 g, R30: no counter ever falls, but by `RESET`. -/
def Obligations.CountersNeverFall : Prop :=
  ∀ s t : State, step s = .next t → (s.scan = none → s.inputs.head? ≠ some .reset) →
    ∀ i, s.counter i ≤ t.counter i

/-- R2, R192, R195: no later stage feeds anything back. The Page Manager cannot be told from what the block does: with
any other one behind the port the step leads to the same state but for the Page Manager. -/
def Obligations.ConsumerNeverFeedsBack : Prop :=
  ∀ (s t : State) (h : PageManager), step s = .next t → ∃ h', step (s.withHost h) = .next (t.withHost h')

/-- R30, R224: no rule reads a counter to decide anything. With any other counter values the step leads to the same
state but for the counters and what a read of them shows: the counter port, and the reads during events (R250). -/
def Obligations.CountersNeverDecide : Prop :=
  ∀ (s t : State) (c : Vector Nat 8), step s = .next t →
    ∃ c' v w, step (s.withCounters c) = .next { t.withCounters c' with counterPort := v, eventCounters := w }
end

