-- ==== Sys2Proof/Laws/Memory.lean ====
section
/-!
SUPPORT. The laws of the accumulator: what `Append` and `Clear` do to it, what a read gives, and that every operation
keeps the canonical form `Memory.wf`.
-/

namespace Sys2Proof.Machine

open Sys2Proof

/-! ### The cells of a run of bytes -/

@[simp] theorem cellsFrom_nil (a : Nat) : cellsFrom a [] = [] := rfl

@[simp] theorem cellsFrom_cons (a : Nat) (b : Byte) (bs : List Byte) :
    cellsFrom a (b :: bs) = (a, b) :: cellsFrom (a + 1) bs := rfl

@[simp] theorem length_cellsFrom (bs : List Byte) : ∀ a, (cellsFrom a bs).length = bs.length := by
  induction bs with
  | nil => intro a; rfl
  | cons b bs ih => intro a; simp [ih]

theorem addresses_cellsFrom (bs : List Byte) : ∀ a, (cellsFrom a bs).map (fun c => c.1) = List.range' a bs.length := by
  induction bs with
  | nil => intro a; rfl
  | cons b bs ih => intro a; simp [ih, List.range'_succ]

theorem cellsFrom_take (bs : List Byte) : ∀ a n, cellsFrom a (bs.take n) = (cellsFrom a bs).take n := by
  induction bs with
  | nil => intro a n; simp
  | cons b bs ih =>
    intro a n
    cases n with
    | zero => rfl
    | succ n => simp [ih]

/-! ### Finding a cell -/

theorem assocFind_append {α : Type} (k : Nat) (l r : List (Nat × α)) :
    assocFind k (l ++ r) = (assocFind k l).or (assocFind k r) := by
  induction l with
  | nil => rfl
  | cons x l ih =>
    obtain ⟨a, v⟩ := x
    by_cases h : k = a <;> simp [assocFind, h, ih]

theorem assocFind_eq_none {α : Type} (k : Nat) (l : List (Nat × α)) (h : k ∉ l.map (fun c => c.1)) :
    assocFind k l = none := by
  induction l with
  | nil => rfl
  | cons x l ih =>
    obtain ⟨a, v⟩ := x
    simp only [List.map_cons, List.mem_cons, not_or] at h
    simp [assocFind, h.1, ih h.2]

theorem assocFind_cellsFrom (bs : List Byte) : ∀ a i, assocFind (a + i) (cellsFrom a bs) = bs[i]? := by
  induction bs with
  | nil => intro a i; simp [assocFind]
  | cons b bs ih =>
    intro a i
    cases i with
    | zero => simp [assocFind]
    | succ i =>
      have h := ih (a + 1) i
      simp only [cellsFrom_cons, assocFind, List.getElem?_cons_succ]
      rw [if_neg (by omega), ← h]
      congr 1; omega

/-! ### The canonical form -/

theorem Memory.wf_iff (m : Memory) :
    m.wf = true ↔ m.cells.map (fun c => c.1) = List.range m.cells.length ∧ m.cells.length ≤ m.len := by
  simp [Memory.wf]

theorem Memory.complete_iff (m : Memory) : m.complete = true ↔ m.cells.length = m.len := by
  unfold Memory.complete Memory.holds
  exact decide_eq_true_iff

theorem Memory.holds_none (m : Memory) : m.holds none = m.complete := rfl

/-- Addresses strictly rise in canonical form. -/
theorem Memory.wf_rising (m : Memory) (h : m.wf = true) : (m.cells.map (fun c => c.1)).Pairwise (· < ·) := by
  rw [(m.wf_iff.mp h).1]; exact List.pairwise_lt_range

theorem Memory.empty_wf : Memory.empty.wf = true := by decide

theorem Memory.empty_complete : Memory.empty.complete = true := by decide

theorem Memory.empty_holds (cap : Option Nat) : Memory.empty.holds cap = true := by
  cases cap <;> simp [Memory.holds, Memory.empty, storedCount]

@[simp] theorem Memory.append_len (cap : Option Nat) (m : Memory) (data : List Byte) :
    (m.append cap data).len = m.len + data.length := rfl

@[simp] theorem Memory.append_cells (cap : Option Nat) (m : Memory) (data : List Byte) :
    (m.append cap data).cells = m.cells ++ cellsFrom m.len (storedPart cap m.len data) := rfl

theorem length_storedPart (cap : Option Nat) (n : Nat) (data : List Byte) :
    (storedPart cap n data).length = storedCount cap (n + data.length) - storedCount cap n := by
  cases cap with
  | none => simp [storedPart, storedCount]
  | some c => simp [storedPart, storedCount]; omega

/-- `Append` keeps the canonical form, at any capacity (R51, R52). -/
theorem Memory.append_wf (cap : Option Nat) (m : Memory) (data : List Byte) (h : m.wf = true)
    (hh : m.holds cap = true) : (m.append cap data).wf = true := by
  have hl := length_storedPart cap m.len data
  obtain ⟨ha, hb⟩ := m.wf_iff.mp h
  simp only [Memory.holds, decide_eq_true_eq] at hh
  rw [Memory.wf_iff]
  simp only [Memory.append_cells, Memory.append_len, List.map_append, List.length_append, addresses_cellsFrom,
    length_cellsFrom, ha]
  cases cap with
  | none =>
    simp only [storedCount] at hh hl
    refine ⟨?_, by simp only [storedPart]; omega⟩
    rw [List.range_eq_range', List.range_eq_range', ← List.range'_append_1, hh]; simp
  | some c =>
    simp only [storedCount] at hh hl
    refine ⟨?_, by omega⟩
    by_cases hc : c ≤ m.len
    · have : (storedPart (some c) m.len data).length = 0 := by omega
      simp [this]
    · have : m.cells.length = m.len := by omega
      rw [List.range_eq_range', List.range_eq_range', ← List.range'_append_1, this]; simp

/-- `Append` stores exactly what the capacity allows (R52). -/
theorem Memory.append_holds (cap : Option Nat) (m : Memory) (data : List Byte) (hh : m.holds cap = true) :
    (m.append cap data).holds cap = true := by
  have hl := length_storedPart cap m.len data
  simp only [Memory.holds, decide_eq_true_eq] at hh ⊢
  simp only [Memory.append_cells, Memory.append_len, List.length_append, length_cellsFrom, hl, hh]
  have : storedCount cap m.len ≤ storedCount cap (m.len + data.length) := by
    cases cap with
    | none => simp [storedCount]
    | some c => simp only [storedCount]; omega
  omega

/-- `Append` to an unbounded accumulator stores every byte (R51). -/
theorem Memory.append_complete (m : Memory) (data : List Byte) (h : m.complete = true) :
    (m.append none data).complete = true := m.append_holds none data h

/-- What a capacity keeps is in canonical form too. -/
theorem Memory.capped_wf (c : Nat) (m : Memory) (h : m.wf = true) : (m.capped c).wf = true := by
  obtain ⟨ha, hb⟩ := m.wf_iff.mp h
  rw [Memory.wf_iff]
  simp only [Memory.capped, List.length_take]
  refine ⟨?_, by omega⟩
  rw [List.map_take, ha, List.take_range]

/-! ### Reading -/

@[simp] theorem Memory.read_empty (a : Nat) : Memory.empty.read a = none := rfl

/-- Below the length of an unbounded accumulator every address holds a byte. -/
theorem Memory.read_isSome (m : Memory) (h : m.wf = true) (hc : m.complete = true) (a : Nat) (ha : a < m.len) :
    ∃ b, m.read a = some b := by
  have h1 := (m.wf_iff.mp h).1
  have h2 := m.complete_iff.mp hc
  have h3 : a ∈ m.cells.map (fun c => c.1) := by rw [h1]; simp; omega
  clear h1 h2
  unfold Memory.read
  generalize m.cells = cells at h3
  induction cells with
  | nil => simp at h3
  | cons x l ih =>
    obtain ⟨k, v⟩ := x
    by_cases hk : a = k
    · exact ⟨v, by simp [assocFind, hk]⟩
    · simp only [List.map_cons, List.mem_cons, hk, false_or] at h3
      simpa [assocFind, hk] using ih h3

/-- At and beyond the stored bytes no address holds one. -/
theorem Memory.read_beyond (m : Memory) (h : m.wf = true) (a : Nat) (ha : m.len ≤ a) : m.read a = none := by
  obtain ⟨h1, h2⟩ := m.wf_iff.mp h
  apply assocFind_eq_none
  rw [h1]; simp; omega

theorem Memory.read_append (m : Memory) (h : m.wf = true) (hc : m.complete = true) (data : List Byte) (a : Nat) :
    (m.append none data).read a = if a < m.len then m.read a else data[a - m.len]? := by
  simp only [Memory.read, Memory.append_cells, assocFind_append, storedPart]
  by_cases ha : a < m.len
  · obtain ⟨b, hb⟩ := m.read_isSome h hc a ha
    simp only [Memory.read] at hb
    simp [ha, hb]
  · have hn := m.read_beyond h a (by omega)
    simp only [Memory.read] at hn
    have := assocFind_cellsFrom data m.len (a - m.len)
    rw [show m.len + (a - m.len) = a by omega] at this
    simp [ha, hn, this]

/-- A run of bytes inside an unbounded accumulator can be read. -/
theorem Memory.readBytes_isSome (m : Memory) (h : m.wf = true) (hc : m.complete = true) :
    ∀ n a, a + n ≤ m.len → ∃ bs, m.readBytes a n = some bs := by
  intro n
  induction n with
  | zero => intro a _; exact ⟨[], rfl⟩
  | succ n ih =>
    intro a ha
    obtain ⟨b, hb⟩ := m.read_isSome h hc a (by omega)
    obtain ⟨bs, hbs⟩ := ih (a + 1) (by omega)
    exact ⟨b :: bs, by simp [Memory.readBytes, hb, hbs]⟩

theorem Memory.readBytes_length (m : Memory) : ∀ n a bs, m.readBytes a n = some bs → bs.length = n := by
  intro n
  induction n with
  | zero => intro a bs h; simp [Memory.readBytes] at h; simp [← h]
  | succ n ih =>
    intro a bs h
    simp only [Memory.readBytes] at h
    split at h
    · rename_i b bs' hb hbs
      cases h
      simp [ih _ _ hbs]
    · cases h

end Sys2Proof.Machine
end

