-- ==== Sys2Proof/Laws/State.lean ====
section
/-!
SUPPORT. One lemma per field per update of the state, true by rfl: what the update writes and that it writes nothing
else. No proof unfolds a record update; the simp set of these lemmas does it.
-/

namespace Sys2Proof.Machine

open Sys2Proof

/-! ### `append` -/

@[simp] theorem mode_append (cfg : Config) (data : List Byte) (s : State) : (s.append cfg data).mode = s.mode := rfl
@[simp] theorem ts_append (cfg : Config) (data : List Byte) (s : State) : (s.append cfg data).ts = s.ts := rfl
@[simp] theorem buf_append (cfg : Config) (data : List Byte) (s : State) : (s.append cfg data).buf = s.buf.append cfg.bufCap data := rfl
@[simp] theorem slot_append (cfg : Config) (data : List Byte) (s : State) : (s.append cfg data).slot = s.slot := rfl
@[simp] theorem cnt_append (cfg : Config) (data : List Byte) (s : State) : (s.append cfg data).cnt = s.cnt := rfl
@[simp] theorem out_append (cfg : Config) (data : List Byte) (s : State) : (s.append cfg data).out = s.out := rfl
@[simp] theorem eventCounters_append (cfg : Config) (data : List Byte) (s : State) : (s.append cfg data).eventCounters = s.eventCounters := rfl
@[simp] theorem scan_append (cfg : Config) (data : List Byte) (s : State) : (s.append cfg data).scan = s.scan := rfl
@[simp] theorem lookup_append (cfg : Config) (data : List Byte) (s : State) : (s.append cfg data).lookup = s.lookup := rfl
@[simp] theorem counterPort_append (cfg : Config) (data : List Byte) (s : State) : (s.append cfg data).counterPort = s.counterPort := rfl
@[simp] theorem host_append (cfg : Config) (data : List Byte) (s : State) : (s.append cfg data).host = s.host := rfl
@[simp] theorem inputs_append (cfg : Config) (data : List Byte) (s : State) : (s.append cfg data).inputs = s.inputs := rfl

/-! ### `clearBuf` -/

@[simp] theorem mode_clearBuf (s : State) : (s.clearBuf).mode = s.mode := rfl
@[simp] theorem ts_clearBuf (s : State) : (s.clearBuf).ts = s.ts := rfl
@[simp] theorem buf_clearBuf (s : State) : (s.clearBuf).buf = Memory.empty := rfl
@[simp] theorem slot_clearBuf (s : State) : (s.clearBuf).slot = s.slot := rfl
@[simp] theorem cnt_clearBuf (s : State) : (s.clearBuf).cnt = s.cnt := rfl
@[simp] theorem out_clearBuf (s : State) : (s.clearBuf).out = s.out := rfl
@[simp] theorem eventCounters_clearBuf (s : State) : (s.clearBuf).eventCounters = s.eventCounters := rfl
@[simp] theorem scan_clearBuf (s : State) : (s.clearBuf).scan = s.scan := rfl
@[simp] theorem lookup_clearBuf (s : State) : (s.clearBuf).lookup = s.lookup := rfl
@[simp] theorem counterPort_clearBuf (s : State) : (s.clearBuf).counterPort = s.counterPort := rfl
@[simp] theorem host_clearBuf (s : State) : (s.clearBuf).host = s.host := rfl
@[simp] theorem inputs_clearBuf (s : State) : (s.clearBuf).inputs = s.inputs := rfl

/-! ### `setMode` -/

@[simp] theorem mode_setMode (x : RsMode) (s : State) : (s.setMode x).mode = x := rfl
@[simp] theorem ts_setMode (x : RsMode) (s : State) : (s.setMode x).ts = s.ts := rfl
@[simp] theorem buf_setMode (x : RsMode) (s : State) : (s.setMode x).buf = s.buf := rfl
@[simp] theorem slot_setMode (x : RsMode) (s : State) : (s.setMode x).slot = s.slot := rfl
@[simp] theorem cnt_setMode (x : RsMode) (s : State) : (s.setMode x).cnt = s.cnt := rfl
@[simp] theorem out_setMode (x : RsMode) (s : State) : (s.setMode x).out = s.out := rfl
@[simp] theorem eventCounters_setMode (x : RsMode) (s : State) : (s.setMode x).eventCounters = s.eventCounters := rfl
@[simp] theorem scan_setMode (x : RsMode) (s : State) : (s.setMode x).scan = s.scan := rfl
@[simp] theorem lookup_setMode (x : RsMode) (s : State) : (s.setMode x).lookup = s.lookup := rfl
@[simp] theorem counterPort_setMode (x : RsMode) (s : State) : (s.setMode x).counterPort = s.counterPort := rfl
@[simp] theorem host_setMode (x : RsMode) (s : State) : (s.setMode x).host = s.host := rfl
@[simp] theorem inputs_setMode (x : RsMode) (s : State) : (s.setMode x).inputs = s.inputs := rfl

/-! ### `setTs` -/

@[simp] theorem mode_setTs (x : Timestamp) (s : State) : (s.setTs x).mode = s.mode := rfl
@[simp] theorem ts_setTs (x : Timestamp) (s : State) : (s.setTs x).ts = x := rfl
@[simp] theorem buf_setTs (x : Timestamp) (s : State) : (s.setTs x).buf = s.buf := rfl
@[simp] theorem slot_setTs (x : Timestamp) (s : State) : (s.setTs x).slot = s.slot := rfl
@[simp] theorem cnt_setTs (x : Timestamp) (s : State) : (s.setTs x).cnt = s.cnt := rfl
@[simp] theorem out_setTs (x : Timestamp) (s : State) : (s.setTs x).out = s.out := rfl
@[simp] theorem eventCounters_setTs (x : Timestamp) (s : State) : (s.setTs x).eventCounters = s.eventCounters := rfl
@[simp] theorem scan_setTs (x : Timestamp) (s : State) : (s.setTs x).scan = s.scan := rfl
@[simp] theorem lookup_setTs (x : Timestamp) (s : State) : (s.setTs x).lookup = s.lookup := rfl
@[simp] theorem counterPort_setTs (x : Timestamp) (s : State) : (s.setTs x).counterPort = s.counterPort := rfl
@[simp] theorem host_setTs (x : Timestamp) (s : State) : (s.setTs x).host = s.host := rfl
@[simp] theorem inputs_setTs (x : Timestamp) (s : State) : (s.setTs x).inputs = s.inputs := rfl

/-! ### `endScan` -/

@[simp] theorem mode_endScan (s : State) : (s.endScan).mode = s.mode := rfl
@[simp] theorem ts_endScan (s : State) : (s.endScan).ts = s.ts := rfl
@[simp] theorem buf_endScan (s : State) : (s.endScan).buf = s.buf := rfl
@[simp] theorem slot_endScan (s : State) : (s.endScan).slot = s.slot := rfl
@[simp] theorem cnt_endScan (s : State) : (s.endScan).cnt = s.cnt := rfl
@[simp] theorem out_endScan (s : State) : (s.endScan).out = s.out := rfl
@[simp] theorem eventCounters_endScan (s : State) : (s.endScan).eventCounters = s.eventCounters := rfl
@[simp] theorem scan_endScan (s : State) : (s.endScan).scan = none := rfl
@[simp] theorem lookup_endScan (s : State) : (s.endScan).lookup = s.lookup := rfl
@[simp] theorem counterPort_endScan (s : State) : (s.endScan).counterPort = s.counterPort := rfl
@[simp] theorem host_endScan (s : State) : (s.endScan).host = s.host := rfl
@[simp] theorem inputs_endScan (s : State) : (s.endScan).inputs = s.inputs := rfl

/-! ### `setScan` -/

@[simp] theorem mode_setScan (l : Level) (p q : Nat) (s : State) : (s.setScan l p q).mode = s.mode := rfl
@[simp] theorem ts_setScan (l : Level) (p q : Nat) (s : State) : (s.setScan l p q).ts = s.ts := rfl
@[simp] theorem buf_setScan (l : Level) (p q : Nat) (s : State) : (s.setScan l p q).buf = s.buf := rfl
@[simp] theorem slot_setScan (l : Level) (p q : Nat) (s : State) : (s.setScan l p q).slot = s.slot := rfl
@[simp] theorem cnt_setScan (l : Level) (p q : Nat) (s : State) : (s.setScan l p q).cnt = s.cnt := rfl
@[simp] theorem out_setScan (l : Level) (p q : Nat) (s : State) : (s.setScan l p q).out = s.out := rfl
@[simp] theorem eventCounters_setScan (l : Level) (p q : Nat) (s : State) : (s.setScan l p q).eventCounters = s.eventCounters := rfl
@[simp] theorem scan_setScan (l : Level) (p q : Nat) (s : State) : (s.setScan l p q).scan = some { level := l, pos := p, stop := q } := rfl
@[simp] theorem lookup_setScan (l : Level) (p q : Nat) (s : State) : (s.setScan l p q).lookup = s.lookup := rfl
@[simp] theorem counterPort_setScan (l : Level) (p q : Nat) (s : State) : (s.setScan l p q).counterPort = s.counterPort := rfl
@[simp] theorem host_setScan (l : Level) (p q : Nat) (s : State) : (s.setScan l p q).host = s.host := rfl
@[simp] theorem inputs_setScan (l : Level) (p q : Nat) (s : State) : (s.setScan l p q).inputs = s.inputs := rfl

/-! ### `count` -/

@[simp] theorem mode_count (cfg : Config) (d : Diag) (s : State) : (s.count cfg d).mode = s.mode := rfl
@[simp] theorem ts_count (cfg : Config) (d : Diag) (s : State) : (s.count cfg d).ts = s.ts := rfl
@[simp] theorem buf_count (cfg : Config) (d : Diag) (s : State) : (s.count cfg d).buf = s.buf := rfl
@[simp] theorem slot_count (cfg : Config) (d : Diag) (s : State) : (s.count cfg d).slot = s.slot := rfl
@[simp] theorem cnt_count (cfg : Config) (d : Diag) (s : State) : (s.count cfg d).cnt = s.cnt.set d.code.val (bump cfg (s.counter d.code)) d.code.isLt := rfl
@[simp] theorem out_count (cfg : Config) (d : Diag) (s : State) : (s.count cfg d).out = s.out := rfl
@[simp] theorem eventCounters_count (cfg : Config) (d : Diag) (s : State) : (s.count cfg d).eventCounters = s.eventCounters := rfl
@[simp] theorem scan_count (cfg : Config) (d : Diag) (s : State) : (s.count cfg d).scan = s.scan := rfl
@[simp] theorem lookup_count (cfg : Config) (d : Diag) (s : State) : (s.count cfg d).lookup = s.lookup := rfl
@[simp] theorem counterPort_count (cfg : Config) (d : Diag) (s : State) : (s.count cfg d).counterPort = s.counterPort := rfl
@[simp] theorem host_count (cfg : Config) (d : Diag) (s : State) : (s.count cfg d).host = s.host := rfl
@[simp] theorem inputs_count (cfg : Config) (d : Diag) (s : State) : (s.count cfg d).inputs = s.inputs := rfl

/-! ### `setSlot` -/

@[simp] theorem mode_setSlot (m : Mag) (v : Option Page) (s : State) : (s.setSlot m v).mode = s.mode := rfl
@[simp] theorem ts_setSlot (m : Mag) (v : Option Page) (s : State) : (s.setSlot m v).ts = s.ts := rfl
@[simp] theorem buf_setSlot (m : Mag) (v : Option Page) (s : State) : (s.setSlot m v).buf = s.buf := rfl
@[simp] theorem slot_setSlot (m : Mag) (v : Option Page) (s : State) : (s.setSlot m v).slot = s.slot.set m.toNat v m.isLt := rfl
@[simp] theorem cnt_setSlot (m : Mag) (v : Option Page) (s : State) : (s.setSlot m v).cnt = s.cnt := rfl
@[simp] theorem out_setSlot (m : Mag) (v : Option Page) (s : State) : (s.setSlot m v).out = s.out := rfl
@[simp] theorem eventCounters_setSlot (m : Mag) (v : Option Page) (s : State) : (s.setSlot m v).eventCounters = s.eventCounters := rfl
@[simp] theorem scan_setSlot (m : Mag) (v : Option Page) (s : State) : (s.setSlot m v).scan = s.scan := rfl
@[simp] theorem lookup_setSlot (m : Mag) (v : Option Page) (s : State) : (s.setSlot m v).lookup = s.lookup := rfl
@[simp] theorem counterPort_setSlot (m : Mag) (v : Option Page) (s : State) : (s.setSlot m v).counterPort = s.counterPort := rfl
@[simp] theorem host_setSlot (m : Mag) (v : Option Page) (s : State) : (s.setSlot m v).host = s.host := rfl
@[simp] theorem inputs_setSlot (m : Mag) (v : Option Page) (s : State) : (s.setSlot m v).inputs = s.inputs := rfl

/-! ### `emit` -/

@[simp] theorem mode_emit (p : Page) (s : State) : (s.emit p).mode = s.mode := rfl
@[simp] theorem ts_emit (p : Page) (s : State) : (s.emit p).ts = s.ts := rfl
@[simp] theorem buf_emit (p : Page) (s : State) : (s.emit p).buf = s.buf := rfl
@[simp] theorem slot_emit (p : Page) (s : State) : (s.emit p).slot = s.slot := rfl
@[simp] theorem cnt_emit (p : Page) (s : State) : (s.emit p).cnt = s.cnt := rfl
@[simp] theorem out_emit (p : Page) (s : State) : (s.emit p).out = s.out ++ [p] := rfl
@[simp] theorem eventCounters_emit (p : Page) (s : State) : (s.emit p).eventCounters = s.eventCounters ++ [s.cnt] := rfl
@[simp] theorem scan_emit (p : Page) (s : State) : (s.emit p).scan = s.scan := rfl
@[simp] theorem lookup_emit (p : Page) (s : State) : (s.emit p).lookup = s.lookup := rfl
@[simp] theorem counterPort_emit (p : Page) (s : State) : (s.emit p).counterPort = s.counterPort := rfl
@[simp] theorem host_emit (p : Page) (s : State) : (s.emit p).host = s.host.pageCompleted p := rfl
@[simp] theorem inputs_emit (p : Page) (s : State) : (s.emit p).inputs = s.inputs := rfl

/-! ### `clearCalls` -/

@[simp] theorem mode_clearCalls (s : State) : (s.clearCalls).mode = s.mode := rfl
@[simp] theorem ts_clearCalls (s : State) : (s.clearCalls).ts = s.ts := rfl
@[simp] theorem buf_clearCalls (s : State) : (s.clearCalls).buf = s.buf := rfl
@[simp] theorem slot_clearCalls (s : State) : (s.clearCalls).slot = s.slot := rfl
@[simp] theorem cnt_clearCalls (s : State) : (s.clearCalls).cnt = s.cnt := rfl
@[simp] theorem out_clearCalls (s : State) : (s.clearCalls).out = s.out := rfl
@[simp] theorem eventCounters_clearCalls (s : State) : (s.clearCalls).eventCounters = s.eventCounters := rfl
@[simp] theorem scan_clearCalls (s : State) : (s.clearCalls).scan = s.scan := rfl
@[simp] theorem lookup_clearCalls (s : State) : (s.clearCalls).lookup = s.lookup := rfl
@[simp] theorem counterPort_clearCalls (s : State) : (s.clearCalls).counterPort = s.counterPort := rfl
@[simp] theorem host_clearCalls (s : State) : (s.clearCalls).host = { s.host with calls := [] } := rfl
@[simp] theorem inputs_clearCalls (s : State) : (s.clearCalls).inputs = s.inputs := rfl

/-! ### `beginTxn` -/

@[simp] theorem mode_beginTxn (s : State) : (s.beginTxn).mode = s.mode := rfl
@[simp] theorem ts_beginTxn (s : State) : (s.beginTxn).ts = s.ts := rfl
@[simp] theorem buf_beginTxn (s : State) : (s.beginTxn).buf = s.buf := rfl
@[simp] theorem slot_beginTxn (s : State) : (s.beginTxn).slot = s.slot := rfl
@[simp] theorem cnt_beginTxn (s : State) : (s.beginTxn).cnt = s.cnt := rfl
@[simp] theorem out_beginTxn (s : State) : (s.beginTxn).out = [] := rfl
@[simp] theorem eventCounters_beginTxn (s : State) : (s.beginTxn).eventCounters = [] := rfl
@[simp] theorem scan_beginTxn (s : State) : (s.beginTxn).scan = s.scan := rfl
@[simp] theorem lookup_beginTxn (s : State) : (s.beginTxn).lookup = s.lookup := rfl
@[simp] theorem counterPort_beginTxn (s : State) : (s.beginTxn).counterPort = s.counterPort := rfl
@[simp] theorem host_beginTxn (s : State) : (s.beginTxn).host = { s.host with calls := [] } := rfl
@[simp] theorem inputs_beginTxn (s : State) : (s.beginTxn).inputs = s.inputs := rfl

/-! ### `answer` -/

@[simp] theorem mode_answer (r : Byte) (s : State) : (s.answer r).mode = s.mode := rfl
@[simp] theorem ts_answer (r : Byte) (s : State) : (s.answer r).ts = s.ts := rfl
@[simp] theorem buf_answer (r : Byte) (s : State) : (s.answer r).buf = s.buf := rfl
@[simp] theorem slot_answer (r : Byte) (s : State) : (s.answer r).slot = s.slot := rfl
@[simp] theorem cnt_answer (r : Byte) (s : State) : (s.answer r).cnt = s.cnt := rfl
@[simp] theorem out_answer (r : Byte) (s : State) : (s.answer r).out = s.out := rfl
@[simp] theorem eventCounters_answer (r : Byte) (s : State) : (s.answer r).eventCounters = s.eventCounters := rfl
@[simp] theorem scan_answer (r : Byte) (s : State) : (s.answer r).scan = s.scan := rfl
@[simp] theorem lookup_answer (r : Byte) (s : State) : (s.answer r).lookup = r := rfl
@[simp] theorem counterPort_answer (r : Byte) (s : State) : (s.answer r).counterPort = s.counterPort := rfl
@[simp] theorem host_answer (r : Byte) (s : State) : (s.answer r).host = s.host := rfl
@[simp] theorem inputs_answer (r : Byte) (s : State) : (s.answer r).inputs = s.inputs := rfl

/-! ### `withHost` -/

@[simp] theorem mode_withHost (h : PageManager) (s : State) : (s.withHost h).mode = s.mode := rfl
@[simp] theorem ts_withHost (h : PageManager) (s : State) : (s.withHost h).ts = s.ts := rfl
@[simp] theorem buf_withHost (h : PageManager) (s : State) : (s.withHost h).buf = s.buf := rfl
@[simp] theorem slot_withHost (h : PageManager) (s : State) : (s.withHost h).slot = s.slot := rfl
@[simp] theorem cnt_withHost (h : PageManager) (s : State) : (s.withHost h).cnt = s.cnt := rfl
@[simp] theorem out_withHost (h : PageManager) (s : State) : (s.withHost h).out = s.out := rfl
@[simp] theorem eventCounters_withHost (h : PageManager) (s : State) : (s.withHost h).eventCounters = s.eventCounters := rfl
@[simp] theorem scan_withHost (h : PageManager) (s : State) : (s.withHost h).scan = s.scan := rfl
@[simp] theorem lookup_withHost (h : PageManager) (s : State) : (s.withHost h).lookup = s.lookup := rfl
@[simp] theorem counterPort_withHost (h : PageManager) (s : State) : (s.withHost h).counterPort = s.counterPort := rfl
@[simp] theorem host_withHost (h : PageManager) (s : State) : (s.withHost h).host = h := rfl
@[simp] theorem inputs_withHost (h : PageManager) (s : State) : (s.withHost h).inputs = s.inputs := rfl

/-! ### `withCounters` -/

@[simp] theorem mode_withCounters (c : Vector Nat 8) (s : State) : (s.withCounters c).mode = s.mode := rfl
@[simp] theorem ts_withCounters (c : Vector Nat 8) (s : State) : (s.withCounters c).ts = s.ts := rfl
@[simp] theorem buf_withCounters (c : Vector Nat 8) (s : State) : (s.withCounters c).buf = s.buf := rfl
@[simp] theorem slot_withCounters (c : Vector Nat 8) (s : State) : (s.withCounters c).slot = s.slot := rfl
@[simp] theorem cnt_withCounters (c : Vector Nat 8) (s : State) : (s.withCounters c).cnt = c := rfl
@[simp] theorem out_withCounters (c : Vector Nat 8) (s : State) : (s.withCounters c).out = s.out := rfl
@[simp] theorem eventCounters_withCounters (c : Vector Nat 8) (s : State) : (s.withCounters c).eventCounters = s.eventCounters := rfl
@[simp] theorem scan_withCounters (c : Vector Nat 8) (s : State) : (s.withCounters c).scan = s.scan := rfl
@[simp] theorem lookup_withCounters (c : Vector Nat 8) (s : State) : (s.withCounters c).lookup = s.lookup := rfl
@[simp] theorem counterPort_withCounters (c : Vector Nat 8) (s : State) : (s.withCounters c).counterPort = s.counterPort := rfl
@[simp] theorem host_withCounters (c : Vector Nat 8) (s : State) : (s.withCounters c).host = s.host := rfl
@[simp] theorem inputs_withCounters (c : Vector Nat 8) (s : State) : (s.withCounters c).inputs = s.inputs := rfl

end Sys2Proof.Machine
end

