-- ==== Sys2Proof/Laws/Tables.lean ====
section
/-!
SUPPORT. The laws of the code tables in the form the packets use them: which bytes yield a nibble or a character, and
what a run of bytes yields.
-/

namespace Sys2Proof.Machine

open Sys2Proof

@[simp] theorem hamNibble_hamCode (v : Nibble) : hamNibble (hamCode v) = some v := by
  revert v; decide

@[simp] theorem parChar_parCode (c : Char7) : parChar (parCode c) = some c := by
  revert c; decide

/-- What a look-up yields, without the sentinel. -/
theorem hamNibble_eq (b : Byte) : hamNibble b = if hamCode (hamData b) = b then some (hamData b) else none := by
  have hv : ∀ x : Nibble, (x.setWidth 8 : Byte) ≠ Config.invalid ∧ (x.setWidth 8 : Byte).setWidth 4 = x := by decide
  unfold hamNibble ham84
  by_cases h : hamCode (hamData b) = b
  · rw [if_pos h, if_pos h, if_neg (hv _).1, (hv _).2]
  · rw [if_neg h, if_neg h, if_pos rfl]

/-- A byte yields a nibble exactly when it is that nibble's code word. -/
theorem hamNibble_eq_some (b : Byte) (v : Nibble) : hamNibble b = some v ↔ b = hamCode v := by
  constructor
  · intro h
    rw [hamNibble_eq] at h
    by_cases hc : hamCode (hamData b) = b
    · rw [if_pos hc] at h
      rw [← Option.some.inj h, hc]
    · rw [if_neg hc] at h; cases h
  · rintro rfl; simp

/-- What a look-up yields, without the sentinel. -/
theorem parChar_eq (b : Byte) : parChar b = if parCode (parData b) = b then some (parData b) else none := by
  have hv : ∀ x : Char7, (x.setWidth 8 : Byte) ≠ Config.invalid ∧ (x.setWidth 8 : Byte).setWidth 7 = x := by decide
  unfold parChar oddpar
  by_cases h : parCode (parData b) = b
  · rw [if_pos h, if_pos h, if_neg (hv _).1, (hv _).2]
  · rw [if_neg h, if_neg h, if_pos rfl]

/-- A byte yields a character exactly when it is that character's code word. -/
theorem parChar_eq_some (b : Byte) (c : Char7) : parChar b = some c ↔ b = parCode c := by
  constructor
  · intro h
    rw [parChar_eq] at h
    by_cases hc : parCode (parData b) = b
    · rw [if_pos hc] at h
      rw [← Option.some.inj h, hc]
    · rw [if_neg hc] at h; cases h
  · rintro rfl; simp

theorem hamNibble_eq_none (b : Byte) : hamNibble b = none ↔ ham84 b = 255#8 := by
  unfold hamNibble; split <;> simp_all

theorem parChar_eq_none (b : Byte) : parChar b = none ↔ oddpar b = 255#8 := by
  unfold parChar; split <;> simp_all

/-- A run of bytes decodes to `d` exactly when it is the code words of `d` (R170, R173). -/
theorem parText_eq_some (bytes : List Byte) : ∀ d, parText bytes = some d ↔ bytes = d.map parCode := by
  induction bytes with
  | nil => intro d; cases d <;> simp [parText]
  | cons b bs ih =>
    intro d
    cases hb : parChar b with
    | none =>
      have : ∀ c, b ≠ parCode c := fun c e => by simp [e] at hb
      cases d <;> simp [parText, hb, this]
    | some c =>
      have hc := (parChar_eq_some b c).mp hb
      cases hbs : parText bs with
      | none =>
        have hn : ∀ d' : List Char7, bs ≠ d'.map parCode := fun d' e => by simp [(ih d').mpr e] at hbs
        cases d <;> simp [parText, hb, hbs, hn]
      | some cs =>
        have hcs := (ih cs).mp hbs
        have inj : ∀ x y : Char7, parCode x = parCode y → x = y := fun x y e => by
          have := parChar_parCode x; rw [e, parChar_parCode] at this; simpa using this.symm
        cases d with
        | nil => simp [parText, hb, hbs]
        | cons x xs =>
          simp only [parText, hb, hbs, Option.some.injEq, List.cons.injEq, List.map_cons]
          constructor
          · rintro ⟨rfl, rfl⟩; exact ⟨hc, hcs⟩
          · rintro ⟨h1, h2⟩
            refine ⟨inj _ _ (hc ▸ h1), ?_⟩
            have := (ih xs).mpr h2
            rw [hbs] at this; simpa using this

theorem parText_map (d : List Char7) : parText (d.map parCode) = some d := (parText_eq_some _ _).mpr rfl

/-- Decoding keeps the number of values (R29: a stored row has exactly 40). -/
theorem parText_length (bytes : List Byte) (d : List Char7) (h : parText bytes = some d) :
    d.length = bytes.length := by
  rw [(parText_eq_some _ _).mp h]; simp

/-- A run of bytes fails exactly when one of them is no code word. -/
theorem parText_eq_none (bytes : List Byte) : parText bytes = none ↔ ∃ b ∈ bytes, oddpar b = 255#8 := by
  induction bytes with
  | nil => simp [parText]
  | cons b bs ih =>
    cases hb : parChar b with
    | none => simp [parText, hb, (parChar_eq_none b).mp hb]
    | some c =>
      have : oddpar b ≠ 255#8 := fun e => by rw [(parChar_eq_none b).mpr e] at hb; cases hb
      cases hbs : parText bs with
      | none => simp [parText, hb, hbs, this, ← ih]
      | some cs => simp only [parText, hb, hbs]; simp [this, ← ih, hbs]

/-- The header fields of a body that begins with eight code words (R167). -/
theorem readHeader_codes (f : HeaderFields) (rest : List Byte) :
    readHeader (hamCode f.units :: hamCode f.tens :: hamCode f.s1 :: hamCode f.s2c4 :: hamCode f.s3
      :: hamCode f.s4c5c6 :: hamCode f.c7_10 :: hamCode f.c11_14 :: rest) = some f := by
  simp [readHeader]

/-- A page number read from an identity in range (R35 b). -/
theorem pageNumber_eq (m : Mag) (r : Nat) (h : r ≤ 99) :
    pageNumber m r = if m = 0#3 then 800 + r else 100 * m.toNat + r := by
  unfold pageNumber
  by_cases hm : m = 0#3
  · subst hm
    have : r < 100 := by omega
    simp [this]; omega
  · have : m.toNat ≠ 0 := fun e => hm (BitVec.eq_of_toNat_eq e)
    simp only [hm, if_false]
    rw [if_neg (by omega)]

/-- The greatest sub-page number (R35 c). -/
theorem subPage_le (f : HeaderFields) : f.subPage ≤ 4585 := by
  have h1 := f.s1.isLt
  have h3 := f.s3.isLt
  have h2 : (f.s2c4 &&& 7#4).toNat ≤ 7 := by
    generalize f.s2c4 = x; revert x; decide
  have h4 : (f.s4c5c6 &&& 3#4).toNat ≤ 3 := by
    generalize f.s4c5c6 = x; revert x; decide
  unfold HeaderFields.subPage
  omega

end Sys2Proof.Machine
end

