-- ==== Sys2Proof/Laws/Ops.lean ====
section
/-!
SUPPORT. One lemma per shared operation that says what it does: slots, counters, `raise`, `closePage`, `storeRow`, the
scan pointer, and the canonical form of the association lists. The provers cite these instead of unfolding.
-/

namespace Sys2Proof.Machine

open Sys2Proof

/-! ### Slots -/

@[simp] theorem slotAt_setSlot_same (m : Mag) (v : Option Page) (s : State) : (s.setSlot m v).slotAt m = v := by
  simp [State.slotAt]

theorem slotAt_setSlot_other (m n : Mag) (v : Option Page) (s : State) (h : n ≠ m) :
    (s.setSlot m v).slotAt n = s.slotAt n := by
  have : m.toNat ≠ n.toNat := fun e => h (BitVec.eq_of_toNat_eq e).symm
  simp [State.slotAt, this]

theorem slotAt_setSlot (m n : Mag) (v : Option Page) (s : State) :
    (s.setSlot m v).slotAt n = if n = m then v else s.slotAt n := by
  split
  · next h => subst h; simp
  · next h => exact slotAt_setSlot_other m n v s h

theorem setSlot_slotAt (m : Mag) (s : State) : s.setSlot m (s.slotAt m) = s := by
  simp [State.setSlot, State.slotAt]

theorem setSlot_comm (m n : Mag) (v w : Option Page) (s : State) (h : n ≠ m) :
    (s.setSlot m v).setSlot n w = (s.setSlot n w).setSlot m v := by
  have : m.toNat ≠ n.toNat := fun e => h (BitVec.eq_of_toNat_eq e).symm
  simp only [State.setSlot]
  rw [Vector.set_comm _ _ this]

/-! ### Counters and diagnostics -/

@[simp] theorem counter_withCounters (c : Vector Nat 8) (i : Fin 8) (s : State) :
    (s.withCounters c).counter i = (c.get i) := rfl

theorem counter_count (cfg : Config) (d : Diag) (i : Fin 8) (s : State) :
    (s.count cfg d).counter i = if i = d.code then bump cfg (s.counter i) else s.counter i := by
  simp only [State.counter, cnt_count, Vector.getElem_set]
  by_cases h : i = d.code
  · subst h; simp
  · have : d.code.val ≠ i.val := fun e => h (Fin.ext e).symm
    simp [h, this]

@[simp] theorem bump_std (n : Nat) : bump Config.std n = n + 1 := rfl

/-- A counter never falls when an event is counted, at any width, while it is in its range (R38). -/
theorem le_bump (cfg : Config) (n : Nat) (h : ∀ w, cfg.cntWidth = some w → n ≤ 2 ^ w - 1) : n ≤ bump cfg n := by
  unfold bump
  split
  · omega
  · next w hw => have := h w hw; omega

/-- `raise D` writes one counter and, for a structural diagnostic, the mode (R212). -/
theorem raise_eq (cfg : Config) (d : Diag) (s : State) :
    s.raise cfg d = { s with
      cnt := s.cnt.set d.code.val (bump cfg (s.counter d.code)) d.code.isLt
      mode := if d.structural then .sync else s.mode } := by
  unfold State.raise
  split <;> simp_all [State.count, State.setMode]

@[simp] theorem ts_raise (cfg : Config) (d : Diag) (s : State) : (s.raise cfg d).ts = s.ts := by simp [raise_eq]
@[simp] theorem buf_raise (cfg : Config) (d : Diag) (s : State) : (s.raise cfg d).buf = s.buf := by simp [raise_eq]
@[simp] theorem slot_raise (cfg : Config) (d : Diag) (s : State) : (s.raise cfg d).slot = s.slot := by simp [raise_eq]
@[simp] theorem out_raise (cfg : Config) (d : Diag) (s : State) : (s.raise cfg d).out = s.out := by simp [raise_eq]
@[simp] theorem eventCounters_raise (cfg : Config) (d : Diag) (s : State) :
    (s.raise cfg d).eventCounters = s.eventCounters := by simp [raise_eq]
@[simp] theorem scan_raise (cfg : Config) (d : Diag) (s : State) : (s.raise cfg d).scan = s.scan := by simp [raise_eq]
@[simp] theorem lookup_raise (cfg : Config) (d : Diag) (s : State) : (s.raise cfg d).lookup = s.lookup := by
  simp [raise_eq]
@[simp] theorem counterPort_raise (cfg : Config) (d : Diag) (s : State) :
    (s.raise cfg d).counterPort = s.counterPort := by simp [raise_eq]
@[simp] theorem host_raise (cfg : Config) (d : Diag) (s : State) : (s.raise cfg d).host = s.host := by simp [raise_eq]
@[simp] theorem inputs_raise (cfg : Config) (d : Diag) (s : State) : (s.raise cfg d).inputs = s.inputs := by
  simp [raise_eq]
@[simp] theorem cnt_raise (cfg : Config) (d : Diag) (s : State) :
    (s.raise cfg d).cnt = (s.count cfg d).cnt := by simp [raise_eq]
@[simp] theorem slotAt_raise (cfg : Config) (d : Diag) (m : Mag) (s : State) :
    (s.raise cfg d).slotAt m = s.slotAt m := by simp [State.slotAt]
theorem mode_raise (cfg : Config) (d : Diag) (s : State) :
    (s.raise cfg d).mode = if d.structural then .sync else s.mode := by simp [raise_eq]

/-- `raise D` moves the counter of `D` and no other (R212). -/
theorem counter_raise (cfg : Config) (d : Diag) (i : Fin 8) (s : State) :
    (s.raise cfg d).counter i = if i = d.code then bump cfg (s.counter i) else s.counter i := by
  rw [← counter_count]; simp [State.counter]

/-- `raise D` that ends the scan (R213, R162). -/
theorem raiseAndEnd_eq (cfg : Config) (d : Diag) (s : State) :
    s.raiseAndEnd cfg d = { s with
      cnt := s.cnt.set d.code.val (bump cfg (s.counter d.code)) d.code.isLt
      mode := if d.structural then .sync else s.mode
      scan := none } := by
  simp [State.raiseAndEnd, raise_eq, State.endScan]

/-! ### Pages -/

/-- `PKT.HDR` step 1 (R166): nothing for an empty slot; else the page is emitted and the slot emptied. -/
theorem closePage_cases (m : Mag) (s : State) :
    (s.slotAt m = none ∧ s.closePage m = s) ∨
    ∃ p, s.slotAt m = some p ∧ s.closePage m = (s.emit p).setSlot m none := by
  unfold State.closePage
  cases h : s.slotAt m with
  | none => exact .inl ⟨rfl, rfl⟩
  | some p => exact .inr ⟨p, rfl, rfl⟩

/-- After step 1 of `PKT.HDR` the slot is empty (R166). -/
@[simp] theorem slotAt_closePage_same (m : Mag) (s : State) : (s.closePage m).slotAt m = none := by
  obtain ⟨h, e⟩ | ⟨p, h, e⟩ := closePage_cases m s <;> simp [e, h]

/-- A row is stored where a page is open, and dropped where none is (R173, R174). -/
theorem storeRow_cases (m : Mag) (k : PacketNo) (d : List Char7) (s : State) :
    (s.slotAt m = none ∧ s.storeRow m k d = s) ∨
    ∃ p, s.slotAt m = some p ∧
      s.storeRow m k d = s.setSlot m (some { p with lines := assocInsert k.toNat d p.lines }) := by
  unfold State.storeRow
  cases h : s.slotAt m with
  | none => exact .inl ⟨rfl, rfl⟩
  | some p => exact .inr ⟨p, rfl, rfl⟩

/-! Step 1 of `PKT.HDR` writes a slot, `OUT` and the consumer, and nothing else. -/

@[simp] theorem mode_closePage (m : Mag) (s : State) : (s.closePage m).mode = s.mode := by
  obtain ⟨_, e⟩ | ⟨_, _, e⟩ := closePage_cases m s <;> simp [e]
@[simp] theorem ts_closePage (m : Mag) (s : State) : (s.closePage m).ts = s.ts := by
  obtain ⟨_, e⟩ | ⟨_, _, e⟩ := closePage_cases m s <;> simp [e]
@[simp] theorem buf_closePage (m : Mag) (s : State) : (s.closePage m).buf = s.buf := by
  obtain ⟨_, e⟩ | ⟨_, _, e⟩ := closePage_cases m s <;> simp [e]
@[simp] theorem cnt_closePage (m : Mag) (s : State) : (s.closePage m).cnt = s.cnt := by
  obtain ⟨_, e⟩ | ⟨_, _, e⟩ := closePage_cases m s <;> simp [e]
@[simp] theorem scan_closePage (m : Mag) (s : State) : (s.closePage m).scan = s.scan := by
  obtain ⟨_, e⟩ | ⟨_, _, e⟩ := closePage_cases m s <;> simp [e]
@[simp] theorem lookup_closePage (m : Mag) (s : State) : (s.closePage m).lookup = s.lookup := by
  obtain ⟨_, e⟩ | ⟨_, _, e⟩ := closePage_cases m s <;> simp [e]
@[simp] theorem counterPort_closePage (m : Mag) (s : State) : (s.closePage m).counterPort = s.counterPort := by
  obtain ⟨_, e⟩ | ⟨_, _, e⟩ := closePage_cases m s <;> simp [e]
@[simp] theorem inputs_closePage (m : Mag) (s : State) : (s.closePage m).inputs = s.inputs := by
  obtain ⟨_, e⟩ | ⟨_, _, e⟩ := closePage_cases m s <;> simp [e]

/-! Storing a row writes a slot and nothing else. -/

@[simp] theorem mode_storeRow (m : Mag) (k : PacketNo) (d : List Char7) (s : State) :
    (s.storeRow m k d).mode = s.mode := by
  obtain ⟨_, e⟩ | ⟨_, _, e⟩ := storeRow_cases m k d s <;> simp [e]
@[simp] theorem ts_storeRow (m : Mag) (k : PacketNo) (d : List Char7) (s : State) :
    (s.storeRow m k d).ts = s.ts := by
  obtain ⟨_, e⟩ | ⟨_, _, e⟩ := storeRow_cases m k d s <;> simp [e]
@[simp] theorem buf_storeRow (m : Mag) (k : PacketNo) (d : List Char7) (s : State) :
    (s.storeRow m k d).buf = s.buf := by
  obtain ⟨_, e⟩ | ⟨_, _, e⟩ := storeRow_cases m k d s <;> simp [e]
@[simp] theorem cnt_storeRow (m : Mag) (k : PacketNo) (d : List Char7) (s : State) :
    (s.storeRow m k d).cnt = s.cnt := by
  obtain ⟨_, e⟩ | ⟨_, _, e⟩ := storeRow_cases m k d s <;> simp [e]
@[simp] theorem scan_storeRow (m : Mag) (k : PacketNo) (d : List Char7) (s : State) :
    (s.storeRow m k d).scan = s.scan := by
  obtain ⟨_, e⟩ | ⟨_, _, e⟩ := storeRow_cases m k d s <;> simp [e]
@[simp] theorem lookup_storeRow (m : Mag) (k : PacketNo) (d : List Char7) (s : State) :
    (s.storeRow m k d).lookup = s.lookup := by
  obtain ⟨_, e⟩ | ⟨_, _, e⟩ := storeRow_cases m k d s <;> simp [e]
@[simp] theorem counterPort_storeRow (m : Mag) (k : PacketNo) (d : List Char7) (s : State) :
    (s.storeRow m k d).counterPort = s.counterPort := by
  obtain ⟨_, e⟩ | ⟨_, _, e⟩ := storeRow_cases m k d s <;> simp [e]
@[simp] theorem inputs_storeRow (m : Mag) (k : PacketNo) (d : List Char7) (s : State) :
    (s.storeRow m k d).inputs = s.inputs := by
  obtain ⟨_, e⟩ | ⟨_, _, e⟩ := storeRow_cases m k d s <;> simp [e]
@[simp] theorem out_storeRow (m : Mag) (k : PacketNo) (d : List Char7) (s : State) :
    (s.storeRow m k d).out = s.out := by
  obtain ⟨_, e⟩ | ⟨_, _, e⟩ := storeRow_cases m k d s <;> simp [e]
@[simp] theorem eventCounters_storeRow (m : Mag) (k : PacketNo) (d : List Char7) (s : State) :
    (s.storeRow m k d).eventCounters = s.eventCounters := by
  obtain ⟨_, e⟩ | ⟨_, _, e⟩ := storeRow_cases m k d s <;> simp [e]
@[simp] theorem host_storeRow (m : Mag) (k : PacketNo) (d : List Char7) (s : State) :
    (s.storeRow m k d).host = s.host := by
  obtain ⟨_, e⟩ | ⟨_, _, e⟩ := storeRow_cases m k d s <;> simp [e]

/-- What a header does after closing the page: count a code error, nothing (filler), or open a page. -/
theorem openPage_cases (cfg : Config) (m : Mag) (body : List Byte) (s : State) :
    openPage cfg m body s = s.raise cfg .codeError ∨ openPage cfg m body s = s ∨
    ∃ f h, readHeader body = some f ∧ f.relativePage ≤ 99 ∧ parText (headerText body) = some h ∧
      openPage cfg m body s = s.setSlot m (some (newPage m f h s.ts)) := by
  unfold openPage
  split
  · exact .inl rfl
  · next f hf =>
    split
    · exact .inr (.inl rfl)
    · next hr =>
      split
      · exact .inl rfl
      · next h hh => exact .inr (.inr ⟨f, h, hf, by simpa using hr, hh, rfl⟩)

/-- What a row does: count a code error, or store the decoded row. -/
theorem row_cases (cfg : Config) (k : PacketNo) (m : Mag) (body : List Byte) (s : State) :
    (parText body = none ∧ row cfg k m body s = s.raise cfg .codeError) ∨
    ∃ d, parText body = some d ∧ row cfg k m body s = s.storeRow m k d := by
  unfold row
  cases h : parText body with
  | none => exact .inl ⟨rfl, rfl⟩
  | some d => exact .inr ⟨d, rfl, rfl⟩

/-! ### The lines and the records, as one list of what can happen -/

/-- Everything a well-framed line can do (R164, R165). -/
theorem framedLine_cases (cfg : Config) (mb pb : Byte) (body : List Byte) (s : State) :
    framedLine cfg mb pb body s = s.raise cfg .codeError ∨ framedLine cfg mb pb body s = s ∨
    (∃ m, decodeAddress mb pb = .hdr m ∧ framedLine cfg mb pb body s = openPage cfg m body (s.closePage m)) ∨
    ∃ k m, decodeAddress mb pb = .row k m ∧ framedLine cfg mb pb body s = row cfg k m body s := by
  unfold framedLine
  cases h : decodeAddress mb pb with
  | hdr m => exact .inr (.inr (.inl ⟨m, rfl, rfl⟩))
  | row k m => exact .inr (.inr (.inr ⟨k, m, rfl, rfl⟩))
  | ext k m => exact .inr (.inl rfl)
  | addrErr => exact .inl rfl

/-- Everything `DecodeLine` can do (R178). -/
theorem dataLine_cases (cfg : Config) (bytes : List Byte) (s : State) :
    dataLine cfg bytes s = s ∨ dataLine cfg bytes s = s.raiseAndEnd cfg .badFraming ∨
    ∃ mb pb body, dataLine cfg bytes s = framedLine cfg mb pb body s := by
  unfold dataLine
  split
  · next mb pb body =>
    split
    · exact .inr (.inr ⟨mb, pb, body, rfl⟩)
    · exact .inr (.inl rfl)
  · exact .inl rfl

/-- Everything a record can do (R144 to R146). -/
theorem record_cases (cfg : Config) (t : Byte) (body : List Byte) (s : State) :
    record cfg t body s = s ∨ record cfg t body s = s.raise cfg .unknownLineType ∨
    record cfg t body s = s.raiseAndEnd cfg .badLineLength ∨
    (body.length = 44 ∧ record cfg t body s = dataLine cfg body s) := by
  unfold record
  split
  · unfold lineRecord
    split
    · next h => exact .inr (.inr (.inr ⟨h, rfl⟩))
    · exact .inr (.inr (.inl rfl))
  · exact .inl rfl
  · exact .inr (.inl rfl)

/-- The induction over what a record does, packaged once: a relation that holds of the state itself, is kept by
counting a diagnostic, by ending the scan, by closing a page, by opening one and by storing a row, holds of the
state after any record. -/
theorem record_induction (cfg : Config) (R : State → Prop) (t : Byte) (body : List Byte) (s : State) (h0 : R s)
    (hraise : ∀ d u, R u → R (u.raise cfg d)) (hend : ∀ u, R u → R u.endScan)
    (hclose : ∀ m u, R u → R (u.closePage m))
    (hopen : ∀ m f h u, f.relativePage ≤ 99 → h.length = 32 → R u → R (u.setSlot m (some (newPage m f h u.ts))))
    (hstore : ∀ m k d u, (1#5 ≤ k ∧ k ≤ 25#5) → d.length = 40 → R u → R (u.storeRow m k d)) :
    R (record cfg t body s) := by
  obtain e | e | e | ⟨hl, e⟩ := record_cases cfg t body s
  · rw [e]; exact h0
  · rw [e]; exact hraise _ _ h0
  · rw [e]; exact hend _ (hraise _ _ h0)
  rw [e]
  unfold dataLine
  split
  · next lb sb mb pb bd =>
    simp only [List.length_cons, Nat.reduceEqDiff] at hl
    split
    · obtain e | e | ⟨m, _, e⟩ | ⟨k, m, hk, e⟩ := framedLine_cases cfg mb pb bd s
      · rw [e]; exact hraise _ _ h0
      · rw [e]; exact h0
      · rw [e]
        obtain e | e | ⟨f, h, hf, hr, hh, e⟩ := openPage_cases cfg m bd (s.closePage m)
        · rw [e]; exact hraise _ _ (hclose _ _ h0)
        · rw [e]; exact hclose _ _ h0
        · rw [e]; exact hopen _ _ _ _ hr
            (by rw [parText_length _ _ hh]; simp [headerText, hl]) (hclose _ _ h0)
      · rw [e]
        obtain ⟨_, e⟩ | ⟨d, hd, e⟩ := row_cases cfg k m bd s
        · rw [e]; exact hraise _ _ h0
        · rw [e]
          refine hstore _ _ _ _ ?_ (by rw [parText_length _ _ hd, hl]) h0
          unfold decodeAddress packetKind at hk
          split at hk
          · split at hk
            · cases hk
            · next hz =>
              split at hk
              · next hle =>
                cases hk
                refine ⟨?_, hle⟩
                rw [BitVec.le_def]
                have : (packetOf _ _).toNat ≠ 0 := fun e0 => hz (BitVec.eq_of_toNat_eq e0)
                simp only [BitVec.toNat_ofNat]; omega
              · cases hk
          · cases hk
    · exact hend _ (hraise _ _ h0)
  · exact h0

/-! ### Outcomes -/

@[simp] theorem andThen_next (s : State) (f : State → Host.Outcome State Fault Refusal) :
    andThen (.next s) f = f s := rfl

/-- What follows a step that answers a next state answered one itself. -/
theorem andThen_eq_next (o : Host.Outcome State Fault Refusal) (f : State → Host.Outcome State Fault Refusal)
    (t : State) : andThen o f = .next t ↔ ∃ u, o = .next u ∧ f u = .next t := by
  cases o <;> simp [andThen]

/-- A transaction that answers a next state was issued between transactions. -/
theorem betweenTransactions_eq_next (s t : State) (o : Host.Outcome State Fault Refusal) :
    betweenTransactions s o = .next t ↔ s.scan = none ∧ o = .next t := by
  unfold betweenTransactions
  cases h : s.scan <;> simp

/-! ### The scan pointer -/

/-- Advancing moves the scan pointer and nothing else. -/
theorem advance_cases (n : Nat) (s : State) :
    (s.scan = none ∧ s.advance n = s) ∨
    ∃ sc, s.scan = some sc ∧ s.advance n = s.setScan (nextLevel sc.level) (sc.pos + n) sc.stop := by
  unfold State.advance
  cases h : s.scan with
  | none => exact .inl ⟨rfl, rfl⟩
  | some sc => exact .inr ⟨sc, rfl, rfl⟩

/-! ### Association lists -/

theorem assocFind_insert_same {α : Type} (k : Nat) (v : α) (l : List (Nat × α)) :
    assocFind k (assocInsert k v l) = some v := by
  induction l with
  | nil => simp [assocInsert, assocFind]
  | cons x l ih =>
    obtain ⟨a, w⟩ := x
    simp only [assocInsert]
    split
    · simp [assocFind]
    · split
      · simp [assocFind]
      · next h => simp [assocFind, h, ih]

theorem assocFind_insert_other {α : Type} (k n : Nat) (v : α) (l : List (Nat × α)) (h : n ≠ k) :
    assocFind n (assocInsert k v l) = assocFind n l := by
  induction l with
  | nil => simp [assocInsert, assocFind, h]
  | cons x l ih =>
    obtain ⟨a, w⟩ := x
    simp only [assocInsert]
    split
    · simp [assocFind, h]
    · split
      · next e => subst e; simp [assocFind, h]
      · simp [assocFind, ih]

theorem mem_assocInsert {α : Type} (k : Nat) (v : α) (l : List (Nat × α)) (x : Nat × α)
    (h : x ∈ assocInsert k v l) : x = (k, v) ∨ x ∈ l := by
  induction l with
  | nil => simpa [assocInsert] using h
  | cons y l ih =>
    obtain ⟨a, w⟩ := y
    simp only [assocInsert] at h
    split at h
    · simpa using h
    · split at h
      · simp only [List.mem_cons] at h ⊢; tauto
      · simp only [List.mem_cons] at h ⊢
        obtain h | h := h
        · exact .inr (.inl h)
        · obtain h | h := ih h
          · exact .inl h
          · exact .inr (.inr h)

theorem assocAbove_iff {α : Type} (lo : Nat) (l : List (Nat × α)) :
    assocAbove lo l = true ↔ ∀ x ∈ l, lo < x.1 := by simp [assocAbove]

/-- Storing keeps the canonical form: keys strictly rising. -/
theorem assocSorted_insert {α : Type} (k : Nat) (v : α) (l : List (Nat × α)) (h : assocSorted l = true) :
    assocSorted (assocInsert k v l) = true := by
  induction l with
  | nil => simp [assocInsert, assocSorted, assocAbove]
  | cons y l ih =>
    obtain ⟨a, w⟩ := y
    simp only [assocSorted, Bool.and_eq_true, assocAbove_iff] at h
    simp only [assocInsert]
    split
    · next hk =>
      simp only [assocSorted, Bool.and_eq_true, assocAbove_iff, List.mem_cons]
      refine ⟨?_, h⟩
      rintro x (rfl | hx)
      · exact hk
      · exact lt_trans hk (h.1 x hx)
    · split
      · next hk => subst hk; simp only [assocSorted, Bool.and_eq_true, assocAbove_iff]; exact h
      · next h1 h2 =>
        simp only [assocSorted, Bool.and_eq_true, assocAbove_iff]
        refine ⟨?_, ih h.2⟩
        intro x hx
        obtain rfl | hx := mem_assocInsert k v l x hx
        · simp only; omega
        · exact h.1 x hx

end Sys2Proof.Machine
end

