-- ==== Sys2Proof/Laws/PerInstr.lean ====
section
/-!
SUPPORT. Statements about every instruction as syntax, one lemma per constructor. `EncodedLength`: a well-formed
instruction is stored at the input port or as exactly the bytes its format has (R70): 1 for a data identifier, type,
length and as many body bytes as the length byte says for a record, 44 for a data line, 42 for an addressed packet,
1 for a code word.
-/

namespace Sys2Proof.Laws.EncodedLength

open Sys2Proof Sys2Proof.Machine

/-- What is stored has the length of its format. -/
def Fits : Encoded → Prop
  | .port _ => True
  | .word .unit bytes => bytes.length = 1
  | .word .record bytes => ∃ t n body, bytes = t :: n :: body ∧ body.length = n.toNat
  | .word .line bytes => bytes.length = 44
  | .word .packet bytes => bytes.length = 42
  | .word .ham84 bytes => bytes.length = 1
  | .word .oddpar bytes => bytes.length = 1

/-- A well-formed instruction is stored in the length of its format. -/
def Statement (i : Instr) : Prop := i.wf = true → Fits (encode i)

/-- A record whose body length is a byte says its own length. -/
theorem fits_record (t : Byte) (body : List Byte) (h : bodyFits body = true) :
    Fits (.word .record (recordBytes t body)) := by
  simp only [bodyFits, decide_eq_true_eq] at h
  refine ⟨t, _, body, rfl, ?_⟩
  simp only [BitVec.toNat_ofNat]
  omega

/-- An addressed packet is 42 bytes. -/
theorem fits_packet (m : Mag) (k : PacketNo) (body : List Byte) (h : bodyIsPacket body = true) :
    Fits (.word .packet (addrBytes m k ++ body)) := by
  simp only [bodyIsPacket, decide_eq_true_eq] at h
  simp [Fits, addrBytes, h]

theorem reset : Statement .reset := fun _ => trivial
theorem fragCont (data : List Byte) (ts : Timestamp) : Statement (.fragCont data ts) := fun _ => trivial
theorem fragStart (data : List Byte) (ts : Timestamp) : Statement (.fragStart data ts) := fun _ => trivial
theorem unitTtx (low : Nibble) : Statement (.unitTtx low) := fun _ => rfl
theorem unitUnknown (did : Byte) : Statement (.unitUnknown did) := fun _ => rfl
theorem recLine (second : Bool) (body : List Byte) : Statement (.recLine second body) := fun h => by
  cases second <;> exact fits_record _ body h
theorem recFill (body : List Byte) : Statement (.recFill body) := fun h => fits_record _ body h
theorem recUnk (t : Byte) (body : List Byte) : Statement (.recUnk t body) := fun h =>
  fits_record t body (Bool.and_eq_true_iff.mp h).2
theorem lineFramed (low : BitVec 6) (magByte packByte : Byte) (body : List Byte) :
    Statement (.lineFramed low magByte packByte body) := fun h => by
  simp only [Instr.wf, bodyIsPacket, decide_eq_true_eq] at h
  simp [encode, Fits, h]
theorem lineBadframe (lineByte syncByte : Byte) (rest : List Byte) :
    Statement (.lineBadframe lineByte syncByte rest) := fun h => by
  have := (Bool.and_eq_true_iff.mp h).2
  simp only [decide_eq_true_eq] at this
  simp [encode, Fits, this]
theorem pktHdr (m : Mag) (body : List Byte) : Statement (.pktHdr m body) := fun h => fits_packet m _ body h
theorem pktRow (k : PacketNo) (m : Mag) (body : List Byte) : Statement (.pktRow k m body) := fun h =>
  fits_packet m k body (Bool.and_eq_true_iff.mp h).2
theorem pktExt (k : PacketNo) (m : Mag) (body : List Byte) : Statement (.pktExt k m body) := fun h =>
  fits_packet m k body (Bool.and_eq_true_iff.mp h).2
theorem pktAddrErr (magByte packByte : Byte) (body : List Byte) :
    Statement (.pktAddrErr magByte packByte body) := fun h => by
  have := (Bool.and_eq_true_iff.mp h).2
  simp only [bodyIsPacket, decide_eq_true_eq] at this
  simp [encode, Fits, this]
theorem h84 (v : Nibble) : Statement (.h84 v) := fun _ => rfl
theorem h84Invalid (b : Byte) : Statement (.h84Invalid b) := fun _ => rfl
theorem par (c : Char7) : Statement (.par c) := fun _ => rfl
theorem parInvalid (b : Byte) : Statement (.parInvalid b) := fun _ => rfl
theorem hostReadCounter (i : Fin 8) : Statement (.hostReadCounter i) := fun _ => trivial
theorem hostSetCurrentPage (n : Option Nat) : Statement (.hostSetCurrentPage n) := fun _ => trivial
theorem hostDeactivate (r : Bool) : Statement (.hostDeactivate r) := fun _ => trivial
theorem hostPages : Statement .hostPages := fun _ => trivial
theorem hostOnPageCompleted (p : Page) : Statement (.hostOnPageCompleted p) := fun _ => trivial

end Sys2Proof.Laws.EncodedLength
end

