-- ==== Sys2Proof/Laws/Scan.lean ====
section
/-!
SUPPORT. The laws of the record scan (R141 to R150): what a fetch gives, what one round does, and the induction over a
whole scan, packaged once.
-/

namespace Sys2Proof.Machine

open Sys2Proof

/-- What a fetched record is (R74, R142, R143). -/
theorem fetchRecord_found (m : Memory) (pos stop : Nat) (t n : Byte) (body : List Byte)
    (h : fetchRecord m pos stop = .found t n body) :
    pos + 2 + n.toNat ≤ stop ∧ m.read pos = some t ∧ m.read (pos + 1) = some n ∧
      m.readBytes (pos + 2) n.toNat = some body := by
  unfold fetchRecord at h
  split at h
  · cases h
  · split at h
    · cases h
    · split at h
      · split at h
        · cases h
        · split at h
          · cases h
            exact ⟨by omega, ‹_›, ‹_›, ‹_›⟩
          · cases h
      · cases h

/-- Inside a complete accumulator no record fetch reads an address that holds no byte (R10). -/
theorem fetchRecord_not_missing (m : Memory) (hw : m.wf = true) (hc : m.complete = true) (pos stop : Nat)
    (hs : stop ≤ m.len) (a n : Nat) : fetchRecord m pos stop ≠ .missing a n := by
  intro h
  unfold fetchRecord at h
  split at h
  · cases h
  · split at h
    · cases h
    · obtain ⟨t, ht⟩ := m.read_isSome hw hc pos (by omega)
      obtain ⟨k, hk⟩ := m.read_isSome hw hc (pos + 1) (by omega)
      simp only [ht, hk] at h
      split at h
      · cases h
      · obtain ⟨bs, hbs⟩ := m.readBytes_isSome hw hc k.toNat (pos + 2) (by omega)
        simp [hbs] at h

/-- Everything one round of the scan can do (R149). -/
theorem scanRound_cases (cfg : Config) (pos stop : Nat) (s t : State) (h : scanRound cfg pos stop s = .next t) :
    (stop ≤ pos ∧ t = s.endScan) ∨ (pos < stop ∧ t = s.raiseAndEnd cfg .badLineLength) ∨
    ∃ ty n body, fetchRecord s.buf pos stop = .found ty n body ∧
      t = (record cfg ty body s).advance (2 + n.toNat) := by
  unfold scanRound at h
  split at h
  · next he =>
    cases h
    refine .inl ⟨?_, rfl⟩
    unfold fetchRecord at he
    split at he
    · assumption
    · split at he
      · cases he
      · split at he
        · split at he
          · cases he
          · split at he <;> cases he
        · cases he
  · next he =>
    cases h
    refine .inr (.inl ⟨?_, rfl⟩)
    unfold fetchRecord at he
    split at he
    · cases he
    · omega
  · next ty n body hf => cases h; exact .inr (.inr ⟨ty, n, body, hf, rfl⟩)
  · cases h

/-- A scan that answers a next state has ended (R141, R148). -/
theorem scanLoop_scan (cfg : Config) : ∀ fuel s t, scanLoop cfg fuel s = .next t → t.scan = none := by
  intro fuel
  induction fuel with
  | zero => intro s t h; cases h
  | succ fuel ih =>
    intro s t h
    simp only [scanLoop] at h
    split at h
    · cases h; assumption
    · obtain ⟨u, _, hu⟩ := (andThen_eq_next _ _ _).mp h
      exact ih _ _ hu

/-- The induction over a scan, packaged once: a property kept by every record, by `BadLineLength`, by the end of the
scan and by the advance of the scan pointer holds when the scan has ended. -/
theorem scanLoop_induction (cfg : Config) (R : State → Prop)
    (hrec : ∀ ty body s, R s → R (record cfg ty body s))
    (hbad : ∀ s, R s → R (s.raiseAndEnd cfg .badLineLength)) (hend : ∀ s, R s → R s.endScan)
    (hadv : ∀ n s, R s → R (s.advance n)) :
    ∀ fuel s t, R s → scanLoop cfg fuel s = .next t → R t := by
  intro fuel
  induction fuel with
  | zero => intro s t _ h; cases h
  | succ fuel ih =>
    intro s t h0 h
    simp only [scanLoop] at h
    split at h
    · cases h; exact h0
    · next sc hsc =>
      obtain ⟨u, h1, hu⟩ := (andThen_eq_next _ _ _).mp h
      refine ih u t ?_ hu
      obtain ⟨_, rfl⟩ | ⟨_, rfl⟩ | ⟨ty, n, body, _, rfl⟩ := scanRound_cases _ _ _ _ _ h1
      · exact hend _ h0
      · exact hbad _ h0
      · exact hadv _ _ (hrec _ _ _ h0)

/-- The same induction with the record's parts named: what the slots, the counters and the output go through. -/
theorem dispatch_induction (cfg : Config) (R : State → Prop)
    (hraise : ∀ d s, R s → R (s.raise cfg d)) (hscan : ∀ sc s, R s → R { s with scan := sc })
    (hclose : ∀ m s, R s → R (s.closePage m))
    (hopen : ∀ m f h s, f.relativePage ≤ 99 → h.length = 32 → R s → R (s.setSlot m (some (newPage m f h s.ts))))
    (hstore : ∀ m k d s, (1#5 ≤ k ∧ k ≤ 25#5) → d.length = 40 → R s → R (s.storeRow m k d)) :
    ∀ start stop s t, R s → dispatch cfg start stop s = .next t → R t := by
  intro start stop s t h0 h
  refine scanLoop_induction cfg R ?_ ?_ ?_ ?_ _ _ _ (hscan (some _) s h0) h
  · intro ty body u hu
    exact record_induction cfg R ty body u hu hraise (fun v hv => hscan none v hv) hclose hopen hstore
  · intro u hu; exact hscan none _ (hraise _ _ hu)
  · intro u hu; exact hscan none _ hu
  · intro n u hu
    obtain ⟨_, e⟩ | ⟨sc, _, e⟩ := advance_cases n u
    · rw [e]; exact hu
    · rw [e]; exact hscan (some _) _ hu

/-- A record leaves the accumulator, the timestamp and the queue alone (R36, R61). -/
theorem record_frame (cfg : Config) (ty : Byte) (body : List Byte) (s : State) :
    (record cfg ty body s).buf = s.buf ∧ (record cfg ty body s).ts = s.ts ∧
      (record cfg ty body s).inputs = s.inputs ∧ (record cfg ty body s).lookup = s.lookup ∧
      (record cfg ty body s).counterPort = s.counterPort := by
  refine record_induction cfg (fun u => u.buf = s.buf ∧ u.ts = s.ts ∧ u.inputs = s.inputs ∧ u.lookup = s.lookup ∧
    u.counterPort = s.counterPort) ty body s ⟨rfl, rfl, rfl, rfl, rfl⟩ ?_ ?_ ?_ ?_ ?_
  · intro d u h; simpa using h
  · intro u h; simpa using h
  · intro m u h
    obtain ⟨_, e⟩ | ⟨p, _, e⟩ := closePage_cases m u <;> simpa [e] using h
  · intro m f hd u _ _ h; simpa using h
  · intro m k d u _ _ h
    obtain ⟨_, e⟩ | ⟨p, _, e⟩ := storeRow_cases m k d u <;> simpa [e] using h

/-- A record ends the scan or leaves the scan pointer where it is (R147, R148). -/
theorem record_scan (cfg : Config) (ty : Byte) (body : List Byte) (s : State) :
    (record cfg ty body s).scan = none ∨ (record cfg ty body s).scan = s.scan := by
  refine record_induction cfg (fun u => u.scan = none ∨ u.scan = s.scan) ty body s (.inr rfl) ?_ ?_ ?_ ?_ ?_
  · intro d u h; simpa using h
  · intro u h; simp
  · intro m u h
    obtain ⟨_, e⟩ | ⟨p, _, e⟩ := closePage_cases m u <;> simpa [e] using h
  · intro m f hd u _ _ h; simpa using h
  · intro m k d u _ _ h
    obtain ⟨_, e⟩ | ⟨p, _, e⟩ := storeRow_cases m k d u <;> simpa [e] using h

/-- A scan inside a complete accumulator ends within its bound and answers a next state (R150, R210). -/
theorem scanLoop_completes (cfg : Config) (m : Memory) (hw : m.wf = true) (hc : m.complete = true) :
    ∀ fuel (s : State), s.buf = m →
      (∀ sc, s.scan = some sc → sc.level = .record ∧ sc.stop ≤ m.len ∧ sc.stop - sc.pos + 2 ≤ fuel) →
      (s.scan = none → 1 ≤ fuel) → ∃ t, scanLoop cfg fuel s = .next t := by
  intro fuel
  induction fuel with
  | zero =>
    intro s _ h1 h2
    cases hs : s.scan with
    | none => exact absurd (h2 hs) (by omega)
    | some sc => exact absurd (h1 sc hs).2.2 (by omega)
  | succ fuel ih =>
    intro s hb h1 h2
    simp only [scanLoop]
    cases hs : s.scan with
    | none => exact ⟨s, rfl⟩
    | some sc =>
      obtain ⟨hl, hst, hf⟩ := h1 sc hs
      have go : ∀ u, scanRound cfg sc.pos sc.stop s = .next u →
          (u.buf = m) → (∀ sc', u.scan = some sc' →
            sc'.level = .record ∧ sc'.stop ≤ m.len ∧ sc'.stop - sc'.pos + 2 ≤ fuel) →
          ∃ t, andThen (scanRound cfg sc.pos sc.stop s) (scanLoop cfg fuel) = .next t := by
        intro u hu hub hus
        rw [hu]
        exact ih u hub hus (fun _ => by omega)
      cases hfr : fetchRecord s.buf sc.pos sc.stop with
      | ended =>
        refine go s.endScan (by simp [scanRound, hfr]) (by simpa using hb) (by simp)
      | badLength =>
        refine go (s.raiseAndEnd cfg .badLineLength) (by simp [scanRound, hfr]) ?_ ?_
        · simpa [raiseAndEnd_eq] using hb
        · simp [raiseAndEnd_eq]
      | missing a n => exact absurd hfr (by rw [hb]; exact fetchRecord_not_missing m hw hc _ _ hst a n)
      | found ty n body =>
        have hfd := fetchRecord_found _ _ _ _ _ _ hfr
        refine go ((record cfg ty body s).advance (2 + n.toNat)) (by simp [scanRound, hfr]) ?_ ?_
        · have hbuf := (record_frame cfg ty body s).1
          obtain ⟨_, e⟩ | ⟨sc', _, e⟩ := advance_cases (2 + n.toNat) (record cfg ty body s) <;>
            simp [e, hbuf, hb]
        · intro sc' hsc'
          obtain ⟨hn, e⟩ | ⟨sc1, hn, e⟩ := advance_cases (2 + n.toNat) (record cfg ty body s)
          · rw [e, hn] at hsc'; cases hsc'
          · rw [e] at hsc'
            simp only [scan_setScan, Option.some.injEq] at hsc'
            subst hsc'
            obtain h | h := record_scan cfg ty body s
            · rw [h] at hn; cases hn
            · rw [h, hs] at hn
              cases hn
              refine ⟨by rw [hl]; rfl, hst, ?_⟩
              simp only
              omega

/-- `Dispatch` on a payload inside a complete accumulator answers a next state (R149, R150). -/
theorem dispatch_completes (cfg : Config) (start stop : Nat) (s : State) (hw : s.buf.wf = true)
    (hc : s.buf.complete = true) (hs : stop ≤ s.buf.len) : ∃ t, dispatch cfg start stop s = .next t := by
  refine scanLoop_completes cfg s.buf hw hc _ _ rfl ?_ (by simp)
  intro sc h
  simp only [scan_setScan, Option.some.injEq] at h
  subst h
  exact ⟨rfl, hs, by simp⟩

end Sys2Proof.Machine
end

