-- ==== Sys2Proof/Machine/Stimulus.lean ====
section
/-!
DEFINITION. The pseudo-operations of the stimulus notation (spec file 30_encoding.md, rule R87), for stimulus and tests
only: the block contains no encoder (R110). `H` is `hamCode`, `P` is `parCode`, `ADDR` is `addrBytes` and `REC` is
`recordBytes`.
-/

namespace Sys2Proof.Machine

open Sys2Proof

/-- `TEXT(s, n)`: the characters padded on the right with spaces to `n`, each as its odd-parity code word. -/
def textBytes (s : List Char7) (n : Nat) : List Byte :=
  (s ++ List.replicate (n - s.length) 0x20#7).map parCode

/-- The body of a header line: the eight fields in the order of R80, then 32 characters of text. -/
def headerBody (tens units s1 s2c4 s3 s4c5c6 c7_10 c11_14 : Nibble) (s : List Char7) : List Byte :=
  [hamCode units, hamCode tens, hamCode s1, hamCode s2c4, hamCode s3, hamCode s4c5c6, hamCode c7_10, hamCode c11_14]
    ++ textBytes s Config.hdrTextLen

/-- `HDRLINE(m, tens, units, s1, s2c4, s3, s4c5c6, c7_10, c11_14, s)`. -/
def headerLine (m : Mag) (tens units s1 s2c4 s3 s4c5c6 c7_10 c11_14 : Nibble) (s : List Char7) : List Byte :=
  0xE7#8 :: Config.syncByte :: addrBytes m 0#5 ++ headerBody tens units s1 s2c4 s3 s4c5c6 c7_10 c11_14 s

/-- `ROWLINE(m, k, s)`. -/
def rowLine (m : Mag) (k : PacketNo) (s : List Char7) : List Byte :=
  0xE8#8 :: Config.syncByte :: addrBytes m k ++ textBytes s Config.rowLen

/-- `PES(hl, did, records)`: a unit whose length field is right. -/
def pesUnit (hl did : Byte) (records : List Byte) : List Byte :=
  let rest := [0x84#8, 0x80#8, hl] ++ List.replicate hl.toNat 0xFF#8 ++ [did] ++ records
  [0#8, 0#8, 1#8, 0xBD#8, BitVec.ofNat 8 (rest.length / 256), BitVec.ofNat 8 rest.length] ++ rest

end Sys2Proof.Machine
end

