-- ==== Sys2Proof/Tests/Slice0.lean ====
section
/-!
SUPPORT. Tests. Every expected result is taken from the spec: its test vectors (95_test_vectors.md, named S or T), its
tables and its worked examples. The last part shows, for every statement with hypotheses, a concrete state and operands
that meet them.
-/

namespace Sys2Proof.Tests

open Sys2Proof Sys2Proof.Machine Sys2Proof.Claims

/-! ### Small states -/

/-- 32 spaces, the text of an empty header. -/
def blanks : List Char7 := List.replicate 32 0x20#7

/-- Forty code words of the space character. -/
def blankRow : List Byte := List.replicate 40 0x04#8

def noFlags : PageFlags :=
  { erase := false, isSubtitle := false, flash := false, hide := false, noHeader := false
    outOfSequence := false, updated := false, magazineSerial := false, nationalOptions := 0#3 }

/-- Page 123 of magazine 1, sub-page 12. -/
def page123 : Page :=
  { magazine := 1#3, relativePage := 23, page := 123, subPage := 12, header := blanks, flags := noFlags, lines := []
    timeStamp := 50#64 }

/-- A row for `page123`. -/
def row7 : Nat × List Char7 := (7, List.replicate 40 0x2A#7)

/-- `page123` with row 7. -/
def page123r : Page := { page123 with lines := [row7] }

/-- The block filling, with `data` in `BUF` and page 123 open. -/
def filling (data : List Byte) : State :=
  { State.reset with
    mode := .fill
    ts := 50#64
    buf := Memory.ofBytes data
    slot := State.reset.slot.set 1 (some page123r)
    host := { State.reset.host with enabled := true, current := some 123, subscriber := true } }

/-- The block in the middle of a unit `data`. -/
def scanning (level : Level) (pos stop : Nat) (data : List Byte) : State :=
  { filling data with scan := some { level := level, pos := pos, stop := stop } }

/-- The terminator unit of 95_test_vectors.md: ten bytes, no records. -/
def terminator : List Byte := [0#8, 0#8, 1#8, 0xBD#8, 0#8, 4#8, 0x84#8, 0x80#8, 0#8, 0x10#8]

/-- The state after an instruction that answers one, and a projection of it. -/
def look {α : Type} (f : State → α) (o : Host.Outcome State Fault Refusal) : Option α :=
  match o with
  | .next s => some (f s)
  | .fault _ => none
  | .refused _ => none

/-- The counters as a list, in the order of R30. -/
def counters (s : State) : List Nat := s.cnt.toList

/-- `PES(hl, did, records)` with the length field as R87 gives it. -/
def unitOf (did : Byte) (records : List Byte) : List Byte := pesUnit 0#8 did records

/-! ### Well-formedness: one ill-formed term per check -/

theorem test_wf_bodyFits : (Instr.recFill (List.replicate 256 0#8)).wf = false := by decide +kernel
theorem test_wf_bodyFits_line : (Instr.recLine true (List.replicate 256 0#8)).wf = false := by decide +kernel
theorem test_wf_didUnknown : (Instr.unitUnknown 0x1F#8).wf = false := by decide
theorem test_wf_typeUnknown : (Instr.recUnk 0x03#8 []).wf = false := by decide
theorem test_wf_wellFramed : (Instr.lineBadframe 0xC0#8 0xE4#8 (List.replicate 42 0#8)).wf = false := by decide
theorem test_wf_badframe_length : (Instr.lineBadframe 0xC0#8 0xE5#8 []).wf = false := by decide
theorem test_wf_bodyIsPacket : (Instr.pktHdr 1#3 (List.replicate 41 0#8)).wf = false := by decide
theorem test_wf_framed_length : (Instr.lineFramed 0#6 0xA8#8 0xA8#8 []).wf = false := by decide
theorem test_wf_isRowNo : (Instr.pktRow 26#5 1#3 blankRow).wf = false := by decide
theorem test_wf_isRowNo_zero : (Instr.pktRow 0#5 1#3 blankRow).wf = false := by decide
theorem test_wf_isExtNo : (Instr.pktExt 25#5 1#3 blankRow).wf = false := by decide
theorem test_wf_addressInvalid : (Instr.pktAddrErr 0xA8#8 0x40#8 blankRow).wf = false := by decide
theorem test_wf_h84 : (Instr.h84Invalid 0xA8#8).wf = false := by decide
theorem test_wf_par : (Instr.parInvalid 0x04#8).wf = false := by decide
theorem test_wf_relativePage :
    (Instr.hostOnPageCompleted { page123 with relativePage := 100, page := 200 }).wf = false := by decide
theorem test_wf_page : (Instr.hostOnPageCompleted { page123 with page := 124 }).wf = false := by decide
theorem test_wf_subPage : (Instr.hostOnPageCompleted { page123 with subPage := 4586 }).wf = false := by decide
theorem test_wf_header : (Instr.hostOnPageCompleted { page123 with header := [] }).wf = false := by decide
theorem test_wf_row_number :
    (Instr.hostOnPageCompleted { page123 with lines := [(26, row7.2)] }).wf = false := by decide
theorem test_wf_row_length : (Instr.hostOnPageCompleted { page123 with lines := [(7, [])] }).wf = false := by decide
theorem test_wf_rows_sorted :
    (Instr.hostOnPageCompleted { page123 with lines := [row7, row7] }).wf = false := by decide
theorem test_wf_page_good : (Instr.hostOnPageCompleted page123r).wf = true := by decide

/-! ### Decoding: every constructor from a word written out from the spec -/

/-- R71. -/
theorem test_decode_reset : decode (.port .reset) = .ok .reset := rfl
theorem test_decode_fragCont : decode (.port (.frag false [0xBD#8] 7#64)) = .ok (.fragCont [0xBD#8] 7#64) := rfl
theorem test_decode_fragStart : decode (.port (.frag true [] 1#64)) = .ok (.fragStart [] 1#64) := rfl
/-- R73: the bounds of the recognised range. -/
theorem test_decode_unitTtx :
    decode (.word .unit [0b00010000#8]) = .ok (.unitTtx 0#4) ∧ decode (.word .unit [0b00011111#8]) = .ok (.unitTtx 15#4) :=
  ⟨by decide, by decide⟩
theorem test_decode_unitUnknown :
    decode (.word .unit [0x0F#8]) = .ok (.unitUnknown 0x0F#8) ∧
      decode (.word .unit [0x20#8]) = .ok (.unitUnknown 0x20#8) := ⟨by decide, by decide⟩
/-- R75: types 0x02 and 0x03. -/
theorem test_decode_recLine :
    decode (.word .record [0b00000010#8, 1#8, 9#8]) = .ok (.recLine false [9#8]) ∧
      decode (.word .record [0b00000011#8, 1#8, 9#8]) = .ok (.recLine true [9#8]) := ⟨by decide, by decide⟩
/-- R145: the worked example `FF 02 FF FF`. -/
theorem test_decode_recFill :
    decode (.word .record [0xFF#8, 0x02#8, 0xFF#8, 0xFF#8]) = .ok (.recFill [0xFF#8, 0xFF#8]) := by decide
/-- R146: the worked example `01 03 AA BB CC`. -/
theorem test_decode_recUnk :
    decode (.word .record [0x01#8, 0x03#8, 0xAA#8, 0xBB#8, 0xCC#8]) =
      .ok (.recUnk 1#8 [0xAA#8, 0xBB#8, 0xCC#8]) := by decide
/-- A record whose body is not as long as its length byte says is rejected by name. -/
theorem test_decode_record_rejected :
    decode (.word .record [0xFF#8, 0x02#8, 0xFF#8]) = .error .recordBodyLength := by decide
/-- R77, R87: `E7 E4`. -/
theorem test_decode_lineFramed :
    decode (.word .line (0xE7#8 :: 0xE4#8 :: 0xA8#8 :: 0xA8#8 :: blankRow)) =
      .ok (.lineFramed 0x27#6 0xA8#8 0xA8#8 blankRow) := by decide
/-- P4: lineByte A8, then syncByte E5. -/
theorem test_decode_lineBadframe :
    decode (.word .line (0xA8#8 :: 0xE4#8 :: 0xA8#8 :: 0xA8#8 :: blankRow)) =
        .ok (.lineBadframe 0xA8#8 0xE4#8 (0xA8#8 :: 0xA8#8 :: blankRow)) ∧
      decode (.word .line (0xE8#8 :: 0xE5#8 :: 0xA8#8 :: 0xA8#8 :: blankRow)) =
        .ok (.lineBadframe 0xE8#8 0xE5#8 (0xA8#8 :: 0xA8#8 :: blankRow)) := ⟨by decide, by decide⟩
/-- P1: address `40 A8` is magazine 1, packet 0. -/
theorem test_decode_pktHdr :
    decode (.word .packet (0b01000000#8 :: 0b10101000#8 :: blankRow)) = .ok (.pktHdr 1#3 blankRow) := by decide
/-- S10: `magRaw = 9` (E3), `packRaw = 0` (A8); `magRaw = 8` (0B), `packRaw = 12` (85). -/
theorem test_decode_pktRow :
    decode (.word .packet (0b11100011#8 :: 0b10101000#8 :: blankRow)) = .ok (.pktRow 1#5 1#3 blankRow) ∧
      decode (.word .packet (0b00001011#8 :: 0b10000101#8 :: blankRow)) = .ok (.pktRow 25#5 0#3 blankRow) :=
  ⟨by decide, by decide⟩
/-- R176: `A8 6D` is magazine 0, packet 26; S10: `57 57` is magazine 7, packet 31. -/
theorem test_decode_pktExt :
    decode (.word .packet (0b10101000#8 :: 0b01101101#8 :: blankRow)) = .ok (.pktExt 26#5 0#3 blankRow) ∧
      decode (.word .packet (0b01010111#8 :: 0b01010111#8 :: blankRow)) = .ok (.pktExt 31#5 7#3 blankRow) :=
  ⟨by decide, by decide⟩
/-- R164: either address byte. -/
theorem test_decode_pktAddrErr :
    decode (.word .packet (0x00#8 :: 0x92#8 :: blankRow)) = .ok (.pktAddrErr 0x00#8 0x92#8 blankRow) ∧
      decode (.word .packet (0x92#8 :: 0xFF#8 :: blankRow)) = .ok (.pktAddrErr 0x92#8 0xFF#8 blankRow) :=
  ⟨by decide, by decide⟩
/-- R103: the code words of 5 and 14. -/
theorem test_decode_h84 :
    decode (.word .ham84 [0b11001110#8]) = .ok (.h84 5#4) ∧ decode (.word .ham84 [0b10111111#8]) = .ok (.h84 14#4) :=
  ⟨by decide, by decide⟩
/-- T2: A9 is one bit from a code word. -/
theorem test_decode_h84Invalid : decode (.word .ham84 [0xA9#8]) = .ok (.h84Invalid 0xA9#8) := by decide
/-- T5: `P(41) = 83`, `P(0D) = B0`. -/
theorem test_decode_par :
    decode (.word .oddpar [0b10000011#8]) = .ok (.par 0x41#7) ∧ decode (.word .oddpar [0b10110000#8]) = .ok (.par 0x0D#7) :=
  ⟨by decide, by decide⟩
/-- T6. -/
theorem test_decode_parInvalid : decode (.word .oddpar [0x82#8]) = .ok (.parInvalid 0x82#8) := by decide
theorem test_decode_hostReadCounter : decode (.port (.readCounter 7)) = .ok (.hostReadCounter 7) := rfl
theorem test_decode_hostSetCurrentPage : decode (.port (.setCurrentPage none)) = .ok (.hostSetCurrentPage none) := rfl
theorem test_decode_hostDeactivate : decode (.port (.deactivate true)) = .ok (.hostDeactivate true) := rfl
theorem test_decode_hostPages : decode (.port .pages) = .ok .hostPages := rfl
theorem test_decode_hostOnPageCompleted :
    decode (.port (.pageCompleted page123)) = .ok (.hostOnPageCompleted page123) := rfl

/-! ### The words of the opcode table -/

/-- A word of one row of each format that has rows. -/
theorem test_table_words :
    decodeTableWord 1 0 = some (.fragCont [] 0#64) ∧ decodeTableWord 1 1 = some (.fragStart [] 0#64) ∧
      decodeTableWord 8 0x10 = some (.unitTtx 0#4) ∧ decodeTableWord 8 0x03 = some (.recLine true []) ∧
      decodeTableWord 8 0xFF = some (.recFill []) ∧
      decodeTableWord 16 0xC0E4 = some (.lineFramed 0#6 0#8 0#8 (zeroBytes 40)) ∧
      decodeTableWord 8 0xD0 = some (.pktExt 26#5 0#3 (zeroBytes 40)) ∧ decodeTableWord 8 0x0B = some (.h84 8#4) ∧
      decodeTableWord 8 0x04 = some (.par 0x20#7) := by decide

/-- A table word of each format is run by the first step after reset. -/
theorem test_table_words_run :
    ([0, 1, 2, 3, 0x10, 0x0B, 0x04, 0x13, 0x88, 0xD0, 0xFF].all fun w =>
      (decodeTableWord 8 w).isSome && (look (fun s => s.ts) (step (State.reset.withFetchWord 8 w))).isSome) = true := by
  decide +kernel

/-! ### One step of each instruction -/

/-- R242, R201: `RESET` drops the open page without an event and does not touch the Page Manager's cache. -/
theorem test_reset :
    look (fun s => (s.mode, s.buf.len, s.slotAt 1#3, s.out, s.host.enabled)) (exec .reset (filling terminator)) =
      some (.sync, 0, none, [], true) := by decide
/-- T12: `BD 00` appended, the timestamp ignored. -/
theorem test_fragCont :
    look (fun s => (s.ts, s.buf.len, s.buf.read 3, s.buf.read 4)) (exec (.fragCont [0xBD#8, 0#8] 7#64) (filling [0#8, 0#8, 1#8])) =
      some (50#64, 5, some 0xBD#8, some 0#8) := by decide
/-- T10: dropped while synchronizing. -/
theorem test_fragCont_sync : exec (.fragCont [0x12#8] 5#64) State.reset = .next State.reset := rfl
/-- T11. -/
theorem test_fragStart_sync :
    look (fun s => (s.mode, s.ts, s.buf.len, counters s)) (exec (.fragStart [0#8, 0#8, 1#8] 100#64) State.reset) =
      some (.fill, 100#64, 3, [0, 0, 0, 0, 0, 0, 0, 0]) := by decide
/-- T14: a unit of 8 bytes. -/
theorem test_fragStart_tooSmall :
    look (fun s => (s.mode, s.buf.len, counters s))
      (exec (.fragStart terminator 60#64) (filling [0#8, 0#8, 1#8, 0xBD#8, 0#8, 2#8, 0x84#8, 0x80#8])) =
      some (.fill, 10, [1, 0, 0, 0, 0, 0, 0, 0]) := by decide
/-- R131: a payload of one empty filler. The scan starts one past the data identifier and ends the scan. -/
theorem test_unitTtx :
    look (fun s => (s.scan, counters s)) (exec (.unitTtx 0#4) (scanning .unit 9 12 (unitOf 0x10#8 [0xFF#8, 0#8]))) =
      some (none, [0, 0, 0, 0, 0, 0, 0, 0]) := by decide
/-- P4 unit N: payload `2C 00 FF`. -/
theorem test_unitTtx_counts :
    look counters (exec (.unitTtx 0#4) (scanning .unit 9 13 (unitOf 0x10#8 [0x2C#8, 0#8, 0xFF#8]))) =
      some [0, 0, 0, 0, 1, 0, 1, 0] := by decide
/-- P4 unit F: identifier 20. -/
theorem test_unitUnknown :
    look (fun s => (s.mode, s.scan, counters s)) (exec (.unitUnknown 0x20#8) (scanning .unit 9 10 (unitOf 0x20#8 []))) =
      some (.sync, none, [0, 0, 0, 1, 0, 0, 0, 0]) := by decide
/-- P4 unit D: a data-line record with `n = 43`. -/
theorem test_recLine_length :
    look (fun s => (s.scan, counters s)) (exec (.recLine false (List.replicate 43 0x04#8)) (scanning .record 0 2 [])) =
      some (none, [0, 0, 0, 0, 1, 0, 0, 0]) := by decide
/-- R173: the worked example `E8 E4 E3 A8 83 43 04 x38`. -/
theorem test_recLine_row :
    look (fun s => (s.slotAt 1#3).bind fun p => assocFind 1 p.lines)
      (exec (.recLine true (rowLine 1#3 1#5 [0x41#7, 0x42#7])) (scanning .record 0 2 [])) =
      some (some (0x41#7 :: 0x42#7 :: List.replicate 38 0x20#7)) := by decide
/-- R145. -/
theorem test_recFill : exec (.recFill [0xFF#8, 0xFF#8]) (filling []) = .next (filling []) := rfl
/-- R146, R147: the worked example `01 03 AA BB CC` adds 1 to the counter and advances by 5. -/
theorem test_recUnk :
    look (fun s => (s.scan, counters s)) (step (scanning .record 0 5 [0x01#8, 0x03#8, 0xAA#8, 0xBB#8, 0xCC#8])) =
      some (some { level := .record, pos := 5, stop := 5 }, [0, 0, 0, 0, 0, 0, 1, 0]) := by decide
/-- R164: a damaged address closes nothing. -/
theorem test_lineFramed_miss :
    look (fun s => ((s.slotAt 1#3).isSome, counters s)) (exec (.lineFramed 0x27#6 0x41#8 0xA8#8 blankRow) (filling [])) =
      some (true, [0, 0, 0, 0, 0, 0, 0, 1]) := by decide
/-- R162, R214. -/
theorem test_lineBadframe :
    look (fun s => (s.mode, s.scan, counters s))
      (exec (.lineBadframe 0xE8#8 0xE5#8 (0x85#8 :: 0x40#8 :: blankRow)) (scanning .line 0 44 [])) =
      some (.fill, none, [0, 0, 0, 0, 0, 1, 0, 0]) := by decide
/-- P3 line L2 with S9: the flags and numbers of page 346. -/
theorem test_pktHdr :
    look (fun s => (s.slotAt 3#3).map fun p => (p.page, p.subPage, p.timeStamp, p.flags))
      (exec (.pktHdr 3#3 (headerBody 4#4 6#4 2#4 0xA#4 3#4 6#4 0xF#4 0xB#4 [])) (filling [])) =
      some (some (346, 2322, 50#64,
        { erase := true, flash := true, isSubtitle := false, noHeader := true, updated := true, outOfSequence := true
          hide := true, magazineSerial := true, nationalOptions := 5#3 })) := by decide
/-- R166, R192, S8: the page held is emitted whole, cached and handed to the subscriber; a filler header opens none. -/
theorem test_pktHdr_filler :
    look (fun s => (s.out, s.slotAt 1#3, s.host.cache, s.host.calls))
      (exec (.pktHdr 1#3 (headerBody 15#4 15#4 0#4 0#4 0#4 0#4 0#4 0#4 [])) (filling [])) =
      some ([page123r], none, [(123, page123r)], [page123r]) := by decide
/-- R175: one count, the earlier row kept. -/
theorem test_pktRow_miss :
    look (fun s => (s.slotAt 1#3, counters s)) (exec (.pktRow 7#5 1#3 (List.replicate 40 0x05#8)) (filling [])) =
      some (some page123r, [0, 0, 0, 0, 0, 0, 0, 1]) := by decide
/-- R29: a later row of the same number replaces the earlier. -/
theorem test_pktRow_replaces :
    look (fun s => (s.slotAt 1#3).map fun p => p.lines) (exec (.pktRow 7#5 1#3 blankRow) (filling [])) =
      some (some [(7, List.replicate 40 0x20#7)]) := by decide
/-- R176. -/
theorem test_pktExt : exec (.pktExt 26#5 1#3 (List.replicate 40 0#8)) (filling []) = .next (filling []) := rfl
theorem test_pktAddrErr :
    look counters (exec (.pktAddrErr 0#8 0xFF#8 blankRow) (filling [])) = some [0, 0, 0, 0, 0, 0, 0, 1] := by decide
/-- S1. -/
theorem test_h84 : look (fun s => s.lookup) (exec (.h84 1#4) State.reset) = some 1#8 ∧ hamCode 1#4 = 0x40#8 := by decide
/-- S2. -/
theorem test_h84Invalid : look (fun s => s.lookup) (exec (.h84Invalid 0#8) State.reset) = some 255#8 := by decide
/-- S3. -/
theorem test_par : look (fun s => s.lookup) (exec (.par 0x7F#7) State.reset) = some 0x7F#8 ∧ parCode 0x7F#7 = 0xFE#8 := by
  decide
/-- T6. -/
theorem test_parInvalid : look (fun s => s.lookup) (exec (.parInvalid 0xC3#8) State.reset) = some 255#8 := by decide
/-- R194. -/
theorem test_hostReadCounter :
    look (fun s => (s.counterPort, counters s))
      (exec (.hostReadCounter 7) { filling [] with cnt := (filling []).cnt.set 7 3 }) =
      some (3, [0, 0, 0, 0, 0, 0, 0, 3]) := by decide
/-- S8, R200. -/
theorem test_hostSetCurrentPage :
    look (fun s => (s.host.current, s.host.calls.map fun p => [p.page, p.magazine.toNat, p.relativePage, p.header.length]))
      (exec (.hostSetCurrentPage (some 150)) { State.reset with host := { State.reset.host with subscriber := true } }) =
      some (some 150, [[150, 1, 50, 0]]) := by decide
/-- T60: with no subscriber nothing is delivered. -/
theorem test_hostSetCurrentPage_silent :
    look (fun s => (s.host.current, s.host.enabled, s.host.calls)) (exec (.hostSetCurrentPage (some 123)) State.reset) =
      some (some 123, true, []) := by decide
/-- T62. -/
theorem test_hostDeactivate :
    look (fun s => (s.host.current, s.host.enabled, s.host.cache))
      (exec (.hostDeactivate true) { filling [] with host := { (filling []).host with cache := [(123, page123)] } }) =
      some (none, false, []) := by decide
theorem test_hostPages :
    look (fun s => s.host.snapshot)
      (exec .hostPages { filling [] with host := { (filling []).host with cache := [(123, page123)] } }) =
      some [(123, page123)] := by decide
/-- S7: sub-page 34 replaces sub-page 12. -/
theorem test_hostOnPageCompleted :
    look (fun s => s.host.cache)
      (exec (.hostOnPageCompleted { page123 with subPage := 34 })
        { filling [] with host := { (filling []).host with cache := [(123, page123)] } }) =
      some [(123, { page123 with subPage := 34 })] := by decide
/-- T60: with decoding disabled nothing is cached. -/
theorem test_hostOnPageCompleted_disabled :
    look (fun s => (s.host.cache, s.host.calls)) (exec (.hostOnPageCompleted page123) State.reset) = some ([], []) := by
  decide
/-- R250: a unit with an unrecognised record and then a damaged header of magazine 1. While the consumer handles the
event it reads the unrecognised record as counted and the header's own `CodeError` as not yet counted. -/
theorem test_readDuringEvent :
    look (fun s => (s.readDuringEvent 0 6, s.readDuringEvent 0 7, s.readDuringEvent 1 7, counters s))
      (exec (.unitTtx 0#4) (scanning .unit 9 58
        (unitOf 0x10#8 ([0x01#8, 0#8] ++ recordBytes 0x02#8 (0xE7#8 :: 0xE4#8 :: 0x40#8 :: 0xA8#8 :: blankRow))))) =
      some (some 1, some 0, none, [0, 0, 0, 0, 0, 0, 1, 1]) := by decide
/-- R25: a scan pointer beyond the end of the payload is no state of a scan. -/
theorem test_scanInside_beyond :
    ([.unit, .record, .line, .packet, .ham84, .oddpar].any fun l =>
      scanInside 12 { level := l, pos := 13, stop := 12 }) = false := by decide
/-- U2: a transaction inside an analysis is refused. -/
theorem test_reentry : exec .reset (scanning .record 0 2 []) = .refused .reentrant := rfl

/-! ### The hypotheses of the statements, met by concrete values

`test_hyps_X` meets all hypotheses of `Obligations.X` together; where a statement has several clauses, each has its own
part, at a boundary value of its range. -/

/-- Page 123 cached, an event of the last transaction, and inputs still offered. -/
def busy : State :=
  { filling terminator with
    out := [page123]
    eventCounters := [State.reset.cnt]
    host := { (filling terminator).host with cache := [(123, page123)] }
    inputs := [.frag true terminator 60#64, .readCounter 7] }

theorem busy_inv : busy.Inv :=
  { bufWf := ⟨by decide, by decide⟩
    slotsWf := by unfold State.SlotsWf; decide
    scanWf := rfl
    outWf := by unfold State.OutWf; decide
    cacheWf := ⟨by decide, by decide⟩
    inputsWf := by unfold State.InputsWf; decide }

/-- The block inside a unit whose only record is an unrecognised one of no bytes. -/
def inUnit (level : Level) (pos : Nat) : State := scanning level pos 12 (unitOf 0x10#8 [0x01#8, 0#8])

theorem inUnit_inv : (inUnit .unit 9).Inv :=
  { bufWf := ⟨by decide, by decide⟩
    slotsWf := by unfold State.SlotsWf; decide
    scanWf := by unfold State.ScanWf; decide
    outWf := ⟨rfl, rfl⟩
    cacheWf := ⟨by decide, by decide⟩
    inputsWf := rfl }

theorem test_hyps_HamSixteenValidEntries : (∀ v, hamCode v ≠ 0x00#8) ∧ ∀ v, hamCode v ≠ 0xFF#8 := by decide
theorem test_hyps_HamDetectionStrength :
    ones 0x80#8 = 1 ∧ ones 0x81#8 = 2 ∧ ones 0x83#8 = 3 ∧ ones 0xFE#8 % 2 = 1 ∧ (0#4 ≠ 15#4) ∧
      ones 0x17#8 = 4 ∧ ham84 (hamCode 0#4 ^^^ 0x17#8) ≠ 255#8 := by decide
theorem test_hyps_OddParityClosedForm :
    oddpar 0x83#8 ≠ 255#8 ∧ ones 0x01#8 = 1 ∧ ones 0xC0#8 = 2 ∧ oddpar 0x00#8 = 255#8 := by decide
theorem test_hyps_TablesCompared : ham84 0xA8#8 ≠ 255#8 ∧ oddpar 0xE4#8 = 255#8 := by decide
theorem test_hyps_LookupResults :
    (Instr.h84Invalid 0#8).wf = true ∧ (Instr.parInvalid 0xFF#8).wf = true := by decide
theorem test_hyps_DecodeOfEncode :
    ([.unitUnknown 0x0F#8, .recUnk 0x04#8 [], .recFill (List.replicate 9 0#8), .lineFramed 63#6 0#8 0#8 blankRow,
      .lineBadframe 0xBF#8 0xE4#8 (List.replicate 42 0#8), .pktHdr 7#3 blankRow, .pktRow 25#5 7#3 blankRow,
      .pktExt 26#5 0#3 blankRow, .pktAddrErr 0xA8#8 0#8 blankRow, .h84Invalid 1#8, .parInvalid 3#8,
      .hostOnPageCompleted page123r].all Instr.wf) = true := by decide
theorem test_hyps_EncodeOfDecode :
    decode (.port .pages) = .ok .hostPages ∧ decode (.word .unit [0x1F#8]) = .ok (.unitTtx 15#4) := ⟨rfl, by decide⟩
theorem test_hyps_EveryWordDecodes :
    ([] : List Byte).length = (0#8).toNat ∧ (0#8 :: 0#8 :: 0#8 :: 0#8 :: blankRow).length = 44 ∧
      (0#8 :: 0#8 :: blankRow).length = 42 := by decide
theorem test_hyps_AppendThenRead :
    (Memory.ofBytes [7#8, 8#8]).wf = true ∧ (Memory.ofBytes [7#8, 8#8]).complete = true ∧
      1 < (Memory.ofBytes [7#8, 8#8]).len ∧ 0 < ([9#8] : List Byte).length := by decide
theorem test_hyps_FiniteAccumulatorUnobservable :
    65541 ≤ 65541 ∧ (filling terminator).BufWf ∧ ∃ t, fragStart Config.std [] 60#64 (filling terminator) = .next t :=
  ⟨le_rfl, busy_inv.bufWf, _, rfl⟩
theorem test_hyps_FiniteCounterSaturates : (7 : Nat) ≤ 2 ^ 3 - 1 ∧ (6 : Nat) ≤ 2 ^ 3 - 1 := by decide
theorem test_hyps_ResetLeaves : busy.scan = none := rfl
theorem test_hyps_FragContResult : busy.scan = none ∧ State.reset.scan = none := ⟨rfl, rfl⟩
theorem test_hyps_FragStartWhileSync : State.reset.scan = none ∧ State.reset.mode = .sync := ⟨rfl, rfl⟩
/-- T14 (8 bytes), T16 (9 bytes, wrong length field), T18 (`q = L`), and identifiers 0F and 20 at `q = L - 1`. -/
theorem test_hyps_FailedUnitOnlyCounts :
    (filling terminator).scan = none ∧ (filling terminator).mode = .fill ∧
    UnitFails (filling [0#8, 0#8, 1#8, 0xBD#8, 0#8, 2#8, 0x84#8, 0x80#8]).buf .bufferTooSmall ∧
    UnitFails (filling [0#8, 0#8, 1#8, 0xBD#8, 0#8, 9#8, 0x84#8, 0x80#8, 0#8]).buf .pesLengthMismatch ∧
    UnitFails (filling [0#8, 0#8, 1#8, 0xBD#8, 0#8, 5#8, 0x84#8, 0x80#8, 2#8, 0xFF#8, 0x10#8]).buf .headerOverrun ∧
    UnitFails (filling (unitOf 0x0F#8 [])).buf .unknownDataId ∧ UnitFails (filling (unitOf 0x20#8 [])).buf .unknownDataId :=
  ⟨rfl, rfl, (by decide : 8 < 9),
    ⟨by decide, 0#8, 9#8, rfl, rfl, by decide⟩,
    ⟨by decide, 0#8, 5#8, 2#8, rfl, rfl, by decide, rfl, by decide⟩,
    ⟨by decide, 0#8, 4#8, 0#8, 0x0F#8, rfl, rfl, by decide, rfl, by decide, rfl, by decide⟩,
    ⟨by decide, 0#8, 4#8, 0#8, 0x20#8, rfl, rfl, by decide, rfl, by decide, rfl, by decide⟩⟩
theorem test_hyps_UnitChecksDecide :
    (Memory.ofBytes terminator).wf = true ∧ (Memory.ofBytes terminator).complete = true := by decide
/-- T17: the smallest valid unit, and identifier 1F. -/
theorem test_hyps_PassingUnitIsScanned :
    (filling terminator).scan = none ∧ (filling terminator).mode = .fill ∧ (filling terminator).BufWf ∧
      UnitPasses (filling terminator).buf 9 ∧ UnitPasses (filling (unitOf 0x1F#8 [])).buf 9 :=
  ⟨rfl, rfl, busy_inv.bufWf,
    ⟨by decide, 0#8, 4#8, 0#8, 0x10#8, rfl, rfl, by decide, rfl, rfl, by decide, rfl, by decide, by decide⟩,
    ⟨by decide, 0#8, 4#8, 0#8, 0x1F#8, rfl, rfl, by decide, rfl, rfl, by decide, rfl, by decide, by decide⟩⟩
theorem test_hyps_FragStartEndsFilling : ∃ t, exec (.fragStart [] 60#64) busy = .next t := ⟨_, rfl⟩
theorem test_hyps_ResynchronizationIdempotent :
    (filling []).scan = none ∧ (filling []).mode = .fill ∧ UnitFails (filling []).buf .bufferTooSmall ∧
      (∃ t, exec (.fragStart terminator 60#64) (filling []) = .next t) ∧
      ∃ u, exec (.fragStart terminator 60#64) { filling [] with mode := .sync, buf := Memory.empty } = .next u :=
  ⟨rfl, rfl, (by decide : 0 < 9), ⟨_, rfl⟩, _, rfl⟩
theorem test_hyps_FragmentationInvariance :
    ∃ t u v, exec (.fragStart [0#8] 60#64) busy = .next t ∧ continueWith [([], 1#64), ([1#8, 2#8], 2#64)] t = .next u ∧
      exec (.fragStart ([0#8] ++ (([([], 1#64), ([1#8, 2#8], 2#64)] : List (List Byte × Timestamp)).map
        (fun x => x.1)).flatten) 60#64) busy = .next v := ⟨_, _, _, rfl, rfl, rfl⟩
theorem test_hyps_ReentryRefused : (inUnit .record 10).scan = some { level := .record, pos := 10, stop := 12 } := rfl
theorem test_hyps_UnitScanIsRecordSteps :
    (inUnit .unit 9).BufWf ∧ (inUnit .unit 9).scan = some { level := .unit, pos := 9, stop := 12 } ∧
      12 ≤ (inUnit .unit 9).buf.len := ⟨inUnit_inv.bufWf, rfl, by decide⟩
theorem test_hyps_ScanWritesNoBuffer : ∃ t, exec (.unitTtx 0#4) (inUnit .unit 9) = .next t := ⟨_, rfl⟩
theorem test_hyps_ScanEventsReachConsumer :
    (inUnit .unit 9).Inv ∧ ∃ t, exec (.unitTtx 0#4) (inUnit .unit 9) = .next t := ⟨inUnit_inv, _, rfl⟩
theorem test_hyps_RecLineResult :
    (List.replicate 43 0#8 : List Byte).length ≠ 44 ∧ (List.replicate 45 0#8 : List Byte).length ≠ 44 ∧
      (rowLine 1#3 1#5 []).length = 44 := by decide
/-- The end of the payload; one byte left; a body one byte too long. -/
theorem test_hyps_RecordFramingChecks :
    (inUnit .record 12).scan = some { level := .record, pos := 12, stop := 12 } ∧
    (inUnit .record 11).scan = some { level := .record, pos := 11, stop := 11 + 1 } ∧
    (scanning .record 0 2 [0x02#8, 1#8]).scan = some { level := .record, pos := 0, stop := 2 } ∧ 0 + 2 ≤ 2 ∧
      (scanning .record 0 2 [0x02#8, 1#8]).buf.read 0 = some 0x02#8 ∧
      (scanning .record 0 2 [0x02#8, 1#8]).buf.read 1 = some 1#8 ∧ 2 < 0 + 2 + (1#8).toNat := by decide
theorem test_hyps_FramingCheck : blankRow.length = 40 ∧ 0xC0 ≤ (0xC0#8).toNat ∧ ¬ 0xC0 ≤ (0xBF#8).toNat := by decide
theorem test_hyps_FramedLineRoutes : blankRow.length = 40 := by decide
theorem test_hyps_AddressMiss : ham84 0x00#8 = 255#8 ∧ ham84 0xFF#8 = 255#8 := by decide
theorem test_hyps_RowStores :
    (filling []).slotAt 0#3 = none ∧ (filling []).slotAt 1#3 = some page123r ∧ assocSorted page123r.lines = true := by
  decide
theorem test_hyps_RowParityMiss : ∃ b ∈ List.replicate 39 0x04#8 ++ [0x05#8], oddpar b = 255#8 := by decide
/-- A header with the given digits and nothing else set. -/
def digits (tens units : Nibble) : HeaderFields :=
  { units := units, tens := tens, s1 := 0#4, s2c4 := 0#4, s3 := 0#4, s4c5c6 := 0#4, c7_10 := 0#4, c11_14 := 0#4 }
theorem test_hyps_HeaderOpensPage : 10 * (digits 9#4 9#4).tens.toNat + (digits 9#4 9#4).units.toNat ≤ 99 := by decide
theorem test_hyps_FillerHeaderCloses : 99 < 10 * (digits 9#4 10#4).tens.toNat + (digits 9#4 10#4).units.toNat := by
  decide
theorem test_hyps_DamagedHeaderCloses :
    (List.replicate 7 0xA8#8 ++ [0xFF#8]).length = 8 ∧ (∃ b ∈ List.replicate 7 0xA8#8 ++ [0xFF#8], ham84 b = 255#8) ∧
    (headerCodes (digits 9#4 9#4)).length = 8 ∧
      10 * (digits 9#4 9#4).tens.toNat + (digits 9#4 9#4).units.toNat ≤ 99 ∧
      ∃ b ∈ List.replicate 31 0x04#8 ++ [0x05#8], oddpar b = 255#8 := by decide
theorem test_hyps_TwoHeadersEmitTheFirst :
    ∃ t u p, exec (.pktHdr 3#3 (headerBody 4#4 5#4 1#4 0#4 0#4 0#4 0#4 0#4 [])) (filling []) = .next t ∧
      t.slotAt 3#3 = some p ∧ exec (.pktHdr 3#3 blankRow) t = .next u := ⟨_, _, _, rfl, rfl, rfl⟩
theorem test_hyps_MagazinesAreIsolated :
    2#3 ≠ 1#3 ∧ (∃ t, exec (.pktHdr 1#3 blankRow) (filling []) = .next t) ∧
      (∃ t, exec (.pktRow 7#5 1#3 blankRow) (filling []) = .next t) ∧
      ∃ t, exec (.pktExt 26#5 1#3 blankRow) (filling []) = .next t := ⟨by decide, ⟨_, rfl⟩, ⟨_, rfl⟩, _, rfl⟩
theorem test_hyps_OneDiagnosticPerLine :
    (rowLine 1#3 1#5 []).length = 44 ∧ ∃ t, exec (.recLine false (rowLine 1#3 1#5 [])) (filling []) = .next t :=
  ⟨by decide, _, rfl⟩
theorem test_hyps_PageCompletedResult :
    State.reset.host.enabled = false ∧ busy.host.enabled = true ∧ (124 : Nat) ≠ page123.page := by decide
theorem test_hyps_CacheOnePagePerNumber :
    busy.host.CacheWf ∧ { page123 with subPage := 34 }.wf = true ∧ busy.host.enabled = true :=
  ⟨busy_inv.cacheWf, by decide, rfl⟩
theorem test_hyps_StepRunsTheInput :
    busy.scan = none ∧ busy.inputs = .frag true terminator 60#64 :: [.readCounter 7] ∧
      ∃ t, exec (decodeInput (.frag true terminator 60#64)) { busy with inputs := [.readCounter 7] } = .next t ∧
        t.scan = none := ⟨rfl, rfl, _, rfl, rfl⟩
/-- A record that goes on, and one that ends the scan. -/
theorem test_hyps_StepRunsTheRecord :
    (∃ t, (inUnit .record 10).scan = some { level := .record, pos := 10, stop := 12 } ∧
      (inUnit .record 10).buf.read 10 = some 1#8 ∧ (inUnit .record 10).buf.read 11 = some 0#8 ∧
      (inUnit .record 10).buf.readBytes 12 0 = some [] ∧ 10 + 2 + (0#8).toNat ≤ 12 ∧
      decode (.word .record [1#8, 0#8]) = .ok (.recUnk 1#8 []) ∧
      exec (.recUnk 1#8 []) (inUnit .record 10) = .next t ∧ t.scan = (inUnit .record 10).scan) ∧
    ∃ t, (scanning .record 0 2 [2#8, 0#8]).scan = some { level := .record, pos := 0, stop := 2 } ∧
      (scanning .record 0 2 [2#8, 0#8]).buf.read 0 = some 2#8 ∧
      (scanning .record 0 2 [2#8, 0#8]).buf.read 1 = some 0#8 ∧
      (scanning .record 0 2 [2#8, 0#8]).buf.readBytes 2 0 = some [] ∧ 0 + 2 + (0#8).toNat ≤ 2 ∧
      decode (.word .record [2#8, 0#8]) = .ok (.recLine false []) ∧
      exec (.recLine false []) (scanning .record 0 2 [2#8, 0#8]) = .next t ∧ t.scan = none :=
  ⟨⟨_, rfl, rfl, rfl, rfl, by decide, rfl, rfl, rfl⟩, _, rfl, rfl, rfl, rfl, by decide, rfl, rfl, rfl⟩
/-- A data identifier, which ends the scan, and a code word, which does not. -/
theorem test_hyps_StepRunsTheBytes :
    (∃ t, (inUnit .unit 9).scan = some { level := .unit, pos := 9, stop := 12 } ∧
      (inUnit .unit 9).buf.readBytes 9 1 = some [0x10#8] ∧ decode (.word .unit [0x10#8]) = .ok (.unitTtx 0#4) ∧
      exec (.unitTtx 0#4) (inUnit .unit 9) = .next t ∧ t.scan = none) ∧
    ∃ t, (scanning .ham84 0 1 [0xA8#8]).scan = some { level := .ham84, pos := 0, stop := 1 } ∧ 0 < 1 ∧
      (scanning .ham84 0 1 [0xA8#8]).buf.readBytes 0 1 = some [0xA8#8] ∧
      decode (.word .ham84 [0xA8#8]) = .ok (.h84 0#4) ∧
      exec (.h84 0#4) (scanning .ham84 0 1 [0xA8#8]) = .next t ∧ t.scan = (scanning .ham84 0 1 [0xA8#8]).scan :=
  ⟨⟨_, rfl, rfl, rfl, rfl, rfl⟩, _, rfl, by decide, rfl, by decide, rfl, rfl⟩
theorem test_hyps_StepKeepsTheInvariant : busy.Inv ∧ ∃ t, step busy = .next t := ⟨busy_inv, _, rfl⟩
theorem test_hyps_StepKeepsTheInvariant_inUnit : (inUnit .unit 9).Inv ∧ ∃ t, step (inUnit .unit 9) = .next t :=
  ⟨inUnit_inv, _, rfl⟩
theorem test_hyps_StepKeepsBetweenTransactions : busy.BetweenTransactions ∧ ∃ t, step busy = .next t :=
  ⟨⟨rfl, fun h => by cases h⟩, _, rfl⟩
theorem test_hyps_EveryInstructionCompletes :
    (busy.Inv ∧ (Instr.fragStart terminator 60#64).wf = true ∧ ready (.fragStart terminator 60#64) busy = true) ∧
      (inUnit .unit 9).Inv ∧ (Instr.unitTtx 15#4).wf = true ∧ ready (.unitTtx 15#4) (inUnit .unit 9) = true :=
  ⟨⟨busy_inv, rfl, rfl⟩, inUnit_inv, rfl, rfl⟩
/-- An offered event whose page is ill formed; a data identifier at the end of the unit; a scan with `pos = end`. -/
theorem test_hyps_StepNeverStops :
    (let s : State := { busy with inputs := [.pageCompleted { page123 with page := 7 }] }; s.BufWf ∧ s.ScanWf) ∧
      ((scanning .unit 9 10 terminator).BufWf ∧ (scanning .unit 9 10 terminator).ScanWf) ∧
      (inUnit .record 12).BufWf ∧ (inUnit .record 12).ScanWf :=
  ⟨⟨busy_inv.bufWf, rfl⟩, ⟨busy_inv.bufWf, by unfold State.ScanWf; decide⟩, inUnit_inv.bufWf,
    by unfold State.ScanWf; decide⟩
theorem test_hyps_CountersNeverFall :
    (∃ t, step busy = .next t) ∧ (busy.scan = none → busy.inputs.head? ≠ some .reset) :=
  ⟨⟨_, rfl⟩, fun _ => by decide⟩
theorem test_hyps_ConsumerNeverFeedsBack : ∃ t, step busy = .next t := ⟨_, rfl⟩
theorem test_hyps_CountersNeverDecide : ∃ t, step busy = .next t := ⟨_, rfl⟩

end Sys2Proof.Tests
end

section
/-!
PROOFS. The address bytes of a data line (R78): where a code word holds its data bits, and what the formulas of the
magazine and the packet number make of the two data values.
-/

namespace Sys2Proof.Proofs.AddressAssembly

open Sys2Proof Sys2Proof.Machine

/-- R103 puts the data bits D1, D2, D3 and D4 at bits 6, 4, 2 and 0 of the code word. -/
theorem getLsbD_hamCode (v : Nibble) :
    (hamCode v).getLsbD 6 = v.getLsbD 0 ∧ (hamCode v).getLsbD 4 = v.getLsbD 1 ∧
    (hamCode v).getLsbD 2 = v.getLsbD 2 ∧ (hamCode v).getLsbD 0 = v.getLsbD 3 := by
  simp only [hamCode, BitVec.getLsbD_ofBoolListBE]
  exact ⟨rfl, rfl, rfl, rfl⟩

/-- The address bytes that are code words select the packet of their two data values. -/
theorem decodeAddress_hamCode (magRaw packRaw : Nibble) :
    decodeAddress (hamCode magRaw) (hamCode packRaw) = packetKind (packetOf magRaw packRaw) (magOf magRaw) := by
  simp only [decodeAddress, hamNibble_hamCode]

theorem toNat_magOf (magRaw : Nibble) : (magOf magRaw).toNat = magRaw.toNat &&& 7 := by
  have hlt : magRaw.toNat &&& 7 < 2 ^ 3 := Nat.and_lt_two_pow _ (by decide)
  rw [magOf, BitVec.toNat_setWidth, BitVec.toNat_and]
  exact Nat.mod_eq_of_lt hlt

/-- Five bits hold both nibbles' shares, so neither shift of R78 loses a bit. -/
theorem toNat_packetOf (magRaw packRaw : Nibble) :
    (packetOf magRaw packRaw).toNat = (magRaw.toNat >>> 3) ||| (packRaw.toNat <<< 1) := by
  have hmag : magRaw.toNat % 2 ^ 5 = magRaw.toNat := Nat.mod_eq_of_lt (by omega)
  have hpack : packRaw.toNat % 2 ^ 5 = packRaw.toNat := Nat.mod_eq_of_lt (by omega)
  have hshift : (packRaw.toNat <<< 1) % 2 ^ 5 = packRaw.toNat <<< 1 :=
    Nat.mod_eq_of_lt (by rw [Nat.shiftLeft_eq]; omega)
  rw [packetOf, BitVec.toNat_or, BitVec.toNat_ushiftRight, BitVec.toNat_shiftLeft, BitVec.toNat_setWidth,
    BitVec.toNat_setWidth, hmag, hpack, hshift]

/-- `magRaw[2:0]` is the magazine. -/
theorem getLsbD_magOf (magRaw : Nibble) (i : Nat) (h : i < 3) : (magOf magRaw).getLsbD i = magRaw.getLsbD i := by
  have hmask : ∀ j < 3, (7#4).getLsbD j = true := by decide
  rw [magOf, BitVec.getLsbD_setWidth, BitVec.getLsbD_and, hmask i h]
  simp [h]

/-- `magRaw[3]` is bit 0 of the packet number. -/
theorem getLsbD_packetOf_zero (magRaw packRaw : Nibble) :
    (packetOf magRaw packRaw).getLsbD 0 = magRaw.getLsbD 3 := by
  simp [packetOf]

/-- `packRaw[3:0]` is bits 4:1 of the packet number. -/
theorem getLsbD_packetOf_succ (magRaw packRaw : Nibble) (i : Nat) (h : i < 4) :
    (packetOf magRaw packRaw).getLsbD (i + 1) = packRaw.getLsbD i := by
  have hmag : magRaw.getLsbD (3 + (i + 1)) = false := BitVec.getLsbD_of_ge _ _ (by omega)
  have hwidth : i + 1 < 5 := by omega
  simp [packetOf, hmag, hwidth]

/-- Settles O12: the formulas of R78 on the data values, and each of their bits carried back to the bit of the code
word that holds it. -/
theorem addressAssembly : Obligations.AddressAssembly := by
  intro magRaw packRaw
  obtain ⟨hm0, hm1, hm2, hm3⟩ := getLsbD_hamCode magRaw
  obtain ⟨hp0, hp1, hp2, hp3⟩ := getLsbD_hamCode packRaw
  refine ⟨decodeAddress_hamCode magRaw packRaw, toNat_magOf magRaw, toNat_packetOf magRaw packRaw, ?_⟩
  rw [hm0, hm1, hm2, hm3, hp0, hp1, hp2, hp3]
  exact ⟨getLsbD_magOf magRaw 0 (by decide), getLsbD_magOf magRaw 1 (by decide), getLsbD_magOf magRaw 2 (by decide),
    getLsbD_packetOf_zero magRaw packRaw,
    getLsbD_packetOf_succ magRaw packRaw 0 (by decide), getLsbD_packetOf_succ magRaw packRaw 1 (by decide),
    getLsbD_packetOf_succ magRaw packRaw 2 (by decide), getLsbD_packetOf_succ magRaw packRaw 3 (by decide)⟩

end Sys2Proof.Proofs.AddressAssembly
end

section
/-!
PROOFS. The entries of `HAM84` (R105): the valid bytes are exactly the code words of the sixteen data values, each code
word belongs to one value, and so the table's two counts are a count of values.
-/

namespace Sys2Proof.Proofs.HamEntries

open Sys2Proof Sys2Proof.Machine Sys2Proof.Claims

/-- The words of `n` bits in ascending order. -/
def allWords (n : Nat) : List (BitVec n) := (List.range (2 ^ n)).map (BitVec.ofNat n)

theorem allBytes_eq_allWords : allBytes = allWords 8 := rfl

@[simp] theorem length_allWords (n : Nat) : (allWords n).length = 2 ^ n := by simp [allWords]

@[simp] theorem mem_allWords {n : Nat} (x : BitVec n) : x ∈ allWords n :=
  List.mem_map.mpr ⟨x.toNat, List.mem_range.mpr x.isLt, by simp⟩

theorem nodup_allWords (n : Nat) : (allWords n).Nodup := by
  refine List.Nodup.map_on (fun a ha b hb h => ?_) List.nodup_range
  have hval := congrArg BitVec.toNat h
  rwa [BitVec.toNat_ofNat, BitVec.toNat_ofNat, Nat.mod_eq_of_lt (List.mem_range.mp ha),
    Nat.mod_eq_of_lt (List.mem_range.mp hb)] at hval

/-- The look-up of a code word finds its value again, so no two values share one. -/
theorem hamCode_injective : Function.Injective hamCode := by
  intro v w h
  have hlook : hamNibble (hamCode v) = hamNibble (hamCode w) := congrArg hamNibble h
  rw [hamNibble_hamCode, hamNibble_hamCode] at hlook
  exact Option.some.inj hlook

theorem ham84_ne_invalid_iff (b : Byte) : ham84 b ≠ 255#8 ↔ ∃ v, hamCode v = b := by
  rw [ne_eq, ← hamNibble_eq_none, ← ne_eq, Option.ne_none_iff_exists']
  exact exists_congr fun v => (hamNibble_eq_some b v).trans eq_comm

/-- The valid bytes are the code words: both lists are free of repetitions and have the same members. -/
theorem validBytes_perm_codeWords :
    (allBytes.filter fun b => ham84 b ≠ 255#8).Perm ((allWords 4).map hamCode) := by
  rw [allBytes_eq_allWords]
  refine (List.perm_ext_iff_of_nodup ((nodup_allWords 8).filter _) ((nodup_allWords 4).map hamCode_injective)).mpr ?_
  intro b
  rw [List.mem_filter, List.mem_map, decide_eq_true_iff, ham84_ne_invalid_iff]
  simp only [mem_allWords, true_and]

theorem length_validBytes : (allBytes.filter fun b => ham84 b ≠ 255#8).length = 16 := by
  rw [validBytes_perm_codeWords.length_eq, List.length_map, length_allWords]
  rfl

/-- Every byte is valid or a sentinel, which leaves 256 - 16 sentinels. -/
theorem length_invalidBytes : (allBytes.filter fun b => ham84 b = 255#8).length = 240 := by
  have hsplit := List.length_eq_length_filter_add (l := allBytes) fun b => decide (ham84 b = 255#8)
  have hvalid := length_validBytes
  simp only [ne_eq, decide_not] at hvalid
  rw [hvalid, allBytes_eq_allWords, length_allWords] at hsplit
  rw [allBytes_eq_allWords]
  omega

/-- Settles O1: the two counts, the sentinel of a byte that no value encodes to, and the distinct code words. -/
theorem hamSixteenValidEntries : Obligations.HamSixteenValidEntries := by
  refine ⟨length_validBytes, length_invalidBytes, fun b hnot => ?_, fun v w h => hamCode_injective h⟩
  by_contra hvalid
  obtain ⟨v, hv⟩ := (ham84_ne_invalid_iff b).mp hvalid
  exact hnot v hv

end Sys2Proof.Proofs.HamEntries
end

section
/-!
PROOFS. The framing of a data line (R161): the test of its first two bytes, and the instruction each outcome decodes to.
-/

namespace Sys2Proof.Proofs.LineFraming

open Sys2Proof Sys2Proof.Machine

/-- The top two bits of a byte are both set from 0xC0 on: they are its quotient by 64. -/
theorem topBits_eq_three_iff (b : Byte) : b.extractLsb' 6 2 = 3#2 ↔ 0xC0 ≤ b.toNat := by
  have hvalue : (b.extractLsb' 6 2).toNat = b.toNat / 64 % 4 := by
    rw [BitVec.extractLsb'_toNat, Nat.shiftRight_eq_div_pow]
  rw [← BitVec.toNat_inj, hvalue, BitVec.toNat_ofNat]
  omega

theorem decodeFraming_of_framed (lineByte syncByte : Byte) (h : syncByte = 0xE4#8 ∧ 0xC0 ≤ lineByte.toNat) :
    decodeFraming lineByte syncByte = .framed (lineByte.setWidth 6) := by
  obtain ⟨hsync, htop⟩ := h
  exact if_pos ⟨hsync, (topBits_eq_three_iff lineByte).mpr htop⟩

theorem decodeFraming_of_not_framed (lineByte syncByte : Byte) (h : ¬ (syncByte = 0xE4#8 ∧ 0xC0 ≤ lineByte.toNat)) :
    decodeFraming lineByte syncByte = .bad :=
  if_neg fun ⟨hsync, htop⟩ => h ⟨hsync, (topBits_eq_three_iff lineByte).mp htop⟩

section
variable (lineByte syncByte magByte packByte : Byte) (body : List Byte) (hlen : body.length = 40)
include hlen

theorem decode_line_of_framed (h : syncByte = 0xE4#8 ∧ 0xC0 ≤ lineByte.toNat) :
    decode (.word .line (lineByte :: syncByte :: magByte :: packByte :: body)) =
      .ok (.lineFramed (lineByte.setWidth 6) magByte packByte body) := by
  have hrow : body.length = Config.rowLen := hlen
  simp only [decode, decodeLine, if_pos hrow, decodeFraming_of_framed lineByte syncByte h]

theorem decode_line_of_not_framed (h : ¬ (syncByte = 0xE4#8 ∧ 0xC0 ≤ lineByte.toNat)) :
    decode (.word .line (lineByte :: syncByte :: magByte :: packByte :: body)) =
      .ok (.lineBadframe lineByte syncByte (magByte :: packByte :: body)) := by
  have hrow : body.length = Config.rowLen := hlen
  simp only [decode, decodeLine, if_pos hrow, decodeFraming_of_not_framed lineByte syncByte h]

end

/-- Settles O34: each framing gives its own instruction, and the two instructions differ. -/
theorem framingCheck : Obligations.FramingCheck := by
  intro lineByte syncByte magByte packByte body hlen
  by_cases h : syncByte = 0xE4#8 ∧ 0xC0 ≤ lineByte.toNat
  · rw [decode_line_of_framed lineByte syncByte magByte packByte body hlen h]
    exact ⟨iff_of_true h rfl, iff_of_false (not_not_intro h) nofun⟩
  · rw [decode_line_of_not_framed lineByte syncByte magByte packByte body hlen h]
    exact ⟨iff_of_false h nofun, iff_of_true h rfl⟩

end Sys2Proof.Proofs.LineFraming
end

section
/-!
PROOFS. A well-framed line whose address is damaged (R164): it selects no packet, and one `CodeError` is all it leaves.
-/

namespace Sys2Proof.Proofs.AddressMiss

open Sys2Proof Sys2Proof.Machine Sys2Proof.Claims

/-- The address decode selects no packet exactly when a look-up returns the sentinel (R164). -/
theorem decodeAddress_eq_addrErr_iff (magByte packByte : Byte) :
    decodeAddress magByte packByte = .addrErr ↔ ham84 magByte = 255#8 ∨ ham84 packByte = 255#8 := by
  rw [← hamNibble_eq_none, ← hamNibble_eq_none, decodeAddress]
  cases hamNibble magByte with
  | none => simp
  | some magRaw =>
    cases hamNibble packByte with
    | none => simp
    | some packRaw => simp only [packetKind]; split_ifs <;> simp

/-- `CodeError` is not structural: its counter goes up by one and the mode stays (R212, R213). -/
theorem addressMiss_eq (s : State) : addressMiss Config.std s = { s with cnt := counted .codeError s } :=
  raise_eq Config.std .codeError s

theorem exec_lineFramed_of_addrErr (low : BitVec 6) (magByte packByte : Byte) (body : List Byte) (s : State)
    (h : decodeAddress magByte packByte = .addrErr) :
    exec (.lineFramed low magByte packByte body) s = .next (addressMiss Config.std s) := by
  simp only [exec, execLineFramed, framedLine, h]

theorem exec_pktAddrErr (magByte packByte : Byte) (body : List Byte) (s : State) :
    exec (.pktAddrErr magByte packByte body) s = .next (addressMiss Config.std s) := rfl

/-- Settles O36: `LINE.FRAMED` takes the same `addressMiss` as `PKT.ADDRERR`, whichever byte is invalid. -/
theorem addressMiss : Obligations.AddressMiss := by
  intro low magByte packByte body s hinvalid
  have haddr := (decodeAddress_eq_addrErr_iff magByte packByte).mpr hinvalid
  rw [exec_lineFramed_of_addrErr low magByte packByte body s haddr, exec_pktAddrErr, addressMiss_eq]
  exact ⟨rfl, rfl⟩

end Sys2Proof.Proofs.AddressMiss
end

section
/-!
PROOFS. The cache of the Page Manager (R197): its keys are distinct page numbers from 100 to 899, so it has at most 800
entries, and the page completed last is the only one under its number.
-/

namespace Sys2Proof.Proofs.CacheOnePage

open Sys2Proof Sys2Proof.Machine

/-! ### Keys that strictly rise -/

theorem pairwise_keys_of_assocSorted {α : Type} (l : List (Nat × α)) (h : assocSorted l = true) :
    (l.map fun x => x.1).Pairwise (· < ·) := by
  induction l with
  | nil => exact List.Pairwise.nil
  | cons x l ih =>
    simp only [assocSorted, Bool.and_eq_true, assocAbove_iff] at h
    obtain ⟨habove, hsorted⟩ := h
    exact List.pairwise_cons.mpr ⟨by simpa using habove, ih hsorted⟩

theorem nodup_keys_of_assocSorted {α : Type} (l : List (Nat × α)) (h : assocSorted l = true) :
    (l.map fun x => x.1).Nodup :=
  (pairwise_keys_of_assocSorted l h).imp Nat.ne_of_lt

/-- In canonical form the first entry under a key is the only one. -/
theorem mem_iff_assocFind {α : Type} (k : Nat) (v : α) (l : List (Nat × α)) (h : assocSorted l = true) :
    (k, v) ∈ l ↔ assocFind k l = some v := by
  induction l with
  | nil => simp [assocFind]
  | cons x l ih =>
    obtain ⟨a, w⟩ := x
    simp only [assocSorted, Bool.and_eq_true, assocAbove_iff] at h
    obtain ⟨habove, hsorted⟩ := h
    by_cases hk : k = a
    · subst hk
      have habsent : (k, v) ∉ l := fun hmem => lt_irrefl k (habove _ hmem)
      simp [assocFind, habsent, eq_comm]
    · simp [assocFind, hk, ih hsorted]

/-! ### Page numbers -/

/-- A page number is its magazine's hundred, 800 for magazine 0, plus a relative page of at most 99 (R27). -/
theorem page_range_of_wf (p : Page) (h : p.wf = true) : 100 ≤ p.page ∧ p.page < 900 := by
  simp only [Page.wf, identityWf, Bool.and_eq_true, decide_eq_true_eq] at h
  obtain ⟨⟨⟨⟨hrel, hpage⟩, -⟩, -⟩, -⟩ := h
  have hrel : p.relativePage ≤ 99 := hrel
  split at hpage
  · omega
  · next hmag =>
    have hpos : p.magazine.toNat ≠ 0 := fun e => hmag (BitVec.eq_of_toNat_eq e)
    omega

/-! ### The cache -/

theorem cacheEntryOk_iff (x : Nat × Page) : cacheEntryOk x = true ↔ x.2.page = x.1 ∧ x.2.wf = true := by
  simp [cacheEntryOk]

theorem cacheWf_iff (h : PageManager) :
    h.CacheWf ↔ assocSorted h.cache = true ∧ ∀ x ∈ h.cache, x.2.page = x.1 ∧ x.2.wf = true := by
  simp only [PageManager.CacheWf, List.all_eq_true, cacheEntryOk_iff]

theorem cache_pageCompleted_of_enabled (h : PageManager) (p : Page) (he : h.enabled = true) :
    (h.pageCompleted p).cache = assocInsert p.page p h.cache := if_pos he

theorem cache_pageCompleted_of_not_enabled (h : PageManager) (p : Page) (he : ¬ h.enabled = true) :
    (h.pageCompleted p).cache = h.cache := if_neg he

/-- The event keeps the canonical form: it stores a well-formed page under the page's own number, or nothing. -/
theorem cacheWf_pageCompleted (h : PageManager) (p : Page) (hc : h.CacheWf) (hp : p.wf = true) :
    (h.pageCompleted p).CacheWf := by
  rw [cacheWf_iff] at hc ⊢
  obtain ⟨hsorted, hentries⟩ := hc
  by_cases he : h.enabled = true
  · rw [cache_pageCompleted_of_enabled h p he]
    refine ⟨assocSorted_insert _ _ _ hsorted, fun x hx => ?_⟩
    obtain rfl | hold := mem_assocInsert _ _ _ _ hx
    · exact ⟨rfl, hp⟩
    · exact hentries x hold
  · rw [cache_pageCompleted_of_not_enabled h p he]
    exact ⟨hsorted, hentries⟩

/-- Distinct keys, each one of the 800 page numbers 100 to 899. -/
theorem cache_length_le (h : PageManager) (hc : h.CacheWf) : h.cache.length ≤ 800 := by
  obtain ⟨hsorted, hentries⟩ := (cacheWf_iff h).mp hc
  have hsubset : (h.cache.map fun x => x.1) ⊆ List.range' 100 800 := by
    intro k hk
    obtain ⟨x, hx, rfl⟩ := List.mem_map.mp hk
    obtain ⟨hkey, hwf⟩ := hentries x hx
    have hrange := page_range_of_wf x.2 hwf
    rw [List.mem_range'_1, ← hkey]
    omega
  have hle := ((nodup_keys_of_assocSorted _ hsorted).subperm hsubset).length_le
  rwa [List.length_map, List.length_range'] at hle

/-- With decoding enabled the event's page is the only one under its number, whatever the sub-pages. -/
theorem mem_cache_pageCompleted_iff (h : PageManager) (p q : Page) (hc : h.CacheWf) (he : h.enabled = true) :
    (p.page, q) ∈ (h.pageCompleted p).cache ↔ q = p := by
  obtain ⟨hsorted, -⟩ := hc
  rw [cache_pageCompleted_of_enabled h p he,
    mem_iff_assocFind _ _ _ (assocSorted_insert _ _ _ hsorted), assocFind_insert_same, Option.some_inj, eq_comm]

/-- Settles O49: the event keeps the canonical form, and the other three facts are read off it. -/
theorem cacheOnePagePerNumber : Obligations.CacheOnePagePerNumber := by
  intro h p hc hp
  have hkept := cacheWf_pageCompleted h p hc hp
  exact ⟨hkept, nodup_keys_of_assocSorted _ hkept.1, cache_length_le _ hkept,
    fun he q => mem_cache_pageCompleted_iff h p q hc he⟩

end Sys2Proof.Proofs.CacheOnePage
end

section
/-!
PROOFS. Decoding and encoding (R70 to R79, R84, R109). Each format has one function that gives the instruction its
bytes stand for; decoding succeeds on the bytes of the format's length and gives that instruction, whose encoding is
the bytes.
-/

namespace Sys2Proof.Proofs.Words

open Sys2Proof Sys2Proof.Machine Sys2Proof.Claims
open Sys2Proof.Proofs.AddressAssembly (decodeAddress_hamCode)
open Sys2Proof.Proofs.AddressMiss (decodeAddress_eq_addrErr_iff)

/-! ### The instruction that bytes of a format stand for -/

/-- The instruction of a data identifier (R73). -/
def unitInstr (did : Byte) : Instr :=
  match decodeDid did with
  | .ttx low => .unitTtx low
  | .unknown => .unitUnknown did

/-- The instruction of a record (R75). -/
def recordInstr (t : Byte) (body : List Byte) : Instr :=
  match decodeType t with
  | .line second => .recLine second body
  | .fill => .recFill body
  | .unk => .recUnk t body

/-- The instruction of a data line (R77). -/
def lineInstr (lineByte syncByte magByte packByte : Byte) (body : List Byte) : Instr :=
  match decodeFraming lineByte syncByte with
  | .framed low => .lineFramed low magByte packByte body
  | .bad => .lineBadframe lineByte syncByte (magByte :: packByte :: body)

/-- The instruction of an addressed packet (R79). -/
def packetInstr (magByte packByte : Byte) (body : List Byte) : Instr :=
  match decodeAddress magByte packByte with
  | .hdr m => .pktHdr m body
  | .row k m => .pktRow k m body
  | .ext k m => .pktExt k m body
  | .addrErr => .pktAddrErr magByte packByte body

/-- The instruction of a byte where `HAM84` applies (R103, R105). -/
def hamInstr (b : Byte) : Instr :=
  match hamNibble b with
  | some v => .h84 v
  | none => .h84Invalid b

/-- The instruction of a byte where `ODDPAR` applies (R107, R108). -/
def parInstr (b : Byte) : Instr :=
  match parChar b with
  | some c => .par c
  | none => .parInvalid b

/-! ### Decoding: exactly the bytes of a format's length -/

theorem decode_unit_iff (bytes : List Byte) (i : Instr) :
    decode (.word .unit bytes) = .ok i ↔ ∃ did, bytes = [did] ∧ i = unitInstr did := by
  match bytes with
  | [] => simp [decode, decodeUnit]
  | [did] =>
    simp only [decode, decodeUnit, unitInstr]
    cases hd : decodeDid did <;> simp [hd, eq_comm]
  | _ :: _ :: _ => simp [decode, decodeUnit]

theorem decode_record_iff (bytes : List Byte) (i : Instr) :
    decode (.word .record bytes) = .ok i ↔
      ∃ t n body, bytes = t :: n :: body ∧ body.length = n.toNat ∧ i = recordInstr t body := by
  match bytes with
  | [] => simp [decode, decodeRecord]
  | [_] => simp [decode, decodeRecord]
  | t :: n :: body =>
    simp only [decode, decodeRecord, recordInstr]
    by_cases hlen : body.length = n.toNat
    · cases ht : decodeType t <;> simp [hlen, ht, eq_comm]
    · simp [hlen]

theorem decode_line_iff (bytes : List Byte) (i : Instr) :
    decode (.word .line bytes) = .ok i ↔ ∃ lb sb mb pb body,
      bytes = lb :: sb :: mb :: pb :: body ∧ body.length = 40 ∧ i = lineInstr lb sb mb pb body := by
  match bytes with
  | [] => simp [decode, decodeLine]
  | [_] => simp [decode, decodeLine]
  | [_, _] => simp [decode, decodeLine]
  | [_, _, _] => simp [decode, decodeLine]
  | lb :: sb :: mb :: pb :: body =>
    simp only [decode, decodeLine, lineInstr]
    by_cases hlen : body.length = 40
    · cases hf : decodeFraming lb sb <;> simp [hlen, hf, eq_comm]
    · simp [hlen]

theorem decode_packet_iff (bytes : List Byte) (i : Instr) :
    decode (.word .packet bytes) = .ok i ↔ ∃ mb pb body,
      bytes = mb :: pb :: body ∧ body.length = 40 ∧ i = packetInstr mb pb body := by
  match bytes with
  | [] => simp [decode, decodePacket]
  | [_] => simp [decode, decodePacket]
  | mb :: pb :: body =>
    simp only [decode, decodePacket, packetInstr]
    by_cases hlen : body.length = 40
    · cases ha : decodeAddress mb pb <;> simp [hlen, ha, eq_comm]
    · simp [hlen]

theorem decode_ham84_iff (bytes : List Byte) (i : Instr) :
    decode (.word .ham84 bytes) = .ok i ↔ ∃ b, bytes = [b] ∧ i = hamInstr b := by
  match bytes with
  | [] => simp [decode, decodeHam]
  | [b] =>
    simp only [decode, decodeHam, hamInstr]
    cases hb : hamNibble b <;> simp [hb, eq_comm]
  | _ :: _ :: _ => simp [decode, decodeHam]

theorem decode_oddpar_iff (bytes : List Byte) (i : Instr) :
    decode (.word .oddpar bytes) = .ok i ↔ ∃ b, bytes = [b] ∧ i = parInstr b := by
  match bytes with
  | [] => simp [decode, decodePar]
  | [b] =>
    simp only [decode, decodePar, parInstr]
    cases hb : parChar b <;> simp [hb, eq_comm]
  | _ :: _ :: _ => simp [decode, decodePar]

theorem decode_unit (did : Byte) : decode (.word .unit [did]) = .ok (unitInstr did) :=
  (decode_unit_iff _ _).mpr ⟨did, rfl, rfl⟩

theorem decode_record (t n : Byte) (body : List Byte) (hlen : body.length = n.toNat) :
    decode (.word .record (t :: n :: body)) = .ok (recordInstr t body) :=
  (decode_record_iff _ _).mpr ⟨t, n, body, rfl, hlen, rfl⟩

theorem decode_line (lb sb mb pb : Byte) (body : List Byte) (hlen : body.length = 40) :
    decode (.word .line (lb :: sb :: mb :: pb :: body)) = .ok (lineInstr lb sb mb pb body) :=
  (decode_line_iff _ _).mpr ⟨lb, sb, mb, pb, body, rfl, hlen, rfl⟩

theorem decode_packet (mb pb : Byte) (body : List Byte) (hlen : body.length = 40) :
    decode (.word .packet (mb :: pb :: body)) = .ok (packetInstr mb pb body) :=
  (decode_packet_iff _ _).mpr ⟨mb, pb, body, rfl, hlen, rfl⟩

theorem decode_ham84 (b : Byte) : decode (.word .ham84 [b]) = .ok (hamInstr b) :=
  (decode_ham84_iff _ _).mpr ⟨b, rfl, rfl⟩

theorem decode_oddpar (b : Byte) : decode (.word .oddpar [b]) = .ok (parInstr b) :=
  (decode_oddpar_iff _ _).mpr ⟨b, rfl, rfl⟩

/-- Bytes of a format and the instruction they stand for. -/
inductive StandsFor : Level → List Byte → Instr → Prop where
  | unit (did : Byte) : StandsFor .unit [did] (unitInstr did)
  | record (t n : Byte) (body : List Byte) (hlen : body.length = n.toNat) :
    StandsFor .record (t :: n :: body) (recordInstr t body)
  | line (lb sb mb pb : Byte) (body : List Byte) (hlen : body.length = 40) :
    StandsFor .line (lb :: sb :: mb :: pb :: body) (lineInstr lb sb mb pb body)
  | packet (mb pb : Byte) (body : List Byte) (hlen : body.length = 40) :
    StandsFor .packet (mb :: pb :: body) (packetInstr mb pb body)
  | ham84 (b : Byte) : StandsFor .ham84 [b] (hamInstr b)
  | oddpar (b : Byte) : StandsFor .oddpar [b] (parInstr b)

/-- What bytes decode to is what they stand for (R70). -/
theorem standsFor_of_decode (l : Level) (bytes : List Byte) (i : Instr) (h : decode (.word l bytes) = .ok i) :
    StandsFor l bytes i := by
  cases l with
  | unit =>
    obtain ⟨did, rfl, rfl⟩ := (decode_unit_iff _ _).mp h
    exact .unit did
  | record =>
    obtain ⟨t, n, body, rfl, hlen, rfl⟩ := (decode_record_iff _ _).mp h
    exact .record t n body hlen
  | line =>
    obtain ⟨lb, sb, mb, pb, body, rfl, hlen, rfl⟩ := (decode_line_iff _ _).mp h
    exact .line lb sb mb pb body hlen
  | packet =>
    obtain ⟨mb, pb, body, rfl, hlen, rfl⟩ := (decode_packet_iff _ _).mp h
    exact .packet mb pb body hlen
  | ham84 =>
    obtain ⟨b, rfl, rfl⟩ := (decode_ham84_iff _ _).mp h
    exact .ham84 b
  | oddpar =>
    obtain ⟨b, rfl, rfl⟩ := (decode_oddpar_iff _ _).mp h
    exact .oddpar b

/-! ### The maps of each format and their encodings -/

theorem decodeDid_ttx : ∀ low : Nibble, decodeDid (0x10#8 ||| low.setWidth 8) = .ttx low := by decide

theorem didUnknown_of_decodeDid (did : Byte) (h : decodeDid did = .unknown) : didUnknown did = true := by
  unfold decodeDid at h
  split_ifs at h with hknown
  rw [didUnknown, ← Bool.decide_and, Bool.not_eq_true', decide_eq_false_iff_not]
  exact hknown

theorem decodeDid_of_didUnknown (did : Byte) (h : didUnknown did = true) : decodeDid did = .unknown := by
  rw [didUnknown, ← Bool.decide_and, Bool.not_eq_true', decide_eq_false_iff_not] at h
  exact if_neg h

theorem did_of_decodeDid (did : Byte) (low : Nibble) (h : decodeDid did = .ttx low) :
    0x10#8 ||| low.setWidth 8 = did := by
  have hbits : ∀ did : Byte, 0x10#8 ≤ did ∧ did ≤ 0x1F#8 → 0x10#8 ||| (did.setWidth 4).setWidth 8 = did := by decide
  unfold decodeDid at h
  split_ifs at h with hknown
  rw [← UnitKind.ttx.inj h, hbits did hknown]

theorem decodeType_eq_unk_iff (t : Byte) : decodeType t = .unk ↔ typeUnknown t = true := by
  unfold decodeType typeUnknown
  split_ifs <;> simp_all

theorem decodeFraming_framed : ∀ low : BitVec 6, decodeFraming (0xC0#8 ||| low.setWidth 8) 0xE4#8 = .framed low := by
  decide

theorem decodeFraming_eq_bad_iff (lb sb : Byte) : decodeFraming lb sb = .bad ↔ wellFramed lb sb = false := by
  rw [decodeFraming, wellFramed, ← Bool.decide_and, decide_eq_false_iff_not]
  split_ifs with h <;> simp [h]

theorem bytes_of_decodeFraming (lb sb : Byte) (low : BitVec 6) (h : decodeFraming lb sb = .framed low) :
    0xC0#8 ||| low.setWidth 8 = lb ∧ sb = 0xE4#8 := by
  have hbits : ∀ lb : Byte, lb.extractLsb' 6 2 = 3#2 → 0xC0#8 ||| (lb.setWidth 6).setWidth 8 = lb := by decide
  unfold decodeFraming at h
  split_ifs at h with hframed
  obtain ⟨hsync, htop⟩ := hframed
  exact ⟨by rw [← FrameKind.framed.inj h, hbits lb htop], hsync⟩

/-- The two address bytes of a magazine and a packet number decode to them (R87, R78). -/
theorem decodeAddress_addrBytes (m : Mag) (k : PacketNo) :
    decodeAddress (hamCode (m.setWidth 4 ||| ((k &&& 1#5).setWidth 4 <<< 3))) (hamCode ((k >>> 1).setWidth 4)) =
      packetKind k m := by
  have hbits : ∀ (m : Mag) (k : PacketNo),
      packetOf (m.setWidth 4 ||| ((k &&& 1#5).setWidth 4 <<< 3)) ((k >>> 1).setWidth 4) = k ∧
        magOf (m.setWidth 4 ||| ((k &&& 1#5).setWidth 4 <<< 3)) = m := by decide
  obtain ⟨hpacket, hmag⟩ := hbits m k
  rw [decodeAddress_hamCode, hpacket, hmag]

/-- Address bytes that select a packet are the two address bytes of its magazine and number (R78, R87). -/
theorem addrBytes_of_hamCode (magRaw packRaw : Nibble) :
    addrBytes (magOf magRaw) (packetOf magRaw packRaw) = [hamCode magRaw, hamCode packRaw] := by
  have hbits : ∀ magRaw packRaw : Nibble,
      (magOf magRaw).setWidth 4 ||| ((packetOf magRaw packRaw &&& 1#5).setWidth 4 <<< 3) = magRaw ∧
        (packetOf magRaw packRaw >>> 1).setWidth 4 = packRaw := by decide
  obtain ⟨hmag, hpack⟩ := hbits magRaw packRaw
  rw [addrBytes, hmag, hpack]

/-- What two address bytes select: no packet, or the packet whose address bytes they are (R79, R164). -/
theorem decodeAddress_cases (mb pb : Byte) :
    decodeAddress mb pb = .addrErr ∨ ∃ m k, addrBytes m k = [mb, pb] ∧ decodeAddress mb pb = packetKind k m := by
  cases hm : hamNibble mb with
  | none => exact .inl ((decodeAddress_eq_addrErr_iff mb pb).mpr (.inl ((hamNibble_eq_none mb).mp hm)))
  | some magRaw =>
    cases hp : hamNibble pb with
    | none => exact .inl ((decodeAddress_eq_addrErr_iff mb pb).mpr (.inr ((hamNibble_eq_none pb).mp hp)))
    | some packRaw =>
      rw [(hamNibble_eq_some mb magRaw).mp hm, (hamNibble_eq_some pb packRaw).mp hp]
      exact .inr ⟨magOf magRaw, packetOf magRaw packRaw, addrBytes_of_hamCode magRaw packRaw,
        decodeAddress_hamCode magRaw packRaw⟩

/-- Number 0 is a header, 1 to 25 a row, 26 to 31 an extension packet (R79). -/
theorem packetKind_cases (k : PacketNo) (m : Mag) :
    (k = 0#5 ∧ packetKind k m = .hdr m) ∨ (isRowNo k = true ∧ packetKind k m = .row k m) ∨
      (isExtNo k = true ∧ packetKind k m = .ext k m) := by
  revert k m
  decide

theorem packetKind_of_isRowNo (k : PacketNo) (m : Mag) (h : isRowNo k = true) : packetKind k m = .row k m := by
  revert k m
  decide

theorem packetKind_of_isExtNo (k : PacketNo) (m : Mag) (h : isExtNo k = true) : packetKind k m = .ext k m := by
  revert k m
  decide

/-! ### Encoding what was decoded -/

theorem encode_unitInstr (did : Byte) : encode (unitInstr did) = .word .unit [did] := by
  unfold unitInstr
  cases hd : decodeDid did with
  | ttx low => simp only [encode, did_of_decodeDid did low hd]
  | unknown => rfl

theorem wf_unitInstr (did : Byte) : (unitInstr did).wf = true := by
  unfold unitInstr
  cases hd : decodeDid did with
  | ttx low => rfl
  | unknown => exact didUnknown_of_decodeDid did hd

/-- The type of a record is read off its operation but for the types that have none (R75). -/
theorem type_of_decodeType (t : Byte) :
    (t = 0x02#8 ∧ decodeType t = .line false) ∨ (t = 0x03#8 ∧ decodeType t = .line true) ∨
      (t = 0xFF#8 ∧ decodeType t = .fill) ∨ decodeType t = .unk := by
  unfold decodeType
  split_ifs <;> simp_all

theorem encode_recordInstr (t : Byte) (body : List Byte) :
    encode (recordInstr t body) = .word .record (recordBytes t body) := by
  unfold recordInstr
  obtain ⟨rfl, ht⟩ | ⟨rfl, ht⟩ | ⟨rfl, ht⟩ | ht := type_of_decodeType t <;> rw [ht] <;> rfl

theorem wf_recordInstr (t : Byte) (body : List Byte) (hlen : body.length ≤ 255) :
    (recordInstr t body).wf = true := by
  have hfits : bodyFits body = true := decide_eq_true hlen
  unfold recordInstr
  cases ht : decodeType t with
  | line second => exact hfits
  | fill => exact hfits
  | unk => exact Bool.and_eq_true_iff.mpr ⟨(decodeType_eq_unk_iff t).mp ht, hfits⟩

theorem encode_lineInstr (lb sb mb pb : Byte) (body : List Byte) :
    encode (lineInstr lb sb mb pb body) = .word .line (lb :: sb :: mb :: pb :: body) := by
  unfold lineInstr
  cases hf : decodeFraming lb sb with
  | framed low =>
    obtain ⟨hlow, hsync⟩ := bytes_of_decodeFraming lb sb low hf
    simp only [encode, hlow, hsync]
  | bad => rfl

theorem wf_lineInstr (lb sb mb pb : Byte) (body : List Byte) (hlen : body.length = 40) :
    (lineInstr lb sb mb pb body).wf = true := by
  unfold lineInstr
  cases hf : decodeFraming lb sb with
  | framed low => exact decide_eq_true hlen
  | bad => simp [Instr.wf, (decodeFraming_eq_bad_iff lb sb).mp hf, hlen]

theorem encode_packetInstr (mb pb : Byte) (body : List Byte) :
    encode (packetInstr mb pb body) = .word .packet (mb :: pb :: body) := by
  unfold packetInstr
  obtain ha | ⟨m, k, hbytes, ha⟩ := decodeAddress_cases mb pb
  · rw [ha]; rfl
  · have hword : mb :: pb :: body = addrBytes m k ++ body := by rw [hbytes]; rfl
    rw [ha, hword]
    obtain ⟨rfl, hk⟩ | ⟨-, hk⟩ | ⟨-, hk⟩ := packetKind_cases k m <;> rw [hk] <;> rfl

theorem wf_packetInstr (mb pb : Byte) (body : List Byte) (hlen : body.length = 40) :
    (packetInstr mb pb body).wf = true := by
  have hbody : bodyIsPacket body = true := decide_eq_true hlen
  unfold packetInstr
  obtain ha | ⟨m, k, -, ha⟩ := decodeAddress_cases mb pb
  · have hmiss := (decodeAddress_eq_addrErr_iff mb pb).mp ha
    rw [ha]
    simpa [Instr.wf, addressInvalid, hbody] using hmiss
  · rw [ha]
    obtain ⟨rfl, hk⟩ | ⟨hrow, hk⟩ | ⟨hext, hk⟩ := packetKind_cases k m <;> rw [hk]
    · exact hbody
    · exact Bool.and_eq_true_iff.mpr ⟨hrow, hbody⟩
    · exact Bool.and_eq_true_iff.mpr ⟨hext, hbody⟩

theorem encode_hamInstr (b : Byte) : encode (hamInstr b) = .word .ham84 [b] := by
  unfold hamInstr
  cases hb : hamNibble b with
  | some v => rw [(hamNibble_eq_some b v).mp hb]; rfl
  | none => rfl

theorem wf_hamInstr (b : Byte) : (hamInstr b).wf = true := by
  unfold hamInstr
  cases hb : hamNibble b with
  | some v => rfl
  | none => exact decide_eq_true ((hamNibble_eq_none b).mp hb)

theorem encode_parInstr (b : Byte) : encode (parInstr b) = .word .oddpar [b] := by
  unfold parInstr
  cases hb : parChar b with
  | some c => rw [(parChar_eq_some b c).mp hb]; rfl
  | none => rfl

theorem wf_parInstr (b : Byte) : (parInstr b).wf = true := by
  unfold parInstr
  cases hb : parChar b with
  | some c => rfl
  | none => exact decide_eq_true ((parChar_eq_none b).mp hb)

/-- Format 1 loses nothing: the `sop` bit is the choice between the two `FRAG` instructions (R71). -/
theorem encode_decodeInput (x : Input) : encode (decodeInput x) = .port x := by
  cases x with
  | frag sop data ts => cases sop <;> rfl
  | _ => rfl

/-- Bytes are the encoding of what they stand for, and that is well formed. -/
theorem StandsFor.encode_and_wf {l : Level} {bytes : List Byte} {i : Instr} (h : StandsFor l bytes i) :
    encode i = .word l bytes ∧ i.wf = true := by
  cases h with
  | unit did => exact ⟨encode_unitInstr did, wf_unitInstr did⟩
  | record t n body hlen =>
    have hn : BitVec.ofNat 8 body.length = n := by rw [hlen, BitVec.ofNat_toNat, BitVec.setWidth_eq]
    exact ⟨by rw [encode_recordInstr, recordBytes, hn], wf_recordInstr t body (by omega)⟩
  | line lb sb mb pb body hlen => exact ⟨encode_lineInstr lb sb mb pb body, wf_lineInstr lb sb mb pb body hlen⟩
  | packet mb pb body hlen => exact ⟨encode_packetInstr mb pb body, wf_packetInstr mb pb body hlen⟩
  | ham84 b => exact ⟨encode_hamInstr b, wf_hamInstr b⟩
  | oddpar b => exact ⟨encode_parInstr b, wf_parInstr b⟩

/-- Settles O10: format by format, the encoding of the instruction that the bytes stand for is the bytes. -/
theorem encodeOfDecode : Obligations.EncodeOfDecode := by
  intro e i h
  cases e with
  | port x =>
    obtain rfl : decodeInput x = i := Except.ok.inj h
    exact ⟨encode_decodeInput x, fun ⟨_, _, hword⟩ => by cases hword⟩
  | word l bytes =>
    obtain ⟨hencode, hwf⟩ := (standsFor_of_decode l bytes i h).encode_and_wf
    exact ⟨hencode, fun _ => hwf⟩

/-! ### Decoding what was encoded -/

theorem decode_recordBytes (t : Byte) (body : List Byte) (h : bodyFits body = true) :
    decode (.word .record (recordBytes t body)) = .ok (recordInstr t body) := by
  have hlen : body.length ≤ 255 := of_decide_eq_true h
  exact decode_record t _ body (by rw [BitVec.toNat_ofNat]; omega)

/-- Settles O9: the instruction that the bytes of the encoding stand for is the encoded one. -/
theorem decodeOfEncode : Obligations.DecodeOfEncode := by
  intro i hwf
  cases i with
  | unitTtx low => exact (decode_unit _).trans (by rw [unitInstr, decodeDid_ttx])
  | unitUnknown did => exact (decode_unit did).trans (by rw [unitInstr, decodeDid_of_didUnknown did hwf])
  | recLine second body => cases second <;> exact decode_recordBytes _ body hwf
  | recFill body => exact decode_recordBytes _ body hwf
  | recUnk t body =>
    obtain ⟨ht, hbody⟩ := Bool.and_eq_true_iff.mp hwf
    exact (decode_recordBytes t body hbody).trans (by rw [recordInstr, (decodeType_eq_unk_iff t).mpr ht])
  | lineFramed low mb pb body =>
    exact (decode_line _ _ mb pb body (of_decide_eq_true hwf)).trans (by rw [lineInstr, decodeFraming_framed])
  | lineBadframe lb sb rest =>
    obtain ⟨hbad, hlen⟩ := Bool.and_eq_true_iff.mp hwf
    match rest, of_decide_eq_true hlen with
    | mb :: pb :: body, hlen =>
      have hframing := (decodeFraming_eq_bad_iff lb sb).mpr (by simpa using hbad)
      exact (decode_line lb sb mb pb body (by simpa using hlen)).trans (by rw [lineInstr, hframing])
  | pktHdr m body =>
    exact (decode_packet _ _ body (of_decide_eq_true hwf)).trans (by rw [packetInstr, decodeAddress_addrBytes]; rfl)
  | pktRow k m body =>
    obtain ⟨hrow, hlen⟩ := Bool.and_eq_true_iff.mp hwf
    exact (decode_packet _ _ body (of_decide_eq_true hlen)).trans
      (by rw [packetInstr, decodeAddress_addrBytes, packetKind_of_isRowNo k m hrow])
  | pktExt k m body =>
    obtain ⟨hext, hlen⟩ := Bool.and_eq_true_iff.mp hwf
    exact (decode_packet _ _ body (of_decide_eq_true hlen)).trans
      (by rw [packetInstr, decodeAddress_addrBytes, packetKind_of_isExtNo k m hext])
  | pktAddrErr mb pb body =>
    obtain ⟨hmiss, hlen⟩ := Bool.and_eq_true_iff.mp hwf
    have haddr := (decodeAddress_eq_addrErr_iff mb pb).mpr (by simpa [addressInvalid] using hmiss)
    exact (decode_packet mb pb body (of_decide_eq_true hlen)).trans (by rw [packetInstr, haddr])
  | h84 v => exact (decode_ham84 _).trans (by rw [hamInstr, hamNibble_hamCode])
  | h84Invalid b =>
    exact (decode_ham84 b).trans (by rw [hamInstr, (hamNibble_eq_none b).mpr (of_decide_eq_true hwf)])
  | par c => exact (decode_oddpar _).trans (by rw [parInstr, parChar_parCode])
  | parInvalid b =>
    exact (decode_oddpar b).trans (by rw [parInstr, (parChar_eq_none b).mpr (of_decide_eq_true hwf)])
  | _ => rfl

/-- Settles O11: every format decodes the bytes of its length. -/
theorem everyWordDecodes : Obligations.EveryWordDecodes := by
  refine ⟨fun did => ⟨_, decode_unit did⟩, fun t n body hlen => ⟨_, decode_record t n body hlen⟩, ?_, ?_,
    fun b => ⟨_, decode_ham84 b⟩, fun b => ⟨_, decode_oddpar b⟩, fun x => ⟨_, rfl⟩⟩
  · intro bytes hlen
    match bytes, hlen with
    | lb :: sb :: mb :: pb :: body, hlen => exact ⟨_, decode_line lb sb mb pb body (by simpa using hlen)⟩
  · intro bytes hlen
    match bytes, hlen with
    | mb :: pb :: body, hlen => exact ⟨_, decode_packet mb pb body (by simpa using hlen)⟩

/-- Settles O13: the bytes of each word evaluated by the maps of its format. -/
theorem writtenWordsDecode : Obligations.WrittenWordsDecode := by
  unfold Obligations.WrittenWordsDecode
  decide

end Sys2Proof.Proofs.Words
end

section
/-!
PROOFS. What an element of a unit does once its bytes are decoded, and what one step takes (R6, R141 to R147): the input
at the head of the queue, or the element under the scan pointer.
-/

namespace Sys2Proof.Proofs.Elements

open Sys2Proof Sys2Proof.Machine Sys2Proof.Claims Sys2Proof.Proofs.Words

/-! ### The meaning of decoded bytes -/

theorem exec_unitInstr (did : Byte) (s : State) : exec (unitInstr did) s = unit Config.std did s := by
  unfold unitInstr unit
  cases decodeDid did <;> rfl

theorem exec_recordInstr (t : Byte) (body : List Byte) (s : State) :
    exec (recordInstr t body) s = .next (record Config.std t body s) := by
  unfold recordInstr record
  cases decodeType t <;> rfl

theorem exec_lineInstr (lb sb mb pb : Byte) (body : List Byte) (s : State) :
    exec (lineInstr lb sb mb pb body) s = .next (dataLine Config.std (lb :: sb :: mb :: pb :: body) s) := by
  unfold lineInstr dataLine
  cases hf : decodeFraming lb sb <;> simp only [hf] <;> rfl

theorem exec_packetInstr (mb pb : Byte) (body : List Byte) (s : State) :
    exec (packetInstr mb pb body) s = .next (framedLine Config.std mb pb body s) := by
  unfold packetInstr framedLine
  cases decodeAddress mb pb <;> rfl

theorem exec_hamInstr (b : Byte) (s : State) : exec (hamInstr b) s = .next (s.answer (ham84 b)) := by
  unfold hamInstr
  cases hb : hamNibble b with
  | some v => rw [(hamNibble_eq_some b v).mp hb]; rfl
  | none => rfl

theorem exec_parInstr (b : Byte) (s : State) : exec (parInstr b) s = .next (s.answer (oddpar b)) := by
  unfold parInstr
  cases hb : parChar b with
  | some c => rw [(parChar_eq_some b c).mp hb]; rfl
  | none => rfl

/-- Settles O35: the line and the packet do what the address routes to. -/
theorem framedLineRoutes : Obligations.FramedLineRoutes := by
  intro low mb pb body s hlen
  exact ⟨_, _, decode_packet mb pb body hlen, exec_packetInstr mb pb body s, rfl⟩

/-- A record of a wrong length ends the scan and re-arms synchronization (R144, R213). -/
theorem lineRecord_of_bad_length (body : List Byte) (s : State) (hlen : body.length ≠ 44) :
    lineRecord Config.std body s = { s with cnt := counted .badLineLength s, mode := .sync, scan := none } := by
  rw [lineRecord, if_neg hlen]
  exact raiseAndEnd_eq Config.std .badLineLength s

/-- Settles O31: the length decides; 44 bytes are the bytes of a line. -/
theorem recLineResult : Obligations.RecLineResult := by
  intro second body s
  refine ⟨fun hlen => congrArg _ (lineRecord_of_bad_length body s hlen), fun hlen => ?_⟩
  match body, hlen with
  | lb :: sb :: mb :: pb :: body, hlen =>
    exact ⟨_, _, decode_line lb sb mb pb body (by simpa using hlen), exec_lineInstr lb sb mb pb body s,
      congrArg _ (if_pos hlen)⟩

/-! ### The scan pointer after an element -/

theorem advance_of_ended (n : Nat) (s : State) (h : s.scan = none) : s.advance n = s := by
  simp only [State.advance, h]

theorem advance_of_live (n : Nat) (s : State) (sc : Scan) (h : s.scan = some sc) :
    s.advance n = s.setScan (nextLevel sc.level) (sc.pos + n) sc.stop := by
  simp only [State.advance, h]

/-- Moving the scan pointer writes the scan pointer alone. -/
theorem advance_eq (n : Nat) (s : State) : s.advance n = { s with scan := (s.advance n).scan } := by
  obtain ⟨-, e⟩ | ⟨sc, -, e⟩ := advance_cases n s
  · rw [e]
  · rw [e]; rfl

/-! ### What a step finds -/

theorem fetch_of_live (s : State) (sc : Scan) (h : s.scan = some sc) : fetch s = fetchScan s.buf sc := by
  simp only [fetch, h]

theorem take_of_live (s : State) (sc : Scan) (h : s.scan = some sc) : s.take = s := by
  simp only [State.take, h]

theorem take_of_idle (s : State) (h : s.scan = none) : s.take = { s with inputs := s.inputs.tail } := by
  simp only [State.take, h]

theorem step_of_word (s : State) (e : Encoded) (n : Nat) (i : Instr) (hf : fetch s = .word e n)
    (hd : decode e = .ok i) : step s = andThen (exec i s.take) fun t => .next (t.advance n) := by
  simp only [step, hf, hd]

theorem step_of_idle (s : State) (hs : s.scan = none) (hi : s.inputs = []) : step s = .next s := by
  simp only [step, fetch, hs, hi]

/-- Between transactions a step runs the oldest input on the state without it. -/
theorem step_of_input (s : State) (x : Input) (rest : List Input) (hs : s.scan = none) (hi : s.inputs = x :: rest) :
    step s = andThen (exec (decodeInput x) { s with inputs := rest }) fun t => .next (t.advance 0) := by
  have hf : fetch s = .word (.port x) 0 := by simp only [fetch, hs, hi]
  rw [step_of_word s _ 0 _ hf rfl, take_of_idle s hs, hi, List.tail_cons]

/-- Under a live scan pointer a step runs the element that stands there. -/
theorem step_of_element (s : State) (sc : Scan) (bytes : List Byte) (n : Nat) (i : Instr) (hs : s.scan = some sc)
    (hf : fetchScan s.buf sc = .word (.word sc.level bytes) n) (hd : decode (.word sc.level bytes) = .ok i) :
    step s = andThen (exec i s) fun t => .next (t.advance n) := by
  rw [step_of_word s _ n i ((fetch_of_live s sc hs).trans hf) hd, take_of_live s sc hs]

/-- At a record a step is one round of the scan loop (R149). -/
theorem step_eq_scanRound (s : State) (pos stop : Nat)
    (hs : s.scan = some { level := .record, pos := pos, stop := stop }) :
    step s = scanRound Config.std pos stop s := by
  have hf := fetch_of_live s _ hs
  simp only [fetchScan] at hf
  unfold scanRound
  cases hr : fetchRecord s.buf pos stop with
  | ended => simp only [step, hf, hr]
  | badLength => simp only [step, hf, hr]
  | missing a n => simp only [step, hf, hr]
  | found t n body =>
    obtain ⟨-, -, -, hbody⟩ := fetchRecord_found _ _ _ _ _ _ hr
    have hd := decode_record t n body (Memory.readBytes_length _ _ _ _ hbody)
    simp only [hr] at hf
    rw [step_of_word s _ _ _ hf hd, take_of_live s _ hs, exec_recordInstr]
    rfl

/-- What a step that answers a next state did: nothing, an end of the scan, an input, or an element of the unit. -/
inductive StepDid (s t : State) : Prop where
  | idle (ht : t = s)
  | ended (sc : Scan) (hs : s.scan = some sc) (ht : t = s.endScan)
  | badLength (sc : Scan) (hs : s.scan = some sc) (ht : t = s.raiseAndEnd Config.std .badLineLength)
  | input (x : Input) (rest : List Input) (u : State) (hs : s.scan = none) (hi : s.inputs = x :: rest)
      (hu : exec (decodeInput x) { s with inputs := rest } = .next u) (ht : t = u.advance 0)
  | element (sc : Scan) (bytes : List Byte) (n : Nat) (i : Instr) (u : State) (hs : s.scan = some sc)
      (hf : fetchScan s.buf sc = .word (.word sc.level bytes) n) (hd : decode (.word sc.level bytes) = .ok i)
      (hu : exec i s = .next u) (ht : t = u.advance n)

theorem fetchBytes_eq_word (l : Level) (m : Memory) (pos n : Nat) (e : Encoded) (k : Nat)
    (h : fetchBytes l m pos n = .word e k) : k = n ∧ ∃ bytes, m.readBytes pos n = some bytes ∧ e = .word l bytes := by
  unfold fetchBytes at h
  cases hb : m.readBytes pos n with
  | none => simp [hb] at h
  | some bytes =>
    simp only [hb, Fetched.word.injEq] at h
    obtain ⟨he, hk⟩ := h
    exact ⟨hk.symm, bytes, rfl, he.symm⟩

/-- What is fetched under the scan pointer has the format that stands there and is moved past as a whole; a record or a
code word lies before the end. -/
theorem fetchScan_eq_word (m : Memory) (sc : Scan) (e : Encoded) (n : Nat) (h : fetchScan m sc = .word e n) :
    (∃ bytes, e = .word sc.level bytes) ∧
      match sc.level with
      | .unit => n = 1
      | .record => sc.pos + n ≤ sc.stop
      | .line => n = 44
      | .packet => n = 42
      | .ham84 => sc.pos + n ≤ sc.stop
      | .oddpar => sc.pos + n ≤ sc.stop := by
  obtain ⟨level, pos, stop⟩ := sc
  cases level with
  | unit | line | packet =>
    obtain ⟨hn, bytes, -, he⟩ := fetchBytes_eq_word _ _ _ _ _ _ h
    exact ⟨⟨bytes, he⟩, hn⟩
  | record =>
    simp only [fetchScan] at h
    cases hr : fetchRecord m pos stop with
    | found t k body =>
      simp only [hr, Fetched.word.injEq] at h
      obtain ⟨rfl, rfl⟩ := h
      obtain ⟨hfits, -⟩ := fetchRecord_found _ _ _ _ _ _ hr
      exact ⟨⟨_, rfl⟩, by simp only; omega⟩
    | _ => simp [hr] at h
  | ham84 | oddpar =>
    simp only [fetchScan] at h
    split_ifs at h with hend
    obtain ⟨hn, bytes, -, he⟩ := fetchBytes_eq_word _ _ _ _ _ _ h
    exact ⟨⟨bytes, he⟩, by simp only; omega⟩

theorem stepDid_of_step (s t : State) (h : step s = .next t) : StepDid s t := by
  cases hs : s.scan with
  | none =>
    cases hi : s.inputs with
    | nil =>
      rw [step_of_idle s hs hi] at h
      cases h
      exact .idle rfl
    | cons x rest =>
      rw [step_of_input s x rest hs hi] at h
      obtain ⟨u, hu, ht⟩ := (andThen_eq_next _ _ _).mp h
      cases ht
      exact .input x rest u hs hi hu rfl
  | some sc =>
    have hf := fetch_of_live s sc hs
    cases hsc : fetchScan s.buf sc with
    | idle =>
      simp only [step, hf, hsc] at h
      cases h
      exact .idle rfl
    | ended =>
      simp only [step, hf, hsc] at h
      cases h
      exact .ended sc hs rfl
    | badLength =>
      simp only [step, hf, hsc] at h
      cases h
      exact .badLength sc hs rfl
    | missing a n =>
      simp only [step, hf, hsc] at h
      cases h
    | word e n =>
      obtain ⟨⟨bytes, rfl⟩, -⟩ := fetchScan_eq_word _ _ _ _ hsc
      cases hd : decode (.word sc.level bytes) with
      | error r =>
        simp only [step, hf, hsc, hd] at h
        cases h
      | ok i =>
        rw [step_of_element s sc bytes n i hs hsc hd] at h
        obtain ⟨u, hu, ht⟩ := (andThen_eq_next _ _ _).mp h
        cases ht
        exact .element sc bytes n i u hs hsc hd hu rfl

/-! ### A step runs what it takes -/

/-- Settles O50: the input's transaction, and no scan pointer to move. -/
theorem stepRunsTheInput : Obligations.StepRunsTheInput := by
  intro s t x rest hs hi ht hend
  rw [step_of_input s x rest hs hi, ht, andThen_next, advance_of_ended 0 t hend]

/-- A step at an element runs its instruction and then moves past its bytes, unless the scan has ended. -/
theorem step_of_element_result (s t : State) (l : Level) (pos stop n : Nat) (bytes : List Byte) (i : Instr)
    (hs : s.scan = some { level := l, pos := pos, stop := stop })
    (hf : fetchScan s.buf { level := l, pos := pos, stop := stop } = .word (.word l bytes) n)
    (hd : decode (.word l bytes) = .ok i) (ht : exec i s = .next t) :
    (t.scan = none → step s = .next t) ∧
    (t.scan = s.scan → step s = .next
      { t with scan := some { level := nextLevel l, pos := pos + n, stop := stop } }) := by
  rw [step_of_element s _ bytes n i hs hf hd, ht, andThen_next]
  exact ⟨fun hend => by rw [advance_of_ended n t hend],
    fun hlive => by rw [advance_of_live n t _ (hlive.trans hs)]; rfl⟩

theorem fetchRecord_of_fits (m : Memory) (pos stop : Nat) (t n : Byte) (body : List Byte)
    (ht : m.read pos = some t) (hn : m.read (pos + 1) = some n) (hbody : m.readBytes (pos + 2) n.toNat = some body)
    (hfits : pos + 2 + n.toNat ≤ stop) : fetchRecord m pos stop = .found t n body := by
  have hlive : ¬ stop ≤ pos := by omega
  have htwo : ¬ stop - pos < 2 := by omega
  simp only [fetchRecord, if_neg hlive, if_neg htwo, ht, hn, if_neg (Nat.not_lt.mpr hfits), hbody]

/-- Settles O51: the record that fits is the element at the scan pointer. -/
theorem stepRunsTheRecord : Obligations.StepRunsTheRecord := by
  intro s t pos stop ty n body i hs hty hn hbody hfits hd ht
  have hf : fetchScan s.buf { level := .record, pos := pos, stop := stop } =
      .word (.word .record (ty :: n :: body)) (2 + n.toNat) := by
    simp only [fetchScan, fetchRecord_of_fits s.buf pos stop ty n body hty hn hbody hfits]
  rw [Nat.add_assoc]
  exact step_of_element_result s t _ pos stop _ _ i hs hf hd ht

/-- Settles O52: bytes of a fixed length at the scan pointer are the element there, a code word before the end. -/
theorem stepRunsTheBytes : Obligations.StepRunsTheBytes := by
  intro s t l pos stop len bytes i hl hs hbytes hd ht
  refine step_of_element_result s t l pos stop len bytes i hs ?_ hd ht
  obtain ⟨rfl, rfl⟩ | ⟨rfl, rfl⟩ | ⟨rfl, rfl⟩ | ⟨rfl, rfl, hlt⟩ | ⟨rfl, rfl, hlt⟩ := hl
  · simp only [fetchScan, fetchBytes, hbytes]
  · simp only [fetchScan, fetchBytes, hbytes]
  · simp only [fetchScan, fetchBytes, hbytes]
  · simp only [fetchScan, if_neg (Nat.not_le.mpr hlt), fetchBytes, hbytes]
  · simp only [fetchScan, if_neg (Nat.not_le.mpr hlt), fetchBytes, hbytes]

theorem scanRound_of_badLength (pos stop : Nat) (s : State) (h : fetchRecord s.buf pos stop = .badLength) :
    scanRound Config.std pos stop s =
      .next { s with cnt := counted .badLineLength s, mode := .sync, scan := none } := by
  simp only [scanRound, h]
  exact congrArg _ (raiseAndEnd_eq Config.std .badLineLength s)

/-- Settles O33: the two checks of a round come before the type is looked at (R149). -/
theorem recordFramingChecks : Obligations.RecordFramingChecks := by
  intro s pos stop hs
  rw [step_eq_scanRound s pos stop hs]
  refine ⟨?_, ?_, ?_⟩
  · rintro rfl
    simp only [scanRound, fetchRecord, if_pos (le_refl pos)]
    rfl
  · rintro rfl
    refine scanRound_of_badLength pos _ s ?_
    rw [fetchRecord, if_neg (by omega), if_pos (by omega)]
  · intro t n htwo ht hn hover
    refine scanRound_of_badLength pos stop s ?_
    have hlive : ¬ stop ≤ pos := by omega
    have hfirst : ¬ stop - pos < 2 := by omega
    simp only [fetchRecord, if_neg hlive, if_neg hfirst, ht, hn, if_pos hover]

end Sys2Proof.Proofs.Elements
end

section
/-!
PROOFS. What the analysis of a unit keeps. All it does to the state are five writes: counting a diagnostic, moving or
ending the scan pointer, closing a page, opening one, storing a row. What the five keep, every element of a unit, the
scan and the four checks keep.
-/

namespace Sys2Proof.Proofs.Analysis

open Sys2Proof Sys2Proof.Machine Sys2Proof.Proofs.Words Sys2Proof.Proofs.Elements
open Sys2Proof.Proofs.CacheOnePage (cacheWf_pageCompleted)

/-- The five writes of an analysis keep `R`. -/
structure Kept (cfg : Config) (R : State → Prop) : Prop where
  raise : ∀ d s, R s → R (s.raise cfg d)
  scan : ∀ sc s, R s → R { s with scan := sc }
  close : ∀ m s, R s → R (s.closePage m)
  openPage : ∀ m f h s, f.relativePage ≤ 99 → h.length = 32 → R s → R (s.setSlot m (some (newPage m f h s.ts)))
  storeRow : ∀ m k d s, (1#5 ≤ k ∧ k ≤ 25#5) → d.length = 40 → R s → R (s.storeRow m k d)

/-- A data line is what a record of type 0x02 does with it (R144). -/
theorem record_of_line (cfg : Config) (bytes : List Byte) (s : State) (hlen : bytes.length = 44) :
    record cfg 0x02#8 bytes s = dataLine cfg bytes s := if_pos hlen

/-- An addressed packet is what a well-framed line does with it (R163). -/
theorem record_of_packet (cfg : Config) (mb pb : Byte) (body : List Byte) (s : State) (hlen : body.length = 40) :
    record cfg 0x02#8 (0xC0#8 :: 0xE4#8 :: mb :: pb :: body) s = framedLine cfg mb pb body s :=
  record_of_line cfg _ s (by simp [hlen])

section
variable {cfg : Config} {R : State → Prop} (k : Kept cfg R)
include k

theorem Kept.raiseAndEnd (d : Diag) (s : State) (h : R s) : R (s.raiseAndEnd cfg d) := k.scan none _ (k.raise d s h)

theorem Kept.advance (n : Nat) (s : State) (h : R s) : R (s.advance n) := by
  rw [advance_eq]
  exact k.scan _ s h

theorem Kept.record (t : Byte) (body : List Byte) (s : State) (h : R s) : R (record cfg t body s) :=
  record_induction cfg R t body s h k.raise (fun u hu => k.scan none u hu) k.close k.openPage k.storeRow

theorem Kept.dataLine (bytes : List Byte) (s : State) (hlen : bytes.length = 44) (h : R s) :
    R (dataLine cfg bytes s) := by
  rw [← record_of_line cfg bytes s hlen]
  exact k.record _ bytes s h

theorem Kept.framedLine (mb pb : Byte) (body : List Byte) (s : State) (hlen : body.length = 40) (h : R s) :
    R (framedLine cfg mb pb body s) := by
  rw [← record_of_packet cfg mb pb body s hlen]
  exact k.record _ _ s h

theorem Kept.dispatch (start stop : Nat) (s t : State) (h : R s) (ht : dispatch cfg start stop s = .next t) : R t :=
  dispatch_induction cfg R k.raise k.scan k.close k.openPage k.storeRow start stop s t h ht

end

/-! ### The data identifier and the four checks -/

/-- A data identifier is unknown, or the records after it are scanned (R130, R131). -/
theorem unit_cases (cfg : Config) (did : Byte) (s t : State) (h : unit cfg did s = .next t) :
    t = s.raiseAndEnd cfg .unknownDataId ∨
      ∃ sc, s.scan = some sc ∧ dispatch cfg (sc.pos + 1) sc.stop s = .next t := by
  unfold unit at h
  split at h
  · unfold knownUnit at h
    split at h
    · cases h
    · next sc hsc => exact .inr ⟨sc, hsc, h⟩
  · cases h
    exact .inl rfl

/-- A scan has ended after its unit's data identifier was taken (R131, R130). -/
theorem scan_unit (cfg : Config) (did : Byte) (s t : State) (h : unit cfg did s = .next t) : t.scan = none := by
  obtain rfl | ⟨sc, -, h⟩ := unit_cases cfg did s t h
  · rfl
  · exact scanLoop_scan cfg _ _ t h

theorem Kept.unit {cfg : Config} {R : State → Prop} (k : Kept cfg R) (did : Byte) (s t : State) (h : R s)
    (ht : unit cfg did s = .next t) : R t := by
  obtain rfl | ⟨sc, -, ht⟩ := unit_cases cfg did s t ht
  · exact k.raiseAndEnd _ s h
  · exact k.dispatch _ _ s t h ht

/-- A check fails and is counted, or the data identifier is taken (R126). -/
theorem analyse_cases (cfg : Config) (s t : State) (h : analyse cfg s = .next t) :
    (∃ d, t = s.raise cfg d) ∨ ∃ q did, unit cfg did (s.setScan .unit q s.buf.len) = .next t := by
  unfold analyse at h
  split_ifs at h
  · cases h
    exact .inl ⟨_, rfl⟩
  split at h
  · cases h
  split_ifs at h
  · cases h
    exact .inl ⟨_, rfl⟩
  unfold analyseHeader at h
  split at h
  · cases h
  dsimp only at h
  split_ifs at h
  · cases h
    exact .inl ⟨_, rfl⟩
  split at h
  · cases h
  · exact .inr ⟨_, _, h⟩

theorem Kept.analyse {cfg : Config} {R : State → Prop} (k : Kept cfg R) (s t : State) (h : R s)
    (ht : analyse cfg s = .next t) : R t := by
  obtain ⟨d, rfl⟩ | ⟨q, did, ht⟩ := analyse_cases cfg s t ht
  · exact k.raise d s h
  · exact k.unit did _ t (k.scan _ s h) ht

theorem scan_analyse (cfg : Config) (s t : State) (hs : s.scan = none) (h : analyse cfg s = .next t) :
    t.scan = none := by
  obtain ⟨d, rfl⟩ | ⟨q, did, h⟩ := analyse_cases cfg s t h
  · rw [scan_raise, hs]
  · exact scan_unit cfg did _ t h

/-! ### Every element -/

/-- What the five writes and a look-up's answer keep, the instruction of any decoded bytes keeps. -/
theorem Kept.exec {R : State → Prop} (k : Kept Config.std R) (hanswer : ∀ r s, R s → R (s.answer r)) (l : Level)
    (bytes : List Byte) (i : Instr) (s t : State) (hd : decode (.word l bytes) = .ok i) (h : R s)
    (ht : exec i s = .next t) : R t := by
  cases standsFor_of_decode l bytes i hd with
  | unit did =>
    rw [exec_unitInstr] at ht
    exact k.unit did s t h ht
  | record ty n body hlen =>
    rw [exec_recordInstr] at ht
    cases ht
    exact k.record ty body s h
  | line lb sb mb pb body hlen =>
    rw [exec_lineInstr] at ht
    cases ht
    exact k.dataLine _ s (by simp [hlen]) h
  | packet mb pb body hlen =>
    rw [exec_packetInstr] at ht
    cases ht
    exact k.framedLine mb pb body s hlen h
  | ham84 b =>
    rw [exec_hamInstr] at ht
    cases ht
    exact hanswer _ s h
  | oddpar b =>
    rw [exec_parInstr] at ht
    cases ht
    exact hanswer _ s h

/-- An element ends the scan or leaves the scan pointer for R147's advance; a data identifier ends it. -/
theorem scan_exec (l : Level) (bytes : List Byte) (i : Instr) (s t : State) (hd : decode (.word l bytes) = .ok i)
    (ht : exec i s = .next t) : t.scan = none ∨ (t.scan = s.scan ∧ l ≠ .unit) := by
  cases standsFor_of_decode l bytes i hd with
  | unit did =>
    rw [exec_unitInstr] at ht
    exact .inl (scan_unit _ did s t ht)
  | record ty n body hlen =>
    rw [exec_recordInstr] at ht
    cases ht
    exact (record_scan _ ty body s).imp_right fun h => ⟨h, nofun⟩
  | line lb sb mb pb body hlen =>
    rw [exec_lineInstr, ← record_of_line _ _ s (by simp [hlen])] at ht
    cases ht
    exact (record_scan _ _ _ s).imp_right fun h => ⟨h, nofun⟩
  | packet mb pb body hlen =>
    rw [exec_packetInstr, ← record_of_packet _ mb pb body s hlen] at ht
    cases ht
    exact (record_scan _ _ _ s).imp_right fun h => ⟨h, nofun⟩
  | ham84 b =>
    rw [exec_hamInstr] at ht
    cases ht
    exact .inr ⟨rfl, nofun⟩
  | oddpar b =>
    rw [exec_parInstr] at ht
    cases ht
    exact .inr ⟨rfl, nofun⟩

/-! ### What the five writes keep -/

/-- The accumulator, the timestamp, the inputs and the output fields of a scan's start. -/
structure SameInputs (s u : State) : Prop where
  buf : u.buf = s.buf
  ts : u.ts = s.ts
  inputs : u.inputs = s.inputs
  lookup : u.lookup = s.lookup
  counterPort : u.counterPort = s.counterPort

/-- The scan writes neither the accumulator nor the timestamp, and takes no input (R36, R61). -/
theorem kept_sameInputs (cfg : Config) (s : State) : Kept cfg (SameInputs s) where
  raise d u h := ⟨by simp [h.buf], by simp [h.ts], by simp [h.inputs], by simp [h.lookup], by simp [h.counterPort]⟩
  scan sc u h := ⟨h.buf, h.ts, h.inputs, h.lookup, h.counterPort⟩
  close m u h := ⟨by simp [h.buf], by simp [h.ts], by simp [h.inputs], by simp [h.lookup], by simp [h.counterPort]⟩
  openPage m f d u _ _ h := ⟨h.buf, h.ts, h.inputs, h.lookup, h.counterPort⟩
  storeRow m k d u _ _ h :=
    ⟨by simp [h.buf], by simp [h.ts], by simp [h.inputs], by simp [h.lookup], by simp [h.counterPort]⟩

theorem counter_congr {s u : State} (h : u.cnt = s.cnt) (i : Fin 8) : u.counter i = s.counter i := by
  simp only [State.counter, h]

/-- No write of an analysis lowers a counter (R35 g). -/
theorem kept_counters_le (s : State) : Kept Config.std (fun u => ∀ i, s.counter i ≤ u.counter i) where
  raise d u h i := by
    rw [counter_raise, bump_std]
    split_ifs
    · exact Nat.le_succ_of_le (h i)
    · exact h i
  scan sc u h := h
  close m u h i := by rw [counter_congr (cnt_closePage m u)]; exact h i
  openPage m f d u _ _ h := h
  storeRow m k d u _ _ h i := by rw [counter_congr (cnt_storeRow m k d u)]; exact h i

/-! ### The pages of the slots, the events and the cache -/

theorem slotOk_some_iff (m : Mag) (p : Page) : slotOk m (some p) = true ↔ p.magazine = m ∧ p.wf = true := by
  simp [slotOk]

/-- A page held in a slot is of the slot's magazine and in range (R35 a to d). -/
theorem page_of_slotsWf {s : State} (h : s.SlotsWf) {m : Mag} {p : Page} (hp : s.slotAt m = some p) :
    p.magazine = m ∧ p.wf = true :=
  (slotOk_some_iff m p).mp (hp ▸ h m)

theorem slotsWf_setSlot {s : State} (h : s.SlotsWf) (m : Mag) (v : Option Page) (hv : slotOk m v = true) :
    (s.setSlot m v).SlotsWf := by
  intro n
  rw [slotAt_setSlot]
  split_ifs with hn
  · rw [hn]
    exact hv
  · exact h n

/-- A page a header opens is in the ranges of R27 (R35 b, c). -/
theorem wf_newPage (m : Mag) (f : HeaderFields) (text : List Char7) (ts : Timestamp) (hrel : f.relativePage ≤ 99)
    (htext : text.length = 32) : (newPage m f text ts).wf = true := by
  have hpage := pageNumber_eq m f.relativePage hrel
  have hsub := subPage_le f
  simp [Page.wf, identityWf, newPage, hrel, hpage, hsub, htext, linesWf, assocSorted]

/-- A row stored in a page in range leaves it in range (R29, R35 d). -/
theorem wf_storedRow (p : Page) (k : PacketNo) (d : List Char7) (h : p.wf = true) (hk : 1#5 ≤ k ∧ k ≤ 25#5)
    (hd : d.length = 40) : Page.wf { p with lines := assocInsert k.toNat d p.lines } = true := by
  obtain ⟨hlo, hhi⟩ := hk
  rw [BitVec.le_def] at hlo hhi
  simp only [Page.wf, linesWf, Bool.and_eq_true, List.all_eq_true] at h ⊢
  obtain ⟨hpage, hsorted, hrows⟩ := h
  refine ⟨hpage, assocSorted_insert _ _ _ hsorted, fun x hx => ?_⟩
  obtain rfl | hold := mem_assocInsert _ _ _ _ hx
  · simpa [rowWf, hd] using ⟨hlo, hhi⟩
  · exact hrows x hold

theorem kept_slotsWf (cfg : Config) : Kept cfg State.SlotsWf where
  raise d u h m := by rw [slotAt_raise]; exact h m
  scan sc u h := h
  close m u h := by
    obtain ⟨-, e⟩ | ⟨p, -, e⟩ := closePage_cases m u <;> rw [e]
    · exact h
    · exact slotsWf_setSlot h m none rfl
  openPage m f text u hrel htext h :=
    slotsWf_setSlot h m _ ((slotOk_some_iff m _).mpr ⟨rfl, wf_newPage m f text u.ts hrel htext⟩)
  storeRow m k d u hk hd h := by
    obtain ⟨-, e⟩ | ⟨p, hp, e⟩ := storeRow_cases m k d u <;> rw [e]
    · exact h
    · obtain ⟨hmag, hwf⟩ := page_of_slotsWf h hp
      exact slotsWf_setSlot h m _ ((slotOk_some_iff m _).mpr ⟨hmag, wf_storedRow p k d hwf hk hd⟩)

/-- The part of the invariant that the writes of an analysis touch: slots, events and cache. -/
structure PagesWf (s : State) : Prop where
  slotsWf : s.SlotsWf
  outWf : s.OutWf
  cacheWf : s.host.CacheWf

/-- An emitted page joins the events and the cache in range (R191, R198). -/
theorem pagesWf_emit {s : State} (h : PagesWf s) (p : Page) (hp : p.wf = true) : PagesWf (s.emit p) := by
  obtain ⟨hall, hlen⟩ := h.outWf
  refine ⟨h.slotsWf, ⟨?_, by simp [hlen]⟩, cacheWf_pageCompleted s.host p h.cacheWf hp⟩
  rw [out_emit, List.all_append, hall]
  simp [hp]

theorem kept_pagesWf (cfg : Config) : Kept cfg PagesWf where
  raise d u h :=
    ⟨(kept_slotsWf cfg).raise d u h.slotsWf, by simpa [State.OutWf] using h.outWf, by simpa using h.cacheWf⟩
  scan sc u h := ⟨h.slotsWf, h.outWf, h.cacheWf⟩
  close m u h := by
    have hslots := (kept_slotsWf cfg).close m u h.slotsWf
    obtain ⟨-, e⟩ | ⟨p, hp, e⟩ := closePage_cases m u
    · rw [e]
      exact h
    · obtain ⟨-, hwf⟩ := page_of_slotsWf h.slotsWf hp
      have hemit := pagesWf_emit h p hwf
      rw [e] at hslots ⊢
      exact ⟨hslots, hemit.outWf, hemit.cacheWf⟩
  openPage m f text u hrel htext h :=
    ⟨(kept_slotsWf cfg).openPage m f text u hrel htext h.slotsWf, h.outWf, h.cacheWf⟩
  storeRow m k d u hk hd h :=
    ⟨(kept_slotsWf cfg).storeRow m k d u hk hd h.slotsWf, by simpa [State.OutWf] using h.outWf,
      by simpa using h.cacheWf⟩

end Sys2Proof.Proofs.Analysis
end

section
/-!
PROOFS. Two runs side by side. A relation between states that differ only in what no rule reads, and that the writes of
an analysis keep, is kept by every element of a unit, by the scan, by the checks and by a step, and the two runs end
alike. R2, R192 and R195 (the consumer), R30 and R224 (the counters) are two such relations.
-/

namespace Sys2Proof.Proofs.TwoRuns

open Sys2Proof Sys2Proof.Machine Sys2Proof.Proofs.Words Sys2Proof.Proofs.Elements

/-- Two outcomes alike: related next states, or the same stop. -/
inductive Related (R : State → State → Prop) :
    Host.Outcome State Fault Refusal → Host.Outcome State Fault Refusal → Prop where
  | next {s s' : State} (h : R s s') : Related R (.next s) (.next s')
  | fault (r : Fault) : Related R (.fault r) (.fault r)
  | refused (r : Refusal) : Related R (.refused r) (.refused r)

theorem Related.andThen {R Q : State → State → Prop} {o o' : Host.Outcome State Fault Refusal}
    {f f' : State → Host.Outcome State Fault Refusal} (ho : Related R o o')
    (hf : ∀ s s', R s s' → Related Q (f s) (f' s')) : Related Q (andThen o f) (andThen o' f') := by
  cases ho with
  | next h => exact hf _ _ h
  | fault r => exact .fault r
  | refused r => exact .refused r

theorem Related.exists_next {R : State → State → Prop} {o o' : Host.Outcome State Fault Refusal} {t : State}
    (h : Related R o o') (ht : o = .next t) : ∃ t', o' = .next t' ∧ R t t' := by
  subst ht
  cases h with
  | next h => exact ⟨_, rfl, h⟩

theorem Related.eq {o o' : Host.Outcome State Fault Refusal} (h : Related Eq o o') : o = o' := by
  cases h with
  | next h => rw [h]
  | fault r => rfl
  | refused r => rfl

/-- States related by `R` agree in all an analysis reads, and the writes of an analysis keep `R`; the two runs may be of
different configurations. -/
structure Sim (cfg cfg' : Config) (R : State → State → Prop) : Prop where
  scan_eq : ∀ s s', R s s' → s'.scan = s.scan
  buf_eq : ∀ s s', R s s' → s'.buf = s.buf
  ts_eq : ∀ s s', R s s' → s'.ts = s.ts
  slot_eq : ∀ s s', R s s' → s'.slot = s.slot
  raise : ∀ d s s', R s s' → R (s.raise cfg d) (s'.raise cfg' d)
  scan : ∀ sc s s', R s s' → R { s with scan := sc } { s' with scan := sc }
  emit : ∀ p s s', R s s' → R (s.emit p) (s'.emit p)
  setSlot : ∀ m v s s', R s s' → R (s.setSlot m v) (s'.setSlot m v)

section
variable {cfg cfg' : Config} {R : State → State → Prop} (sim : Sim cfg cfg' R)
include sim

theorem Sim.slotAt_eq {s s' : State} (h : R s s') (m : Mag) : s'.slotAt m = s.slotAt m := by
  simp only [State.slotAt, sim.slot_eq s s' h]

theorem Sim.closePage {s s' : State} (h : R s s') (m : Mag) : R (s.closePage m) (s'.closePage m) := by
  unfold State.closePage
  rw [sim.slotAt_eq h]
  cases s.slotAt m with
  | none => exact h
  | some p => exact sim.setSlot m none _ _ (sim.emit p s s' h)

theorem Sim.storeRow {s s' : State} (h : R s s') (m : Mag) (k : PacketNo) (d : List Char7) :
    R (s.storeRow m k d) (s'.storeRow m k d) := by
  unfold State.storeRow
  rw [sim.slotAt_eq h]
  cases s.slotAt m with
  | none => exact h
  | some p => exact sim.setSlot m _ s s' h

theorem Sim.openPage {s s' : State} (h : R s s') (m : Mag) (body : List Byte) :
    R (openPage cfg m body s) (openPage cfg' m body s') := by
  unfold Machine.openPage
  cases readHeader body with
  | none => exact sim.raise _ s s' h
  | some f =>
    dsimp only
    split_ifs
    · exact h
    · cases parText (headerText body) with
      | none => exact sim.raise _ s s' h
      | some text =>
        rw [sim.ts_eq s s' h]
        exact sim.setSlot m _ s s' h

theorem Sim.row {s s' : State} (h : R s s') (k : PacketNo) (m : Mag) (body : List Byte) :
    R (row cfg k m body s) (row cfg' k m body s') := by
  unfold Machine.row
  cases parText body with
  | none => exact sim.raise _ s s' h
  | some d => exact sim.storeRow h m k d

theorem Sim.framedLine {s s' : State} (h : R s s') (mb pb : Byte) (body : List Byte) :
    R (framedLine cfg mb pb body s) (framedLine cfg' mb pb body s') := by
  unfold Machine.framedLine
  cases decodeAddress mb pb with
  | hdr m => exact sim.openPage (sim.closePage h m) m body
  | row k m => exact sim.row h k m body
  | ext k m => exact h
  | addrErr => exact sim.raise _ s s' h

theorem Sim.raiseAndEnd {s s' : State} (h : R s s') (d : Diag) : R (s.raiseAndEnd cfg d) (s'.raiseAndEnd cfg' d) :=
  sim.scan none _ _ (sim.raise d s s' h)

theorem Sim.dataLine {s s' : State} (h : R s s') (bytes : List Byte) :
    R (dataLine cfg bytes s) (dataLine cfg' bytes s') := by
  match bytes with
  | [] => exact h
  | [_] => exact h
  | [_, _] => exact h
  | [_, _, _] => exact h
  | lb :: sb :: mb :: pb :: body =>
    simp only [Machine.dataLine]
    cases decodeFraming lb sb with
    | framed low => exact sim.framedLine h mb pb body
    | bad => exact sim.raiseAndEnd h _

theorem Sim.record {s s' : State} (h : R s s') (t : Byte) (body : List Byte) :
    R (record cfg t body s) (record cfg' t body s') := by
  unfold Machine.record
  cases decodeType t with
  | line second =>
    dsimp only [lineRecord]
    split_ifs
    · exact sim.dataLine h body
    · exact sim.raiseAndEnd h _
  | fill => exact h
  | unk => exact sim.raise _ s s' h

theorem Sim.advance {s s' : State} (h : R s s') (n : Nat) : R (s.advance n) (s'.advance n) := by
  unfold State.advance
  rw [sim.scan_eq s s' h]
  cases s.scan with
  | none => exact h
  | some sc => exact sim.scan _ s s' h

theorem Sim.scanRound {s s' : State} (h : R s s') (pos stop : Nat) :
    Related R (scanRound cfg pos stop s) (scanRound cfg' pos stop s') := by
  unfold Machine.scanRound
  rw [sim.buf_eq s s' h]
  cases fetchRecord s.buf pos stop with
  | ended => exact .next (sim.scan none s s' h)
  | badLength => exact .next (sim.raiseAndEnd h _)
  | found t n body => exact .next (sim.advance (sim.record h t body) _)
  | missing a n => exact .fault _

theorem Sim.scanLoop (fuel : Nat) : ∀ {s s' : State}, R s s' →
    Related R (scanLoop cfg fuel s) (scanLoop cfg' fuel s') := by
  induction fuel with
  | zero => exact fun _ => .fault _
  | succ fuel ih =>
    intro s s' h
    unfold Machine.scanLoop
    rw [sim.scan_eq s s' h]
    cases s.scan with
    | none => exact .next h
    | some sc => exact (sim.scanRound h sc.pos sc.stop).andThen fun u u' hu => ih hu

theorem Sim.unit {s s' : State} (h : R s s') (did : Byte) : Related R (unit cfg did s) (unit cfg' did s') := by
  unfold Machine.unit
  cases decodeDid did with
  | ttx low =>
    dsimp only [knownUnit]
    rw [sim.scan_eq s s' h]
    cases s.scan with
    | none => exact .fault _
    | some sc => exact sim.scanLoop _ (sim.scan _ s s' h)
  | unknown => exact .next (sim.raiseAndEnd h _)

theorem Sim.analyse {s s' : State} (h : R s s') : Related R (analyse cfg s) (analyse cfg' s') := by
  unfold Machine.analyse Machine.analyseHeader
  rw [sim.buf_eq s s' h]
  split_ifs
  · exact .next (sim.raise _ s s' h)
  cases s.buf.read16 Config.lenOff with
  | none => exact .fault _
  | some plen =>
    dsimp only
    split_ifs
    · exact .next (sim.raise _ s s' h)
    cases s.buf.read Config.hlOff with
    | none => exact .fault _
    | some hl =>
      dsimp only
      split_ifs
      · exact .next (sim.raise _ s s' h)
      cases s.buf.read (Config.didOff + hl.toNat) with
      | none => exact .fault _
      | some did => exact sim.unit (sim.scan _ s s' h) did

end

/-! ### The capacity of the accumulator -/

/-- The analysis appends nothing, so it is the same at every capacity. -/
theorem analyse_bufCap (cap cap' : Option Nat) (w : Option Nat) (s : State) :
    analyse { bufCap := cap, cntWidth := w } s = analyse { bufCap := cap', cntWidth := w } s := by
  have sim : Sim { bufCap := cap, cntWidth := w } { bufCap := cap', cntWidth := w } Eq :=
    { scan_eq := fun s s' h => by rw [h]
      buf_eq := fun s s' h => by rw [h]
      ts_eq := fun s s' h => by rw [h]
      slot_eq := fun s s' h => by rw [h]
      raise := fun d s s' h => by subst h; rfl
      scan := fun sc s s' h => by rw [h]
      emit := fun p s s' h => by rw [h]
      setSlot := fun m v s s' h => by rw [h] }
  exact (sim.analyse rfl).eq

/-! ### Whole steps -/

/-- States related by `R` agree in all a step reads, and every write of a step keeps `R`. -/
structure SimStep (R : State → State → Prop) : Prop extends Sim Config.std Config.std R where
  mode_eq : ∀ s s', R s s' → s'.mode = s.mode
  inputs_eq : ∀ s s', R s s' → s'.inputs = s.inputs
  setInputs : ∀ l s s', R s s' → R { s with inputs := l } { s' with inputs := l }
  setMode : ∀ x s s', R s s' → R (s.setMode x) (s'.setMode x)
  setTs : ∀ ts s s', R s s' → R (s.setTs ts) (s'.setTs ts)
  setBuf : ∀ b s s', R s s' → R { s with buf := b } { s' with buf := b }
  beginTxn : ∀ s s', R s s' → R s.beginTxn s'.beginTxn
  reset : ∀ s s', R s s' → R (resetBlock s) (resetBlock s')
  answer : ∀ r s s', R s s' → R (s.answer r) (s'.answer r)
  host : ∀ (f : PageManager → PageManager) s s', R s s' → R { s with host := f s.host } { s' with host := f s'.host }
  readCounter : ∀ i s s', R s s' →
    R { s.clearCalls with counterPort := s.counter i } { s'.clearCalls with counterPort := s'.counter i }

section
variable {R : State → State → Prop} (sim : SimStep R)
include sim

theorem SimStep.betweenTransactions {s s' : State} {o o' : Host.Outcome State Fault Refusal} (h : R s s')
    (ho : Related R o o') : Related R (betweenTransactions s o) (betweenTransactions s' o') := by
  unfold Machine.betweenTransactions
  rw [sim.scan_eq s s' h]
  cases s.scan with
  | none => exact ho
  | some sc => exact .refused _

theorem SimStep.append {s s' : State} (h : R s s') (data : List Byte) :
    R (s.append Config.std data) (s'.append Config.std data) := by
  unfold State.append
  rw [sim.buf_eq s s' h]
  exact sim.setBuf _ s s' h

theorem SimStep.fragCont {s s' : State} (h : R s s') (data : List Byte) :
    R (fragCont Config.std data s) (fragCont Config.std data s') := by
  have hbegin := sim.beginTxn s s' h
  unfold Machine.fragCont
  rw [sim.mode_eq s s' h]
  cases s.mode with
  | sync => exact hbegin
  | fill => exact sim.append hbegin data

theorem SimStep.beginUnit {s s' : State} (h : R s s') (data : List Byte) (ts : Timestamp) :
    R (beginUnit Config.std data ts s) (beginUnit Config.std data ts s') :=
  sim.append (sim.setTs ts _ _ (sim.setBuf Memory.empty _ _ (sim.setMode .fill s s' h))) data

theorem SimStep.fragStart {s s' : State} (h : R s s') (data : List Byte) (ts : Timestamp) :
    Related R (fragStart Config.std data ts s) (fragStart Config.std data ts s') := by
  have hbegin := sim.beginTxn s s' h
  unfold Machine.fragStart
  rw [sim.mode_eq s s' h]
  cases s.mode with
  | sync => exact .next (sim.beginUnit hbegin data ts)
  | fill => exact (sim.toSim.analyse hbegin).andThen fun u u' hu => .next (sim.beginUnit hu data ts)

/-- An offered input leads to related states. -/
theorem SimStep.exec_input {s s' : State} (h : R s s') (x : Input) :
    Related R (exec (decodeInput x) s) (exec (decodeInput x) s') := by
  cases x with
  | reset => exact sim.betweenTransactions h (.next (sim.reset s s' h))
  | frag sop data ts =>
    cases sop with
    | false => exact sim.betweenTransactions h (.next (sim.fragCont h data))
    | true => exact sim.betweenTransactions h (sim.fragStart h data ts)
  | readCounter i => exact .next (sim.readCounter i s s' h)
  | setCurrentPage n => exact .next (sim.host (·.setCurrentPage n) s s' h)
  | deactivate r => exact .next (sim.host (·.deactivate r) s s' h)
  | pages => exact .next (sim.host (·.pages) s s' h)
  | pageCompleted p => exact .next (sim.host (fun h => { h with calls := [] }.pageCompleted p) s s' h)

/-- Decoded bytes lead to related states. -/
theorem SimStep.exec_word {s s' : State} (h : R s s') (l : Level) (bytes : List Byte) (i : Instr)
    (hd : decode (.word l bytes) = .ok i) : Related R (exec i s) (exec i s') := by
  cases standsFor_of_decode l bytes i hd with
  | unit did =>
    rw [exec_unitInstr, exec_unitInstr]
    exact sim.toSim.unit h did
  | record t n body hlen =>
    rw [exec_recordInstr, exec_recordInstr]
    exact .next (sim.toSim.record h t body)
  | line lb sb mb pb body hlen =>
    rw [exec_lineInstr, exec_lineInstr]
    exact .next (sim.toSim.dataLine h _)
  | packet mb pb body hlen =>
    rw [exec_packetInstr, exec_packetInstr]
    exact .next (sim.toSim.framedLine h mb pb body)
  | ham84 b =>
    rw [exec_hamInstr, exec_hamInstr]
    exact .next (sim.answer _ s s' h)
  | oddpar b =>
    rw [exec_parInstr, exec_parInstr]
    exact .next (sim.answer _ s s' h)

theorem SimStep.fetch_eq {s s' : State} (h : R s s') : fetch s' = fetch s := by
  simp only [fetch, sim.scan_eq s s' h, sim.buf_eq s s' h, sim.inputs_eq s s' h]

theorem SimStep.take {s s' : State} (h : R s s') : R s.take s'.take := by
  have hscan := sim.scan_eq s s' h
  cases hs : s.scan with
  | none =>
    rw [take_of_idle s hs, take_of_idle s' (hscan.trans hs), sim.inputs_eq s s' h]
    exact sim.setInputs _ s s' h
  | some sc =>
    rw [take_of_live s sc hs, take_of_live s' sc (hscan.trans hs)]
    exact h

/-- Two related states make related steps. -/
theorem SimStep.step {s s' : State} (h : R s s') : Related R (step s) (step s') := by
  have htake := sim.take h
  unfold Machine.step
  rw [sim.fetch_eq h]
  cases fetch s with
  | idle => exact .next h
  | ended => exact .next (sim.scan none s s' h)
  | badLength => exact .next (sim.toSim.raiseAndEnd h _)
  | missing a n => exact .fault _
  | word e n =>
    have hadvance : ∀ u u', R u u' → Related R (.next (u.advance n)) (.next (u'.advance n)) :=
      fun u u' hu => .next (sim.toSim.advance hu n)
    cases hd : decode e with
    | error r => simp only [hd]; exact .refused _
    | ok i =>
      simp only [hd]
      cases e with
      | port x =>
        cases hd
        exact (sim.exec_input htake x).andThen hadvance
      | word l bytes => exact (sim.exec_word htake l bytes i hd).andThen hadvance

end

/-! ### The consumer -/

/-- The same state but for the Page Manager. -/
def OtherHost (s s' : State) : Prop := ∃ h, s' = s.withHost h

theorem simStep_otherHost : SimStep OtherHost where
  scan_eq := by rintro s _ ⟨h, rfl⟩; rfl
  buf_eq := by rintro s _ ⟨h, rfl⟩; rfl
  ts_eq := by rintro s _ ⟨h, rfl⟩; rfl
  slot_eq := by rintro s _ ⟨h, rfl⟩; rfl
  raise := by
    rintro d s _ ⟨h, rfl⟩
    exact ⟨h, by rw [raise_eq, raise_eq]; rfl⟩
  scan := by rintro sc s _ ⟨h, rfl⟩; exact ⟨h, rfl⟩
  emit := by rintro p s _ ⟨h, rfl⟩; exact ⟨h.pageCompleted p, rfl⟩
  setSlot := by rintro m v s _ ⟨h, rfl⟩; exact ⟨h, rfl⟩
  mode_eq := by rintro s _ ⟨h, rfl⟩; rfl
  inputs_eq := by rintro s _ ⟨h, rfl⟩; rfl
  setInputs := by rintro l s _ ⟨h, rfl⟩; exact ⟨h, rfl⟩
  setMode := by rintro x s _ ⟨h, rfl⟩; exact ⟨h, rfl⟩
  setTs := by rintro ts s _ ⟨h, rfl⟩; exact ⟨h, rfl⟩
  setBuf := by rintro b s _ ⟨h, rfl⟩; exact ⟨h, rfl⟩
  beginTxn := by rintro s _ ⟨h, rfl⟩; exact ⟨{ h with calls := [] }, rfl⟩
  reset := by rintro s _ ⟨h, rfl⟩; exact ⟨{ h with calls := [] }, rfl⟩
  answer := by rintro r s _ ⟨h, rfl⟩; exact ⟨h, rfl⟩
  host := by rintro f s _ ⟨h, rfl⟩; exact ⟨f h, rfl⟩
  readCounter := by rintro i s _ ⟨h, rfl⟩; exact ⟨{ h with calls := [] }, rfl⟩

/-- Settles O59: no write of a step reads the Page Manager but to write it. -/
theorem consumerNeverFeedsBack : Obligations.ConsumerNeverFeedsBack := by
  intro s t h ht
  obtain ⟨_, hstep, h', rfl⟩ := (simStep_otherHost.step ⟨h, rfl⟩).exists_next ht
  exact ⟨h', hstep⟩

/-! ### The counters -/

/-- The same state but for the counters and what a read of them shows (R194, R250). -/
def OtherCounters (s s' : State) : Prop :=
  ∃ c v w, s' = { s.withCounters c with counterPort := v, eventCounters := w }

theorem simStep_otherCounters : SimStep OtherCounters where
  scan_eq := by rintro s _ ⟨c, v, w, rfl⟩; rfl
  buf_eq := by rintro s _ ⟨c, v, w, rfl⟩; rfl
  ts_eq := by rintro s _ ⟨c, v, w, rfl⟩; rfl
  slot_eq := by rintro s _ ⟨c, v, w, rfl⟩; rfl
  raise := by
    rintro d s _ ⟨c, v, w, rfl⟩
    exact ⟨_, v, w, by rw [raise_eq, raise_eq]; rfl⟩
  scan := by rintro sc s _ ⟨c, v, w, rfl⟩; exact ⟨c, v, w, rfl⟩
  emit := by rintro p s _ ⟨c, v, w, rfl⟩; exact ⟨c, v, w ++ [c], rfl⟩
  setSlot := by rintro m x s _ ⟨c, v, w, rfl⟩; exact ⟨c, v, w, rfl⟩
  mode_eq := by rintro s _ ⟨c, v, w, rfl⟩; rfl
  inputs_eq := by rintro s _ ⟨c, v, w, rfl⟩; rfl
  setInputs := by rintro l s _ ⟨c, v, w, rfl⟩; exact ⟨c, v, w, rfl⟩
  setMode := by rintro x s _ ⟨c, v, w, rfl⟩; exact ⟨c, v, w, rfl⟩
  setTs := by rintro ts s _ ⟨c, v, w, rfl⟩; exact ⟨c, v, w, rfl⟩
  setBuf := by rintro b s _ ⟨c, v, w, rfl⟩; exact ⟨c, v, w, rfl⟩
  beginTxn := by rintro s _ ⟨c, v, w, rfl⟩; exact ⟨c, v, [], rfl⟩
  reset := by rintro s _ ⟨c, v, w, rfl⟩; exact ⟨_, v, [], rfl⟩
  answer := by rintro r s _ ⟨c, v, w, rfl⟩; exact ⟨c, v, w, rfl⟩
  host := by rintro f s _ ⟨c, v, w, rfl⟩; exact ⟨c, v, w, rfl⟩
  readCounter := by rintro i s _ ⟨c, v, w, rfl⟩; exact ⟨c, c.get i, w, rfl⟩

/-- Settles O60: no write of a step reads a counter but to count, or to show it at the port and at events. -/
theorem countersNeverDecide : Obligations.CountersNeverDecide := by
  intro s t c ht
  obtain ⟨_, hstep, c', v, w, rfl⟩ :=
    (simStep_otherCounters.step ⟨c, s.counterPort, s.eventCounters, rfl⟩).exists_next ht
  exact ⟨c', v, w, hstep⟩

end Sys2Proof.Proofs.TwoRuns
end

section
/-!
PROOFS. The accumulator (R50 to R52): appending in one piece or in several, and what an accumulator of finite capacity
keeps of an unbounded one.
-/

namespace Sys2Proof.Proofs.Accumulator

open Sys2Proof Sys2Proof.Machine Sys2Proof.Claims

/-- Settles O14: what a read of the appended memory gives, below, inside and beyond the new bytes. -/
theorem appendThenRead : Obligations.AppendThenRead := by
  intro m data hwf hcomplete
  refine ⟨rfl, fun a ha => ?_, fun i hi => ?_, fun a ha => ?_⟩
  · rw [m.read_append hwf hcomplete, if_pos ha]
  · rw [m.read_append hwf hcomplete, if_neg (by omega), Nat.add_sub_cancel_left, List.getElem?_eq_getElem hi]
  · rw [m.read_append hwf hcomplete, if_neg (by omega), List.getElem?_eq_none (by omega)]

theorem cellsFrom_append (as bs : List Byte) : ∀ a, cellsFrom a (as ++ bs) =
    cellsFrom a as ++ cellsFrom (a + as.length) bs := by
  induction as with
  | nil => intro a; rfl
  | cons b as ih =>
    intro a
    rw [List.cons_append, cellsFrom_cons, cellsFrom_cons, List.cons_append, ih, List.length_cons, Nat.add_right_comm,
      Nat.add_assoc]

/-- Two fragments are stored as one (R51). -/
theorem append_append (m : Memory) (as bs : List Byte) :
    (m.append none as).append none bs = m.append none (as ++ bs) := by
  simp only [Memory.append, storedPart, cellsFrom_append, List.length_append, List.append_assoc, Nat.add_assoc]

theorem append_nil (m : Memory) : m.append none [] = m := by
  simp only [Memory.append, storedPart, cellsFrom_nil, List.append_nil, List.length_nil, Nat.add_zero]

theorem cellsFrom_eq_zip (data : List Byte) : ∀ a, cellsFrom a data = (List.range' a data.length).zip data := by
  induction data with
  | nil => intro a; rfl
  | cons b bs ih => intro a; rw [cellsFrom_cons, ih, List.length_cons, List.range'_succ, List.zip_cons_cons]

/-- An empty accumulator after an append holds exactly the data (R50). -/
theorem empty_append (data : List Byte) : Memory.empty.append none data = holding data := by
  simp [Memory.append, Memory.empty, holding, storedPart, cellsFrom_eq_zip, List.range_eq_range']

/-! ### A finite capacity -/

/-- Below the capacity the same bytes are read. -/
theorem read_capped (m : Memory) (c a : Nat) (hwf : m.wf = true) (ha : a < c) : (m.capped c).read a = m.read a := by
  have hdropped : assocFind a (m.cells.drop c) = none := by
    refine assocFind_eq_none a _ fun hmem => ?_
    rw [List.map_drop, (m.wf_iff.mp hwf).1, List.range_eq_range', List.drop_range', List.mem_range'_1] at hmem
    omega
  calc (m.capped c).read a = (assocFind a (m.cells.take c)).or (assocFind a (m.cells.drop c)) := by
        rw [hdropped, Option.or_none]; rfl
    _ = m.read a := by rw [← assocFind_append, List.take_append_drop]; rfl

/-- An accumulator whose length is within the capacity is the unbounded one. -/
theorem capped_eq_self (m : Memory) (c : Nat) (hwf : m.wf = true) (hlen : m.len ≤ c) : m.capped c = m := by
  obtain ⟨-, hcells⟩ := m.wf_iff.mp hwf
  rw [Memory.capped, List.take_of_length_le (hcells.trans hlen)]

/-- A finite accumulator after an append stores what the capacity keeps of the unbounded one (R52). -/
theorem append_capped (m : Memory) (c : Nat) (data : List Byte) (hcomplete : m.complete = true) :
    (m.capped c).append (some c) data = (m.append none data).capped c := by
  have hcells := m.complete_iff.mp hcomplete
  simp only [Memory.append, Memory.capped, storedPart, cellsFrom_take, List.take_append, hcells]

end Sys2Proof.Proofs.Accumulator
end

section
/-!
PROOFS. The three transactions and the analysis of a unit (R121 to R136, R217, R240).
-/

namespace Sys2Proof.Proofs.Transactions

open Sys2Proof Sys2Proof.Machine Sys2Proof.Claims
open Sys2Proof.Proofs.Accumulator Sys2Proof.Proofs.Analysis
open Sys2Proof.Proofs.TwoRuns (analyse_bufCap)

/-! ### The transactions between transactions -/

theorem betweenTransactions_of_idle (s : State) (o : Host.Outcome State Fault Refusal) (hs : s.scan = none) :
    betweenTransactions s o = o := by
  simp only [betweenTransactions, hs]

theorem exec_reset (s : State) (hs : s.scan = none) : exec .reset s = .next (resetBlock s) :=
  betweenTransactions_of_idle s _ hs

theorem exec_fragCont (data : List Byte) (ts : Timestamp) (s : State) (hs : s.scan = none) :
    exec (.fragCont data ts) s = .next (fragCont Config.std data s) :=
  betweenTransactions_of_idle s _ hs

theorem exec_fragStart (data : List Byte) (ts : Timestamp) (s : State) (hs : s.scan = none) :
    exec (.fragStart data ts) s = fragStart Config.std data ts s :=
  betweenTransactions_of_idle s _ hs

theorem exec_fragStart_eq_next (data : List Byte) (ts : Timestamp) (s t : State) :
    exec (.fragStart data ts) s = .next t ↔ s.scan = none ∧ fragStart Config.std data ts s = .next t :=
  betweenTransactions_eq_next s t _

/-- Settles O26: a live scan pointer refuses each of the three. -/
theorem reentryRefused : Obligations.ReentryRefused := by
  intro data ts s sc hs
  have hrefused (o) : betweenTransactions s o = .refused .reentrant := by simp only [betweenTransactions, hs]
  exact ⟨hrefused _, hrefused _, hrefused _⟩

/-- Settles O17: the fields of `resetBlock`, and its idempotence. -/
theorem resetLeaves : Obligations.ResetLeaves := by
  intro s hs
  have hts : (-1#64).toInt = -1 := by decide
  refine ⟨resetBlock s, exec_reset s hs, rfl, hts, rfl, fun a => rfl, fun m => ?_, fun i => ?_, rfl, rfl, rfl, rfl, rfl,
    rfl, rfl, exec_reset _ rfl⟩
  · simp [State.slotAt, resetBlock, State.reset]
  · simp [State.counter, resetBlock, State.reset]

theorem fragCont_of_sync (cfg : Config) (data : List Byte) (s : State) (hm : s.mode = .sync) :
    fragCont cfg data s = s.beginTxn := by
  simp only [fragCont, hm]

theorem fragCont_of_fill (cfg : Config) (data : List Byte) (s : State) (hm : s.mode = .fill) :
    fragCont cfg data s = s.beginTxn.append cfg data := by
  simp only [fragCont, hm]

theorem mode_eq_sync_of_ne {x : RsMode} (h : x ≠ .fill) : x = .sync := by
  cases x with
  | sync => rfl
  | fill => exact absurd rfl h

/-- Settles O18: the mode decides, and nothing but the accumulator and the outputs of the last transaction changes. -/
theorem fragContResult : Obligations.FragContResult := by
  intro data ts s hs
  rw [exec_fragCont data ts s hs]
  by_cases hm : s.mode = .fill
  · rw [fragCont_of_fill _ data s hm, if_pos hm]
    rfl
  · rw [fragCont_of_sync _ data s (mode_eq_sync_of_ne hm), if_neg hm]
    rfl

/-- The end of `FRAG.START` writes the mode, the timestamp and the accumulator (R123). -/
theorem beginUnit_eq (data : List Byte) (ts : Timestamp) (s : State) :
    beginUnit Config.std data ts s = { s with mode := .fill, ts := ts, buf := holding data } := by
  rw [← empty_append]
  rfl

theorem fragStart_of_sync (cfg : Config) (data : List Byte) (ts : Timestamp) (s : State) (hm : s.mode = .sync) :
    fragStart cfg data ts s = .next (beginUnit cfg data ts s.beginTxn) := by
  simp only [fragStart, hm]

theorem fragStart_of_fill (cfg : Config) (data : List Byte) (ts : Timestamp) (s : State) (hm : s.mode = .fill) :
    fragStart cfg data ts s = andThen (analyse cfg s.beginTxn) fun a => .next (beginUnit cfg data ts a) := by
  simp only [fragStart, hm]

/-- Settles O19: no analysis while synchronizing. -/
theorem fragStartWhileSync : Obligations.FragStartWhileSync := by
  intro data ts s hs hm
  rw [exec_fragStart data ts s hs, fragStart_of_sync _ data ts s hm, beginUnit_eq]
  rfl

/-! ### The four checks -/

theorem analyse_of_short (cfg : Config) (s : State) (h : s.buf.len < 9) :
    analyse cfg s = .next (s.raise cfg .bufferTooSmall) := if_pos h

/-- The length field decides check 2 (R128). -/
theorem analyse_of_reads (cfg : Config) (s : State) (hi lo : Byte) (hlen : 9 ≤ s.buf.len)
    (hhi : s.buf.read 4 = some hi) (hlo : s.buf.read 5 = some lo) :
    analyse cfg s = if hi.toNat * 256 + lo.toNat ≠ s.buf.len - 6 then .next (s.raise cfg .pesLengthMismatch)
      else analyseHeader cfg s := by
  have hread : s.buf.read16 4 = some (hi.toNat * 256 + lo.toNat) := by simp only [Memory.read16, hhi, hlo]
  rw [analyse, if_neg (Nat.not_lt.mpr hlen), hread]

theorem analyse_of_length_mismatch (cfg : Config) (s : State) (h : UnitFails s.buf .pesLengthMismatch) :
    analyse cfg s = .next (s.raise cfg .pesLengthMismatch) := by
  obtain ⟨hlen, hi, lo, hhi, hlo, hne⟩ := h
  rw [analyse_of_reads cfg s hi lo hlen hhi hlo, if_pos hne]

/-- The header extension length decides check 3 (R129). -/
theorem analyseHeader_of_overrun (cfg : Config) (s : State) (hl : Byte) (hread : s.buf.read 8 = some hl)
    (h : s.buf.len ≤ 9 + hl.toNat) : analyseHeader cfg s = .next (s.raise cfg .headerOverrun) := by
  simp only [analyseHeader, hread]
  exact if_pos h

/-- The data identifier decides check 4 (R130). -/
theorem analyseHeader_of_reads (cfg : Config) (s : State) (hl did : Byte) (hread : s.buf.read 8 = some hl)
    (h : 9 + hl.toNat < s.buf.len) (hdid : s.buf.read (9 + hl.toNat) = some did) :
    analyseHeader cfg s = unit cfg did (s.setScan .unit (9 + hl.toNat) s.buf.len) := by
  simp only [analyseHeader, hread, if_neg (Nat.not_le.mpr h), hdid]

theorem decodeDid_of_outside (did : Byte) (h : did.toNat < 0x10 ∨ 0x1F < did.toNat) : decodeDid did = .unknown := by
  refine if_neg fun ⟨hlo, hhi⟩ => ?_
  simp only [BitVec.le_def, BitVec.toNat_ofNat] at hlo hhi
  omega

theorem decodeDid_of_inside (did : Byte) (hlo : 0x10 ≤ did.toNat) (hhi : did.toNat ≤ 0x1F) :
    decodeDid did = .ttx (did.setWidth 4) :=
  if_pos ⟨hlo, hhi⟩

/-- Between transactions a unit that fails a check is counted, and the analysis does nothing else (R217). -/
theorem analyse_of_fails (cfg : Config) (s : State) (d : Diag) (hs : s.scan = none) (h : UnitFails s.buf d) :
    analyse cfg s = .next (s.raise cfg d) := by
  cases d with
  | bufferTooSmall => exact analyse_of_short cfg s h
  | pesLengthMismatch => exact analyse_of_length_mismatch cfg s h
  | headerOverrun =>
    obtain ⟨hlen, hi, lo, hl, hhi, hlo, heq, hread, hover⟩ := h
    rw [analyse_of_reads cfg s hi lo hlen hhi hlo, if_neg (not_not_intro heq),
      analyseHeader_of_overrun cfg s hl hread hover]
  | unknownDataId =>
    obtain ⟨hlen, hi, lo, hl, did, hhi, hlo, heq, hread, hin, hdid, hout⟩ := h
    rw [analyse_of_reads cfg s hi lo hlen hhi hlo, if_neg (not_not_intro heq),
      analyseHeader_of_reads cfg s hl did hread hin hdid]
    simp only [unit, decodeDid_of_outside did hout, unknownUnit, raiseAndEnd_eq, raise_eq]
    rw [hs]
    rfl
  | badLineLength | badFraming | unknownLineType | codeError => exact h.elim

/-- A unit that passes the checks is scanned from one past its data identifier (R131). -/
theorem analyse_of_passes (cfg : Config) (s : State) (q : Nat) (h : UnitPasses s.buf q) :
    analyse cfg s = knownUnit cfg (s.setScan .unit q s.buf.len) := by
  obtain ⟨hlen, hi, lo, hl, did, hhi, hlo, heq, hread, rfl, hin, hdid, hdlo, hdhi⟩ := h
  rw [analyse_of_reads cfg s hi lo hlen hhi hlo, if_neg (not_not_intro heq),
    analyseHeader_of_reads cfg s hl did hread hin hdid]
  simp only [unit, decodeDid_of_inside did hdlo hdhi]

/-- A unit of a complete accumulator passes the checks or fails one (R126). -/
theorem fails_or_passes (m : Memory) (hwf : m.wf = true) (hcomplete : m.complete = true) :
    (∃ d, UnitFails m d) ∨ ∃ q, UnitPasses m q := by
  by_cases hlen : m.len < 9
  · exact .inl ⟨.bufferTooSmall, hlen⟩
  rw [Nat.not_lt] at hlen
  obtain ⟨hi, hhi⟩ := m.read_isSome hwf hcomplete 4 (by omega)
  obtain ⟨lo, hlo⟩ := m.read_isSome hwf hcomplete 5 (by omega)
  obtain ⟨hl, hread⟩ := m.read_isSome hwf hcomplete 8 (by omega)
  by_cases heq : hi.toNat * 256 + lo.toNat = m.len - 6
  swap
  · exact .inl ⟨.pesLengthMismatch, hlen, hi, lo, hhi, hlo, heq⟩
  by_cases hin : 9 + hl.toNat < m.len
  swap
  · exact .inl ⟨.headerOverrun, hlen, hi, lo, hl, hhi, hlo, heq, hread, Nat.not_lt.mp hin⟩
  obtain ⟨did, hdid⟩ := m.read_isSome hwf hcomplete _ hin
  by_cases hout : did.toNat < 0x10 ∨ 0x1F < did.toNat
  · exact .inl ⟨.unknownDataId, hlen, hi, lo, hl, did, hhi, hlo, heq, hread, hin, hdid, hout⟩
  · exact .inr ⟨_, hlen, hi, lo, hl, did, hhi, hlo, heq, hread, rfl, hin, hdid, by omega, by omega⟩

/-! ### Exactly one check fails, or none -/

/-- The check that counts `d` holds of `BUF` (R127 to R130). -/
def CheckHolds (m : Memory) : Diag → Prop
  | .bufferTooSmall => 9 ≤ m.len
  | .pesLengthMismatch => ∃ hi lo, m.read 4 = some hi ∧ m.read 5 = some lo ∧ hi.toNat * 256 + lo.toNat = m.len - 6
  | .headerOverrun => ∃ hl, m.read 8 = some hl ∧ 9 + hl.toNat < m.len
  | .unknownDataId => ∃ hl did, m.read 8 = some hl ∧ m.read (9 + hl.toNat) = some did ∧
      0x10 ≤ did.toNat ∧ did.toNat ≤ 0x1F
  | .badLineLength => True
  | .badFraming => True
  | .unknownLineType => True
  | .codeError => True

/-- A unit that fails a check meets the checks before it (R126: the order is fixed). -/
theorem checks_of_fails (m : Memory) (d : Diag) (h : UnitFails m d) :
    ¬ CheckHolds m d ∧ ∀ d' : Diag, d'.code < d.code → CheckHolds m d' := by
  cases d with
  | bufferTooSmall => exact ⟨Nat.not_le.mpr h, fun d' hlt => absurd hlt (Fin.not_lt_zero _)⟩
  | pesLengthMismatch =>
    obtain ⟨hlen, hi, lo, hhi, hlo, hne⟩ := h
    refine ⟨by simpa [CheckHolds, hhi, hlo] using hne, fun d' hlt => ?_⟩
    cases d' with
    | bufferTooSmall => exact hlen
    | _ => exact absurd hlt (by decide)
  | headerOverrun =>
    obtain ⟨hlen, hi, lo, hl, hhi, hlo, heq, hread, hover⟩ := h
    refine ⟨by simpa [CheckHolds, hread] using hover, fun d' hlt => ?_⟩
    cases d' with
    | bufferTooSmall => exact hlen
    | pesLengthMismatch => exact ⟨hi, lo, hhi, hlo, heq⟩
    | _ => exact absurd hlt (by decide)
  | unknownDataId =>
    obtain ⟨hlen, hi, lo, hl, did, hhi, hlo, heq, hread, hin, hdid, hout⟩ := h
    refine ⟨?_, fun d' hlt => ?_⟩
    · rintro ⟨hl', did', hread', hdid', hdlo, hdhi⟩
      obtain rfl : hl = hl' := Option.some.inj (hread.symm.trans hread')
      obtain rfl : did = did' := Option.some.inj (hdid.symm.trans hdid')
      omega
    cases d' with
    | bufferTooSmall => exact hlen
    | pesLengthMismatch => exact ⟨hi, lo, hhi, hlo, heq⟩
    | headerOverrun => exact ⟨hl, hread, hin⟩
    | _ => exact absurd hlt (by decide)
  | badLineLength | badFraming | unknownLineType | codeError => exact h.elim

theorem checks_of_passes (m : Memory) (q : Nat) (h : UnitPasses m q) (d : Diag) : CheckHolds m d := by
  obtain ⟨hlen, hi, lo, hl, did, hhi, hlo, heq, hread, rfl, hin, hdid, hdlo, hdhi⟩ := h
  cases d with
  | bufferTooSmall => exact hlen
  | pesLengthMismatch => exact ⟨hi, lo, hhi, hlo, heq⟩
  | headerOverrun => exact ⟨hl, hread, hin⟩
  | unknownDataId => exact ⟨hl, did, hread, hdid, hdlo, hdhi⟩
  | badLineLength | badFraming | unknownLineType | codeError => trivial

/-- The diagnostic of a counter number (R211). -/
def diagOf : Fin 8 → Diag :=
  ![.bufferTooSmall, .pesLengthMismatch, .headerOverrun, .unknownDataId, .badLineLength, .badFraming, .unknownLineType,
    .codeError]

theorem diagOf_code (d : Diag) : diagOf d.code = d := by
  cases d <;> rfl

theorem code_injective : Function.Injective Diag.code := Function.LeftInverse.injective diagOf_code

/-- Settles O21: the check that fails is the first that does, and a unit that passes meets every check. -/
theorem unitChecksDecide : Obligations.UnitChecksDecide := by
  intro m hwf hcomplete
  refine ⟨fails_or_passes m hwf hcomplete, fun d d' h h' => ?_, fun d q h hpass => ?_⟩
  · obtain ⟨hfail, hbefore⟩ := checks_of_fails m d h
    obtain ⟨hfail', hbefore'⟩ := checks_of_fails m d' h'
    obtain hlt | heq | hlt := lt_trichotomy d.code d'.code
    · exact absurd (hbefore' d hlt) hfail
    · exact code_injective heq
    · exact absurd (hbefore d' hlt) hfail'
  · exact (checks_of_fails m d h).1 (checks_of_passes m q hpass d)

/-! ### The analysis in a transaction -/

theorem knownUnit_of_live (cfg : Config) (s : State) (sc : Scan) (hs : s.scan = some sc) :
    knownUnit cfg s = dispatch cfg (sc.pos + 1) sc.stop s := by
  simp only [knownUnit, hs]

/-- `UNIT.TTX` on a unit inside a complete accumulator completes, and the scan has ended (R131, R150). -/
theorem knownUnit_completes (cfg : Config) (s : State) (sc : Scan) (hs : s.scan = some sc) (hbuf : s.BufWf)
    (hstop : sc.stop ≤ s.buf.len) : ∃ t, knownUnit cfg s = .next t ∧ t.scan = none ∧ SameInputs s t := by
  obtain ⟨hwf, hcomplete⟩ := hbuf
  rw [knownUnit_of_live cfg s sc hs]
  obtain ⟨t, ht⟩ := dispatch_completes cfg (sc.pos + 1) sc.stop s hwf hcomplete hstop
  exact ⟨t, ht, scanLoop_scan cfg _ _ t ht,
    (kept_sameInputs cfg s).dispatch _ _ s t ⟨rfl, rfl, rfl, rfl, rfl⟩ ht⟩

/-- The analysis of a complete accumulator between transactions completes (R210). -/
theorem analyse_completes (cfg : Config) (s : State) (hs : s.scan = none) (hbuf : s.BufWf) :
    ∃ t, analyse cfg s = .next t := by
  obtain ⟨d, h⟩ | ⟨q, h⟩ := fails_or_passes s.buf hbuf.1 hbuf.2
  · exact ⟨_, analyse_of_fails cfg s d hs h⟩
  · obtain ⟨t, ht, -, -⟩ := knownUnit_completes cfg (s.setScan .unit q s.buf.len) _ rfl hbuf le_rfl
    exact ⟨t, (analyse_of_passes cfg s q h).trans ht⟩

/-- Settles O20: the analysis counts the failed check, and the new unit begins after it. -/
theorem failedUnitOnlyCounts : Obligations.FailedUnitOnlyCounts := by
  intro data ts s d hs hm h
  rw [exec_fragStart data ts s hs, fragStart_of_fill _ data ts s hm, analyse_of_fails _ s.beginTxn d hs h,
    andThen_next, beginUnit_eq, raise_eq]
  rfl

/-- Settles O22: `onDataId q s` is the state in which the checks leave the block on the data identifier. -/
theorem passingUnitIsScanned : Obligations.PassingUnitIsScanned := by
  intro data ts s q low hs hm hbuf h
  obtain ⟨t, ht, hend, hsame⟩ := knownUnit_completes Config.std (onDataId q s) _ rfl hbuf le_rfl
  refine ⟨t, ht, hend, hsame.ts, hsame.buf, ?_⟩
  have hanalyse : analyse Config.std s.beginTxn = knownUnit Config.std (onDataId q s) :=
    analyse_of_passes _ s.beginTxn q h
  rw [exec_fragStart data ts s hs, fragStart_of_fill _ data ts s hm, hanalyse, ht, andThen_next, beginUnit_eq]

/-- What `FRAG.START` begins the new unit on: the start of the transaction, or what the analysis of the old unit left;
no scan is live there and the queue is as before. -/
theorem fragStart_eq_next (data : List Byte) (ts : Timestamp) (s t : State)
    (h : exec (.fragStart data ts) s = .next t) :
    s.scan = none ∧ ∃ a, t = beginUnit Config.std data ts a ∧ a.scan = none ∧ a.inputs = s.inputs ∧
      ((s.mode = .sync ∧ a = s.beginTxn) ∨ (s.mode = .fill ∧ analyse Config.std s.beginTxn = .next a)) := by
  obtain ⟨hs, h⟩ := (exec_fragStart_eq_next data ts s t).mp h
  refine ⟨hs, ?_⟩
  by_cases hm : s.mode = .fill
  · rw [fragStart_of_fill _ data ts s hm] at h
    obtain ⟨a, ha, ht⟩ := (andThen_eq_next _ _ _).mp h
    have hsame := (kept_sameInputs Config.std s.beginTxn).analyse _ a ⟨rfl, rfl, rfl, rfl, rfl⟩ ha
    cases ht
    exact ⟨a, rfl, scan_analyse _ s.beginTxn a hs ha, hsame.inputs, .inr ⟨hm, ha⟩⟩
  · have hm := mode_eq_sync_of_ne hm
    rw [fragStart_of_sync _ data ts s hm] at h
    cases h
    exact ⟨_, rfl, hs, rfl, .inl ⟨hm, rfl⟩⟩

/-- Settles O23: the new unit overwrites mode, timestamp and accumulator whatever the analysis left. -/
theorem fragStartEndsFilling : Obligations.FragStartEndsFilling := by
  intro data ts s t h
  obtain ⟨-, a, rfl, hscan, hinputs, -⟩ := fragStart_eq_next data ts s t h
  rw [beginUnit_eq]
  exact ⟨rfl, rfl, rfl, hscan, hinputs⟩

/-- Settles O24: both transactions are known, one from the failed check and one from `SYNC`. -/
theorem resynchronizationIdempotent : Obligations.ResynchronizationIdempotent := by
  intro data ts s t u d hs hm hfails ht hu
  rw [failedUnitOnlyCounts data ts s d hs hm hfails] at ht
  rw [fragStartWhileSync data ts { s with mode := .sync, buf := Memory.empty } hs rfl] at hu
  cases ht
  cases hu
  refine ⟨rfl, fun i => ?_⟩
  have hcount := counter_count Config.std d i s
  rw [bump_std] at hcount
  exact hcount

/-! ### Fragments -/

/-- Continuation fragments append their bytes one after another to a block that is filling (R121, R136). -/
theorem continueWith_of_fill (rest : List (List Byte × Timestamp)) : ∀ s u : State, s.mode = .fill →
    continueWith rest s = .next u →
    u.block = { s.block with buf := s.buf.append none (rest.map (fun x => x.1)).flatten } ∧
      u.scan = s.scan ∧ u.inputs = s.inputs ∧ quiet u.host = quiet s.host := by
  induction rest with
  | nil =>
    intro s u _ h
    cases h
    exact ⟨by rw [List.map_nil, List.flatten_nil, append_nil]; rfl, rfl, rfl, rfl⟩
  | cons x rest ih =>
    obtain ⟨data, ts⟩ := x
    intro s u hm h
    obtain ⟨v, hv, hu⟩ := (andThen_eq_next _ _ _).mp h
    obtain ⟨-, hv⟩ := (betweenTransactions_eq_next _ _ _).mp hv
    rw [fragCont_of_fill _ data s hm] at hv
    cases hv
    obtain ⟨hblock, hscan, hinputs, hhost⟩ := ih (s.beginTxn.append Config.std data) u hm hu
    refine ⟨hblock.trans ?_, hscan, hinputs, hhost⟩
    rw [List.map_cons, List.flatten_cons, ← append_append]
    rfl

/-- Settles O25: the analysis of the old unit is the same whatever the new one holds, and the pieces join in `BUF`. -/
theorem fragmentationInvariance : Obligations.FragmentationInvariance := by
  intro data rest ts s t u v ht hu hv
  obtain ⟨-, a, rfl, hscan, -, ha⟩ := fragStart_eq_next _ _ _ _ ht
  obtain ⟨-, b, rfl, -, -, hb⟩ := fragStart_eq_next _ _ _ _ hv
  have hab : a = b := by
    obtain ⟨hm, rfl⟩ | ⟨hm, ha⟩ := ha <;> obtain ⟨hm', rfl⟩ | ⟨hm', hb⟩ := hb
    · rfl
    · cases hm.symm.trans hm'
    · cases hm.symm.trans hm'
    · exact Host.Outcome.next.inj (ha.symm.trans hb)
  subst hab
  obtain ⟨hblock, hscan', hinputs, hhost⟩ := continueWith_of_fill rest _ u rfl hu
  refine ⟨hblock.trans ?_, rfl, rfl, hscan', hinputs, hhost⟩
  have hbuf (d : List Byte) : (beginUnit Config.std d ts a).buf = Memory.empty.append none d := rfl
  rw [hbuf, append_append]
  rfl

/-! ### A finite accumulator -/

/-- A unit longer than 65541 bytes fails the length check at any capacity from there on, because the length field holds
16 bits (R52, R128). -/
theorem fails_of_long (m : Memory) (c : Nat) (hc : 65541 ≤ c) (hwf : m.wf = true) (hcomplete : m.complete = true)
    (hlong : c < m.len) : UnitFails m .pesLengthMismatch ∧ UnitFails (m.capped c) .pesLengthMismatch := by
  obtain ⟨hi, hhi⟩ := m.read_isSome hwf hcomplete 4 (by omega)
  obtain ⟨lo, hlo⟩ := m.read_isSome hwf hcomplete 5 (by omega)
  have hlen : 9 ≤ m.len := by omega
  have hne : hi.toNat * 256 + lo.toNat ≠ m.len - 6 := by
    have hbyte := hi.isLt
    have hbyte' := lo.isLt
    omega
  refine ⟨⟨hlen, hi, lo, hhi, hlo, hne⟩, hlen, hi, lo, ?_, ?_, hne⟩
  · rw [read_capped m c 4 hwf (by omega), hhi]
  · rw [read_capped m c 5 hwf (by omega), hlo]

/-- The new unit in a finite accumulator is what the capacity keeps of the new unit in an unbounded one (R52). -/
theorem beginUnit_capped (c : Nat) (data : List Byte) (ts : Timestamp) (s : State) (b : Memory) :
    beginUnit { bufCap := some c, cntWidth := none } data ts { s with buf := b } =
      { beginUnit Config.std data ts s with buf := (beginUnit Config.std data ts s).buf.capped c } := by
  have hbuf := append_capped Memory.empty c data Memory.empty_complete
  have hempty : Memory.empty.capped c = Memory.empty := by simp [Memory.capped, Memory.empty]
  rw [hempty] at hbuf
  simp only [beginUnit, State.append, State.setTs, State.clearBuf, State.setMode, hbuf]
  rfl

/-- The analysis of a finite accumulator ends as that of an unbounded one but for the bytes (R52, R132): a unit the
capacity does not hold fails the length check in both, and any other is the same in both. -/
theorem analyse_capped (c : Nat) (s a : State) (hc : 65541 ≤ c) (hbuf : s.BufWf)
    (ha : analyse Config.std s = .next a) :
    ∃ b, analyse { bufCap := some c, cntWidth := none } { s with buf := s.buf.capped c } =
      .next { a with buf := b } := by
  obtain ⟨hwf, hcomplete⟩ := hbuf
  by_cases hlong : c < s.buf.len
  · obtain ⟨hfails, hfails'⟩ := fails_of_long s.buf c hc hwf hcomplete hlong
    rw [analyse_of_length_mismatch _ s hfails] at ha
    cases ha
    exact ⟨_, (analyse_of_length_mismatch _ { s with buf := s.buf.capped c } hfails').trans
      (by rw [raise_eq, raise_eq]; rfl)⟩
  · rw [capped_eq_self s.buf c hwf (Nat.not_lt.mp hlong)]
    exact ⟨a.buf, (analyse_bufCap (some c) none none s).trans ha⟩

/-- Settles O15: the analysis of the old unit is alike, and the new bytes are stored alike. -/
theorem finiteAccumulatorUnobservable : Obligations.FiniteAccumulatorUnobservable := by
  intro c data ts s hc hbuf
  have hcomplete := hbuf.2
  by_cases hm : s.mode = .fill
  · refine ⟨fun t ht => ?_, ?_⟩
    · rw [fragStart_of_fill _ data ts s hm] at ht
      obtain ⟨a, ha, ht⟩ := (andThen_eq_next _ _ _).mp ht
      cases ht
      obtain ⟨b, hb⟩ := analyse_capped c s.beginTxn a hc hbuf ha
      rw [fragStart_of_fill _ data ts { s with buf := s.buf.capped c } hm]
      exact (congrArg (andThen · _) hb).trans (congrArg _ (beginUnit_capped c data ts a b))
    · rw [fragCont_of_fill _ data s hm, fragCont_of_fill _ data { s with buf := s.buf.capped c } hm]
      exact congrArg (fun b => { s.beginTxn with buf := b }) (append_capped s.buf c data hcomplete)
  · have hm := mode_eq_sync_of_ne hm
    refine ⟨fun t ht => ?_, ?_⟩
    · rw [fragStart_of_sync _ data ts s hm] at ht
      cases ht
      rw [fragStart_of_sync _ data ts { s with buf := s.buf.capped c } hm]
      exact congrArg _ (beginUnit_capped c data ts s.beginTxn (s.buf.capped c))
    · rw [fragCont_of_sync _ data s hm, fragCont_of_sync _ data { s with buf := s.buf.capped c } hm]
      rfl

end Sys2Proof.Proofs.Transactions
end

section
/-!
PROOFS. The scan of a unit (R131, R141 to R150): what it leaves alone, the events it emits, and that it is a run of
single record steps.
-/

namespace Sys2Proof.Proofs.Scans

open Sys2Proof Sys2Proof.Machine Sys2Proof.Claims
open Sys2Proof.Proofs.Elements Sys2Proof.Proofs.Analysis Sys2Proof.Proofs.Transactions

theorem exec_unitTtx_eq_next (low : Nibble) (s t : State) (h : exec (.unitTtx low) s = .next t) :
    ∃ sc, s.scan = some sc ∧ dispatch Config.std (sc.pos + 1) sc.stop s = .next t := by
  have h : knownUnit Config.std s = .next t := h
  cases hs : s.scan with
  | none => simp only [knownUnit, hs] at h; cases h
  | some sc => exact ⟨sc, rfl, (knownUnit_of_live _ s sc hs).symm.trans h⟩

/-- Settles O29: the writes of an analysis are none of these fields, and a scan that answers has ended. -/
theorem scanWritesNoBuffer : Obligations.ScanWritesNoBuffer := by
  intro low s t h
  obtain ⟨sc, -, h⟩ := exec_unitTtx_eq_next low s t h
  obtain ⟨hbuf, hts, hinputs, hlookup, hport⟩ :=
    (kept_sameInputs Config.std s).dispatch _ _ s t ⟨rfl, rfl, rfl, rfl, rfl⟩ h
  exact ⟨hbuf, hts, hinputs, hlookup, hport, scanLoop_scan _ _ _ t h⟩

/-! ### The events of a scan -/

/-- From `s` to `u` exactly `events` were emitted, with the counters `shown` at each. -/
structure Emitted (s u : State) (events : List Page) (shown : List (Vector Nat 8)) : Prop where
  out : u.out = s.out ++ events
  wf : ∀ p ∈ events, p.wf = true
  host : u.host = events.foldl (fun h p => h.pageCompleted p) s.host
  eventCounters : u.eventCounters = s.eventCounters ++ shown
  length : shown.length = events.length
  within : ∀ v ∈ shown, ∀ i : Fin 8, s.counter i ≤ v.get i ∧ v.get i ≤ u.counter i
  rising : shown.Pairwise fun v w => ∀ i : Fin 8, v.get i ≤ w.get i
  counters : ∀ i, s.counter i ≤ u.counter i

theorem emitted_refl (s : State) : Emitted s s [] [] where
  out := (List.append_nil _).symm
  wf := by simp
  host := rfl
  eventCounters := (List.append_nil _).symm
  length := rfl
  within := by simp
  rising := List.Pairwise.nil
  counters _ := le_rfl

/-- A write that emits nothing and lowers no counter leaves the account of the events as it is. -/
theorem Emitted.mono {s u v : State} {events : List Page} {shown : List (Vector Nat 8)} (h : Emitted s u events shown)
    (hout : v.out = u.out) (hhost : v.host = u.host) (hec : v.eventCounters = u.eventCounters)
    (hcnt : ∀ i, u.counter i ≤ v.counter i) : Emitted s v events shown where
  out := hout.trans h.out
  wf := h.wf
  host := hhost.trans h.host
  eventCounters := hec.trans h.eventCounters
  length := h.length
  within w hw i := ⟨(h.within w hw i).1, (h.within w hw i).2.trans (hcnt i)⟩
  rising := h.rising
  counters i := (h.counters i).trans (hcnt i)

/-- An emitted page joins the account with the counters of the moment (R191, R250). -/
theorem Emitted.emit {s u : State} {events : List Page} {shown : List (Vector Nat 8)} (h : Emitted s u events shown)
    (p : Page) (hp : p.wf = true) : Emitted s (u.emit p) (events ++ [p]) (shown ++ [u.cnt]) where
  out := by rw [out_emit, h.out, List.append_assoc]
  wf q hq := by
    obtain hq | hq := List.mem_append.mp hq
    · exact h.wf q hq
    · rw [List.mem_singleton.mp hq]
      exact hp
  host := by rw [host_emit, h.host, List.foldl_append]; rfl
  eventCounters := by rw [eventCounters_emit, h.eventCounters, List.append_assoc]
  length := by simp [h.length]
  within v hv i := by
    obtain hv | hv := List.mem_append.mp hv
    · exact h.within v hv i
    · rw [List.mem_singleton.mp hv]
      exact ⟨h.counters i, le_rfl⟩
  rising := by
    refine List.pairwise_append.mpr ⟨h.rising, List.pairwise_singleton _ _, fun v hv w hw i => ?_⟩
    rw [List.mem_singleton.mp hw]
    exact (h.within v hv i).2
  counters := h.counters

/-- The writes of an analysis emit pages of the slots alone, which are in range. -/
theorem kept_emitted (s : State) :
    Kept Config.std (fun u => u.SlotsWf ∧ ∃ events shown, Emitted s u events shown) where
  raise d u := by
    rintro ⟨hslots, events, shown, h⟩
    exact ⟨(kept_slotsWf _).raise d u hslots, events, shown,
      h.mono (by simp) (by simp) (by simp) ((kept_counters_le u).raise d u fun _ => le_rfl)⟩
  scan sc u := by
    rintro ⟨hslots, events, shown, h⟩
    exact ⟨hslots, events, shown, h.mono rfl rfl rfl fun _ => le_rfl⟩
  close m u := by
    rintro ⟨hslots, events, shown, h⟩
    refine ⟨(kept_slotsWf Config.std).close m u hslots, ?_⟩
    obtain ⟨-, e⟩ | ⟨p, hp, e⟩ := closePage_cases m u <;> rw [e]
    · exact ⟨events, shown, h⟩
    · obtain ⟨-, hwf⟩ := page_of_slotsWf hslots hp
      exact ⟨_, _, (h.emit p hwf).mono rfl rfl rfl fun _ => le_rfl⟩
  openPage m f text u hrel htext := by
    rintro ⟨hslots, events, shown, h⟩
    exact ⟨(kept_slotsWf Config.std).openPage m f text u hrel htext hslots, events, shown,
      h.mono rfl rfl rfl fun _ => le_rfl⟩
  storeRow m k d u hk hd := by
    rintro ⟨hslots, events, shown, h⟩
    exact ⟨(kept_slotsWf Config.std).storeRow m k d u hk hd hslots, events, shown,
      h.mono (by simp) (by simp) (by simp) fun i => (counter_congr (cnt_storeRow m k d u) i).ge⟩

/-- Settles O30: the account of the events, carried through the scan. -/
theorem scanEventsReachConsumer : Obligations.ScanEventsReachConsumer := by
  intro low s t hinv h
  obtain ⟨sc, -, h⟩ := exec_unitTtx_eq_next low s t h
  obtain ⟨-, events, shown, he⟩ :=
    (kept_emitted s).dispatch _ _ s t ⟨hinv.slotsWf, [], [], emitted_refl s⟩ h
  exact ⟨events, he.out, he.wf, he.host, shown, he.eventCounters, he.length, he.within, he.rising⟩

/-! ### The scan as single steps -/

/-- A round ends the scan, or moves the scan pointer on by two bytes at least inside the payload (R147, R150). -/
theorem scan_of_scanRound (cfg : Config) (pos stop : Nat) (s t : State)
    (hs : s.scan = some { level := .record, pos := pos, stop := stop }) (h : scanRound cfg pos stop s = .next t) :
    t.scan = none ∨
      ∃ pos', pos + 2 ≤ pos' ∧ pos' ≤ stop ∧ t.scan = some { level := .record, pos := pos', stop := stop } := by
  obtain ⟨-, rfl⟩ | ⟨-, rfl⟩ | ⟨ty, n, body, hf, rfl⟩ := scanRound_cases cfg pos stop s t h
  · exact .inl rfl
  · exact .inl rfl
  obtain ⟨hfits, -⟩ := fetchRecord_found _ _ _ _ _ _ hf
  obtain hend | hlive := record_scan cfg ty body s
  · exact .inl (by rw [advance_of_ended _ _ hend, hend])
  · rw [advance_of_live _ _ _ (hlive.trans hs)]
    exact .inr ⟨pos + (2 + n.toNat), by omega, by omega, rfl⟩

theorem run_succ (n : Nat) (s t : State) (h : step s = .next t) :
    Host.Core.run core (n + 1) s = Host.Core.run core n t := by
  have h : core.step s = .next t := h
  simp only [Host.Core.run, h]

/-- Once the scan has ended the loop changes nothing. -/
theorem eq_of_scanLoop_of_ended (cfg : Config) (fuel : Nat) (s t : State) (hs : s.scan = none)
    (h : scanLoop cfg fuel s = .next t) : t = s := by
  cases fuel with
  | zero => cases h
  | succ fuel =>
    simp only [scanLoop, hs] at h
    cases h
    rfl

/-- The scan loop from a record is the run of single steps, one for two bytes of payload and one more at most. -/
theorem run_of_scanLoop (fuel : Nat) : ∀ (pos stop : Nat) (s t : State),
    s.scan = some { level := .record, pos := pos, stop := stop } → scanLoop Config.std fuel s = .next t →
    ∃ n, n ≤ (stop - pos) / 2 + 1 ∧ Host.Core.run core n s = .next t := by
  induction fuel with
  | zero => intro pos stop s t _ h; cases h
  | succ fuel ih =>
    intro pos stop s t hs h
    simp only [scanLoop, hs] at h
    obtain ⟨u, hu, ht⟩ := (andThen_eq_next _ _ _).mp h
    have hstep : step s = .next u := (step_eq_scanRound s pos stop hs).trans hu
    obtain hend | ⟨pos', hmove, hin, hlive⟩ := scan_of_scanRound _ pos stop s u hs hu
    · rw [eq_of_scanLoop_of_ended _ fuel u t hend ht]
      exact ⟨1, by omega, run_succ 0 s u hstep⟩
    · obtain ⟨n, hn, hrun⟩ := ih pos' stop u t hlive ht
      exact ⟨n + 1, by omega, (run_succ n s u hstep).trans hrun⟩

/-- Settles O28: `UNIT.TTX` is the scan loop from one past the data identifier. -/
theorem unitScanIsRecordSteps : Obligations.UnitScanIsRecordSteps := by
  intro low s sc hbuf hs hstop
  obtain ⟨t, ht, hend, -⟩ := knownUnit_completes Config.std s sc hs hbuf hstop
  have hloop := (knownUnit_of_live _ s sc hs).symm.trans ht
  obtain ⟨n, hn, hrun⟩ := run_of_scanLoop _ _ _ _ t rfl hloop
  exact ⟨t, n, ht, hend, hn, hrun⟩

end Sys2Proof.Proofs.Scans
end

section
/-!
PROOFS. The machine as a whole: progress (R210), the invariant (R35, R25, R150), what holds between transactions (R20,
R133), and the counters (R35 g).
-/

namespace Sys2Proof.Proofs.WholeMachine

open Sys2Proof Sys2Proof.Machine Sys2Proof.Claims
open Sys2Proof.Proofs.Words Sys2Proof.Proofs.Elements Sys2Proof.Proofs.Analysis Sys2Proof.Proofs.Transactions
open Sys2Proof.Proofs.CacheOnePage (cacheWf_pageCompleted)

/-! ### Progress -/

theorem scanInside_of_scanWf {s : State} {sc : Scan} (h : s.ScanWf) (hs : s.scan = some sc) :
    scanInside s.buf.len sc = true := by
  rw [State.ScanWf, hs] at h
  exact h

theorem stop_le_of_scanInside {len : Nat} {sc : Scan} (h : scanInside len sc = true) : sc.stop ≤ len := by
  simp only [scanInside, Bool.and_eq_true, decide_eq_true_eq] at h
  exact h.1.1

/-- Every instruction completes where one of its format can be taken (R210). -/
theorem exec_completes (i : Instr) (s : State) (hbuf : s.BufWf) (hscan : s.ScanWf) (hready : ready i s = true) :
    ∃ t, exec i s = .next t := by
  cases i with
  | reset => exact ⟨_, exec_reset s (Option.isNone_iff_eq_none.mp hready)⟩
  | fragCont data ts => exact ⟨_, exec_fragCont data ts s (Option.isNone_iff_eq_none.mp hready)⟩
  | fragStart data ts =>
    have hs := Option.isNone_iff_eq_none.mp hready
    rw [exec_fragStart data ts s hs]
    by_cases hm : s.mode = .fill
    · obtain ⟨a, ha⟩ := analyse_completes Config.std s.beginTxn hs hbuf
      rw [fragStart_of_fill _ data ts s hm, ha]
      exact ⟨_, rfl⟩
    · exact ⟨_, fragStart_of_sync _ data ts s (mode_eq_sync_of_ne hm)⟩
  | unitTtx low =>
    cases hs : s.scan with
    | none => simp [ready, hs] at hready
    | some sc =>
      have hstop := stop_le_of_scanInside (scanInside_of_scanWf hscan hs)
      obtain ⟨t, ht, -⟩ := knownUnit_completes Config.std s sc hs hbuf hstop
      exact ⟨t, ht⟩
  | _ => exact ⟨_, rfl⟩

theorem ready_decodeInput (x : Input) (s : State) (hs : s.scan = none) : ready (decodeInput x) s = true := by
  have hnone : s.scan.isNone = true := Option.isNone_iff_eq_none.mpr hs
  cases x with
  | reset => exact hnone
  | frag sop data ts => cases sop <;> exact hnone
  | _ => rfl

/-- The bytes of the format at the scan pointer are an instruction that can be taken there (R131). -/
theorem ready_of_decode_word (s : State) (sc : Scan) (bytes : List Byte) (i : Instr) (hs : s.scan = some sc)
    (hd : decode (.word sc.level bytes) = .ok i) : ready i s = true := by
  generalize hl : sc.level = l at hd
  cases standsFor_of_decode l bytes i hd with
  | unit did =>
    unfold unitInstr
    cases decodeDid did with
    | ttx low => simp [ready, hs, hl]
    | unknown => rfl
  | record t n body hlen => unfold recordInstr; cases decodeType t <;> rfl
  | line lb sb mb pb body hlen => unfold lineInstr; cases decodeFraming lb sb <;> rfl
  | packet mb pb body hlen => unfold packetInstr; cases decodeAddress mb pb <;> rfl
  | ham84 b => unfold hamInstr; cases hamNibble b <;> rfl
  | oddpar b => unfold parInstr; cases parChar b <;> rfl

theorem fetchBytes_of_inside (l : Level) (m : Memory) (pos n : Nat) (hwf : m.wf = true) (hcomplete : m.complete = true)
    (hin : pos + n ≤ m.len) : ∃ bytes, bytes.length = n ∧ fetchBytes l m pos n = .word (.word l bytes) n := by
  obtain ⟨bytes, hbytes⟩ := m.readBytes_isSome hwf hcomplete n pos hin
  exact ⟨bytes, m.readBytes_length n pos bytes hbytes, by simp only [fetchBytes, hbytes]⟩

/-- Inside a complete accumulator the scan pointer stands at the end, at a record that does not fit, or at bytes that
decode (R10, R84). -/
theorem fetchScan_decodes (m : Memory) (sc : Scan) (hwf : m.wf = true) (hcomplete : m.complete = true)
    (hin : scanInside m.len sc = true) :
    fetchScan m sc = .ended ∨ fetchScan m sc = .badLength ∨
      ∃ bytes n i, fetchScan m sc = .word (.word sc.level bytes) n ∧ decode (.word sc.level bytes) = .ok i := by
  obtain ⟨-, -, hline, hpacket, -⟩ := everyWordDecodes
  obtain ⟨level, pos, stop⟩ := sc
  simp only [scanInside, Bool.and_eq_true, decide_eq_true_eq] at hin
  obtain ⟨⟨hstop, hpos⟩, hlevel⟩ := hin
  cases level with
  | unit =>
    have hlive : pos < stop := of_decide_eq_true hlevel
    obtain ⟨bytes, hlen, hf⟩ := fetchBytes_of_inside .unit m pos 1 hwf hcomplete (by omega)
    obtain ⟨did, rfl⟩ := List.length_eq_one_iff.mp hlen
    exact .inr (.inr ⟨_, _, _, hf, decode_unit did⟩)
  | record =>
    simp only [fetchScan]
    cases hr : fetchRecord m pos stop with
    | ended => exact .inl rfl
    | badLength => exact .inr (.inl rfl)
    | missing a n => exact absurd hr (fetchRecord_not_missing m hwf hcomplete pos stop hstop a n)
    | found t n body =>
      obtain ⟨-, -, -, hbody⟩ := fetchRecord_found _ _ _ _ _ _ hr
      exact .inr (.inr ⟨_, _, _, rfl, decode_record t n body (m.readBytes_length _ _ _ hbody)⟩)
  | line =>
    have hfits : pos + 44 ≤ stop := of_decide_eq_true hlevel
    obtain ⟨bytes, hlen, hf⟩ := fetchBytes_of_inside .line m pos 44 hwf hcomplete (by omega)
    obtain ⟨i, hi⟩ := hline bytes hlen
    exact .inr (.inr ⟨_, _, i, hf, hi⟩)
  | packet =>
    have hfits : pos + 42 ≤ stop := of_decide_eq_true hlevel
    obtain ⟨bytes, hlen, hf⟩ := fetchBytes_of_inside .packet m pos 42 hwf hcomplete (by omega)
    obtain ⟨i, hi⟩ := hpacket bytes hlen
    exact .inr (.inr ⟨_, _, i, hf, hi⟩)
  | ham84 =>
    by_cases hend : stop ≤ pos
    · exact .inl (if_pos hend)
    obtain ⟨bytes, hlen, hf⟩ := fetchBytes_of_inside .ham84 m pos 1 hwf hcomplete (by omega)
    obtain ⟨b, rfl⟩ := List.length_eq_one_iff.mp hlen
    exact .inr (.inr ⟨_, _, _, (if_neg hend).trans hf, decode_ham84 b⟩)
  | oddpar =>
    by_cases hend : stop ≤ pos
    · exact .inl (if_pos hend)
    obtain ⟨bytes, hlen, hf⟩ := fetchBytes_of_inside .oddpar m pos 1 hwf hcomplete (by omega)
    obtain ⟨b, rfl⟩ := List.length_eq_one_iff.mp hlen
    exact .inr (.inr ⟨_, _, _, (if_neg hend).trans hf, decode_oddpar b⟩)

/-- Settles O57: what a step finds decodes, and the instruction can be taken there. -/
theorem stepNeverStops : Obligations.StepNeverStops := by
  intro s hbuf hscan
  cases hs : s.scan with
  | none =>
    cases hi : s.inputs with
    | nil => exact ⟨s, step_of_idle s hs hi⟩
    | cons x rest =>
      obtain ⟨t, ht⟩ :=
        exec_completes (decodeInput x) { s with inputs := rest } hbuf hscan (ready_decodeInput x _ hs)
      exact ⟨_, by rw [step_of_input s x rest hs hi, ht, andThen_next]⟩
  | some sc =>
    have hfetch := fetch_of_live s sc hs
    obtain hf | hf | ⟨bytes, n, i, hf, hd⟩ :=
      fetchScan_decodes s.buf sc hbuf.1 hbuf.2 (scanInside_of_scanWf hscan hs)
    · exact ⟨_, by simp only [step, hfetch, hf]; rfl⟩
    · exact ⟨_, by simp only [step, hfetch, hf]; rfl⟩
    · obtain ⟨t, ht⟩ := exec_completes i s hbuf hscan (ready_of_decode_word s sc bytes i hs hd)
      exact ⟨_, by rw [step_of_element s sc bytes n i hs hf hd, ht, andThen_next]⟩

/-! ### The invariant -/

/-- The invariant but for the scan pointer, with the accumulator and the queue of `s`: what the writes of an analysis
keep. -/
structure KeepsPages (s u : State) : Prop where
  pages : PagesWf u
  buf : u.buf = s.buf
  inputs : u.inputs = s.inputs

theorem kept_keepsPages (cfg : Config) (s : State) : Kept cfg (KeepsPages s) where
  raise d u h := ⟨(kept_pagesWf cfg).raise d u h.pages, by simp [h.buf], by simp [h.inputs]⟩
  scan sc u h := ⟨(kept_pagesWf cfg).scan sc u h.pages, h.buf, h.inputs⟩
  close m u h := ⟨(kept_pagesWf cfg).close m u h.pages, by simp [h.buf], by simp [h.inputs]⟩
  openPage m f text u hrel htext h := ⟨(kept_pagesWf cfg).openPage m f text u hrel htext h.pages, h.buf, h.inputs⟩
  storeRow m k d u hk hd h := ⟨(kept_pagesWf cfg).storeRow m k d u hk hd h.pages, by simp [h.buf], by simp [h.inputs]⟩

theorem keepsPages_of_inv {s : State} (h : s.Inv) : KeepsPages s s :=
  ⟨⟨h.slotsWf, h.outWf, h.cacheWf⟩, rfl, rfl⟩

theorem KeepsPages.inv {s u : State} (h : KeepsPages s u) (hinv : s.Inv) (hscan : u.ScanWf) : u.Inv where
  bufWf := by rw [State.BufWf, h.buf]; exact hinv.bufWf
  slotsWf := h.pages.slotsWf
  scanWf := hscan
  outWf := h.pages.outWf
  cacheWf := h.pages.cacheWf
  inputsWf := by rw [State.InputsWf, h.inputs]; exact hinv.inputsWf

theorem scanWf_of_ended {s : State} (h : s.scan = none) : s.ScanWf := by
  rw [State.ScanWf, h]
  rfl

/-- The instruction of decoded bytes keeps the invariant but for the scan pointer. -/
theorem keepsPages_exec_word (l : Level) (bytes : List Byte) (i : Instr) (s t : State)
    (hd : decode (.word l bytes) = .ok i) (h : s.Inv) (ht : exec i s = .next t) : KeepsPages s t :=
  (kept_keepsPages Config.std s).exec
    (fun _ _ hu => ⟨⟨hu.pages.slotsWf, hu.pages.outWf, hu.pages.cacheWf⟩, hu.buf, hu.inputs⟩)
    l bytes i s t hd (keepsPages_of_inv h) ht

theorem inv_exec_word (l : Level) (bytes : List Byte) (i : Instr) (s t : State)
    (hd : decode (.word l bytes) = .ok i) (h : s.Inv) (ht : exec i s = .next t) : t.Inv := by
  have hkeeps := keepsPages_exec_word l bytes i s t hd h ht
  refine hkeeps.inv h ?_
  obtain hend | ⟨hlive, -⟩ := scan_exec l bytes i s t hd ht
  · exact scanWf_of_ended hend
  · rw [State.ScanWf, hlive, hkeeps.buf]
    exact h.scanWf

/-- Only the Page Manager is written by its operations. -/
theorem inv_withHost {s : State} (h : s.Inv) (x : PageManager) (hx : x.CacheWf) : (s.withHost x).Inv :=
  ⟨h.bufWf, h.slotsWf, h.scanWf, h.outWf, hx, h.inputsWf⟩

theorem inv_beginTxn {s : State} (h : s.Inv) : s.beginTxn.Inv :=
  ⟨h.bufWf, h.slotsWf, h.scanWf, ⟨rfl, rfl⟩, h.cacheWf, h.inputsWf⟩

theorem bufWf_append {s : State} (h : s.BufWf) (data : List Byte) : (s.append Config.std data).BufWf :=
  ⟨Memory.append_wf none s.buf data h.1 h.2, Memory.append_complete s.buf data h.2⟩

theorem inv_append {s : State} (h : s.Inv) (data : List Byte) (hs : s.scan = none) :
    (s.append Config.std data).Inv :=
  ⟨bufWf_append h.bufWf data, h.slotsWf, scanWf_of_ended hs, h.outWf, h.cacheWf, h.inputsWf⟩

theorem inv_beginUnit {a : State} (data : List Byte) (ts : Timestamp) (hpages : PagesWf a) (hs : a.scan = none)
    (hinputs : a.InputsWf) : (beginUnit Config.std data ts a).Inv where
  bufWf := bufWf_append (s := ((a.setMode .fill).clearBuf).setTs ts) ⟨Memory.empty_wf, Memory.empty_complete⟩ data
  slotsWf := hpages.slotsWf
  scanWf := scanWf_of_ended hs
  outWf := hpages.outWf
  cacheWf := hpages.cacheWf
  inputsWf := hinputs

theorem inv_resetBlock {s : State} (h : s.Inv) : (resetBlock s).Inv where
  bufWf := ⟨Memory.empty_wf, Memory.empty_complete⟩
  slotsWf m := by simp [State.slotAt, resetBlock, State.reset, slotOk]
  scanWf := rfl
  outWf := ⟨rfl, rfl⟩
  cacheWf := h.cacheWf
  inputsWf := h.inputsWf

theorem inv_exec_fragStart (data : List Byte) (ts : Timestamp) (s t : State) (h : s.Inv)
    (ht : exec (.fragStart data ts) s = .next t) : t.Inv := by
  obtain ⟨-, a, rfl, hscan, hinputs, ha⟩ := fragStart_eq_next data ts s t ht
  have hbegin := inv_beginTxn h
  have hpages : PagesWf a := by
    obtain ⟨-, rfl⟩ | ⟨-, ha⟩ := ha
    · exact (keepsPages_of_inv hbegin).pages
    · exact (kept_pagesWf Config.std).analyse s.beginTxn a (keepsPages_of_inv hbegin).pages ha
  exact inv_beginUnit data ts hpages hscan (by rw [State.InputsWf, hinputs]; exact h.inputsWf)

/-- A well-formed input keeps the invariant. -/
theorem inv_exec_input (x : Input) (s t : State) (hwf : (decodeInput x).wf = true) (h : s.Inv)
    (ht : exec (decodeInput x) s = .next t) : t.Inv := by
  have hcache := h.cacheWf
  cases x with
  | reset =>
    obtain ⟨-, ht⟩ := (betweenTransactions_eq_next _ _ _).mp ht
    cases ht
    exact inv_resetBlock h
  | frag sop data ts =>
    cases sop with
    | true => exact inv_exec_fragStart data ts s t h ht
    | false =>
      obtain ⟨hs, ht⟩ := (betweenTransactions_eq_next _ _ _).mp ht
      cases ht
      by_cases hm : s.mode = .fill
      · rw [fragCont_of_fill _ data s hm]
        exact inv_append (inv_beginTxn h) data hs
      · rw [fragCont_of_sync _ data s (mode_eq_sync_of_ne hm)]
        exact inv_beginTxn h
  | readCounter i =>
    cases ht
    exact ⟨h.bufWf, h.slotsWf, h.scanWf, h.outWf, hcache, h.inputsWf⟩
  | setCurrentPage n =>
    cases ht
    cases n with
    | none => exact inv_withHost h _ hcache
    | some n => exact inv_withHost h _ hcache
  | deactivate r =>
    cases ht
    cases r with
    | false => exact inv_withHost h _ hcache
    | true => exact inv_withHost h _ ⟨rfl, rfl⟩
  | pages =>
    cases ht
    exact inv_withHost h _ hcache
  | pageCompleted p =>
    cases ht
    exact inv_withHost h _ (cacheWf_pageCompleted _ p hcache hwf)

/-- Settles O56: a well-formed instruction is what its encoding decodes to, an input or bytes. -/
theorem everyInstructionCompletes : Obligations.EveryInstructionCompletes := by
  intro i s hwf h hready
  obtain ⟨t, ht⟩ := exec_completes i s h.bufWf h.scanWf hready
  refine ⟨t, ht, ?_⟩
  have hd := decodeOfEncode i hwf
  cases he : encode i with
  | port x =>
    rw [he] at hd
    obtain rfl : decodeInput x = i := Except.ok.inj hd
    exact inv_exec_input x s t hwf h ht
  | word l bytes =>
    rw [he] at hd
    exact inv_exec_word l bytes i s t hd h ht

/-- An input taken between transactions ends between transactions (R20, R25). -/
theorem scan_exec_input (x : Input) (s t : State) (hs : s.scan = none) (ht : exec (decodeInput x) s = .next t) :
    t.scan = none := by
  cases x with
  | reset =>
    rw [decodeInput, exec_reset s hs] at ht
    cases ht
    rfl
  | frag sop data ts =>
    cases sop with
    | true =>
      obtain ⟨-, a, rfl, hscan, -⟩ := fragStart_eq_next data ts s t ht
      exact hscan
    | false =>
      rw [decodeInput, fragContResult data ts s hs] at ht
      cases ht
      exact hs
  | readCounter i | setCurrentPage n | deactivate r | pages | pageCompleted p =>
    cases ht
    exact hs

/-- Moving past an element that was fetched leaves the scan pointer inside the unit (R147, R150). -/
theorem scanInside_past (m : Memory) (sc : Scan) (e : Encoded) (n : Nat) (hf : fetchScan m sc = .word e n)
    (hin : scanInside m.len sc = true) (hl : sc.level ≠ .unit) :
    scanInside m.len { level := nextLevel sc.level, pos := sc.pos + n, stop := sc.stop } = true := by
  obtain ⟨-, hn⟩ := fetchScan_eq_word m sc e n hf
  obtain ⟨level, pos, stop⟩ := sc
  simp only [scanInside, Bool.and_eq_true, decide_eq_true_eq] at hin ⊢
  obtain ⟨⟨hstop, hpos⟩, hlevel⟩ := hin
  refine ⟨⟨hstop, ?_⟩, ?_⟩
  · cases level with
    | unit => exact absurd rfl hl
    | record | ham84 | oddpar => exact hn
    | line => exact hn ▸ of_decide_eq_true hlevel
    | packet => exact hn ▸ of_decide_eq_true hlevel
  · cases level with
    | unit => exact absurd rfl hl
    | _ => rfl

theorem inv_setScan {s : State} (h : s.Inv) (sc : Option Scan) (hsc : sc.all (scanInside s.buf.len) = true) :
    State.Inv { s with scan := sc } :=
  ⟨h.bufWf, h.slotsWf, hsc, h.outWf, h.cacheWf, h.inputsWf⟩

/-- Settles O54: what a step takes keeps the invariant, and so does the advance past it. -/
theorem stepKeepsTheInvariant : Obligations.StepKeepsTheInvariant := by
  intro s t h hstep
  cases stepDid_of_step s t hstep with
  | idle ht => exact ht ▸ h
  | ended sc hs ht => exact ht ▸ inv_setScan h none rfl
  | badLength sc hs ht =>
    subst ht
    exact ((kept_keepsPages Config.std s).raiseAndEnd _ s (keepsPages_of_inv h)).inv h (scanWf_of_ended rfl)
  | input x rest u hs hi hu ht =>
    subst ht
    have hoffered := h.inputsWf
    rw [State.InputsWf, hi, List.all_cons, Bool.and_eq_true] at hoffered
    obtain ⟨hx, hrest⟩ := hoffered
    rw [advance_of_ended 0 u (scan_exec_input x { s with inputs := rest } u hs hu)]
    exact inv_exec_input x { s with inputs := rest } u hx ⟨h.bufWf, h.slotsWf, h.scanWf, h.outWf, h.cacheWf, hrest⟩ hu
  | element sc bytes n i u hs hf hd hu ht =>
    subst ht
    have hinv := inv_exec_word _ bytes i s u hd h hu
    obtain hend | ⟨hlive, hl⟩ := scan_exec _ bytes i s u hd hu
    · rw [advance_of_ended n u hend]
      exact hinv
    · have hbuf := (keepsPages_exec_word _ bytes i s u hd h hu).buf
      rw [advance_of_live n u sc (hlive.trans hs)]
      refine inv_setScan hinv _ ?_
      rw [hbuf]
      exact scanInside_past s.buf sc _ n hf (scanInside_of_scanWf h.scanWf hs) hl

/-- Settles O53: the reset state holds nothing. -/
theorem resetMeetsTheInvariants : Obligations.ResetMeetsTheInvariants where
  left :=
    { bufWf := ⟨Memory.empty_wf, Memory.empty_complete⟩
      slotsWf := fun m => by simp [State.slotAt, State.reset, slotOk]
      scanWf := rfl
      outWf := ⟨rfl, rfl⟩
      cacheWf := ⟨rfl, rfl⟩
      inputsWf := rfl }
  right := ⟨rfl, fun _ => rfl⟩

/-! ### Between transactions -/

/-- An input leaves the block filling, as it was, or as reset leaves it. -/
theorem block_exec_input (x : Input) (s t : State) (hs : s.scan = none) (ht : exec (decodeInput x) s = .next t) :
    t.mode = .fill ∨ t.block = s.block ∨ t.block = State.reset.block := by
  cases x with
  | reset =>
    rw [decodeInput, exec_reset s hs] at ht
    cases ht
    exact .inr (.inr rfl)
  | frag sop data ts =>
    cases sop with
    | true =>
      obtain ⟨hm, -⟩ := fragStartEndsFilling data ts s t ht
      exact .inl hm
    | false =>
      rw [decodeInput, exec_fragCont data ts s hs] at ht
      cases ht
      by_cases hm : s.mode = .fill
      · rw [fragCont_of_fill _ data s hm]
        exact .inl hm
      · rw [fragCont_of_sync _ data s (mode_eq_sync_of_ne hm)]
        exact .inr (.inl rfl)
  | readCounter i | setCurrentPage n | deactivate r | pages | pageCompleted p =>
    cases ht
    exact .inr (.inl rfl)

/-- Settles O55: with no scan live a step idles or takes one input. -/
theorem stepKeepsBetweenTransactions : Obligations.StepKeepsBetweenTransactions := by
  rintro s t ⟨hs, hsync⟩ hstep
  cases stepDid_of_step s t hstep with
  | idle ht => exact ht ▸ ⟨hs, hsync⟩
  | ended sc hlive ht => cases hs.symm.trans hlive
  | badLength sc hlive ht => cases hs.symm.trans hlive
  | element sc bytes n i u hlive => cases hs.symm.trans hlive
  | input x rest u _ hi hu ht =>
    have hend := scan_exec_input x { s with inputs := rest } u hs hu
    rw [advance_of_ended 0 u hend] at ht
    subst ht
    refine ⟨hend, fun hm => ?_⟩
    obtain hfill | hsame | hreset := block_exec_input x { s with inputs := rest } t hs hu
    · cases hfill.symm.trans hm
    · have hmode : t.mode = s.mode := congrArg Block.mode hsame
      exact hsame.trans (hsync (hmode ▸ hm))
    · exact hreset

/-! ### The counters -/

theorem counter_advance (n : Nat) (s : State) (i : Fin 8) : (s.advance n).counter i = s.counter i := by
  rw [advance_eq]
  rfl

/-- Only `RESET` among the inputs lowers a counter (R35 g). -/
theorem counter_le_exec_input (x : Input) (s t : State) (hx : x ≠ .reset) (ht : exec (decodeInput x) s = .next t)
    (i : Fin 8) : s.counter i ≤ t.counter i := by
  cases x with
  | reset => exact absurd rfl hx
  | frag sop data ts =>
    cases sop with
    | true =>
      obtain ⟨-, a, rfl, -, -, ⟨-, rfl⟩ | ⟨-, ha⟩⟩ := fragStart_eq_next data ts s t ht
      · exact le_rfl
      · exact (kept_counters_le s).analyse s.beginTxn a (fun _ => le_rfl) ha i
    | false =>
      obtain ⟨hs, -⟩ := (betweenTransactions_eq_next _ _ _).mp ht
      rw [decodeInput, fragContResult data ts s hs] at ht
      cases ht
      exact le_rfl
  | readCounter i | setCurrentPage n | deactivate r | pages | pageCompleted p =>
    cases ht
    exact le_rfl

/-- Settles O58: the writes of an analysis count upwards, and no input but `RESET` writes a counter otherwise. -/
theorem countersNeverFall : Obligations.CountersNeverFall := by
  intro s t hstep hreset i
  cases stepDid_of_step s t hstep with
  | idle ht => exact ht ▸ le_rfl
  | ended sc hs ht => exact ht ▸ le_rfl
  | badLength sc hs ht => exact ht ▸ (kept_counters_le s).raiseAndEnd _ s (fun _ => le_rfl) i
  | input x rest u hs hi hu ht =>
    have hx : x ≠ .reset := fun e => hreset hs (by rw [hi, e, List.head?_cons])
    rw [ht, counter_advance]
    exact counter_le_exec_input x { s with inputs := rest } u hx hu i
  | element sc bytes n i' u hs hf hd hu ht =>
    rw [ht, counter_advance]
    exact (kept_counters_le s).exec (fun _ _ h => h) _ bytes i' s u hd (fun _ => le_rfl) hu i

end Sys2Proof.Proofs.WholeMachine
end

section
/-!
PROOFS. The packets of a data line (R164 to R178): rows, headers, the isolation of the magazines, and the diagnostics of
a line.
-/

namespace Sys2Proof.Proofs.Packets

open Sys2Proof Sys2Proof.Machine Sys2Proof.Claims
open Sys2Proof.Proofs.AddressMiss (addressMiss_eq)

/-- `CodeError` is counted and nothing else changes: it is not structural (R212, R214). -/
theorem raise_codeError_eq (s : State) : s.raise Config.std .codeError = { s with cnt := counted .codeError s } :=
  addressMiss_eq s

/-! ### Rows -/

theorem exec_pktRow (k : PacketNo) (m : Mag) (body : List Byte) (s : State) :
    exec (.pktRow k m body) s = .next (row Config.std k m body s) := rfl

theorem row_of_damaged (k : PacketNo) (m : Mag) (body : List Byte) (s : State) (h : parText body = none) :
    row Config.std k m body s = { s with cnt := counted .codeError s } := by
  simp only [row, h]
  exact raise_codeError_eq s

theorem row_of_codes (k : PacketNo) (m : Mag) (d : List Char7) (s : State) :
    row Config.std k m (d.map parCode) s = s.storeRow m k d := by
  simp only [row, parText_map]

/-- Settles O38: one invalid byte makes the whole row a miss. -/
theorem rowParityMiss : Obligations.RowParityMiss := by
  intro k m body s h
  rw [exec_pktRow, row_of_damaged k m body s ((parText_eq_none body).mpr h)]

/-- Settles O37: the rows of the open page are a map, and one key of it is written. -/
theorem rowStores : Obligations.RowStores := by
  intro k m d s
  rw [exec_pktRow, row_of_codes]
  refine ⟨fun hnone => ?_, fun p hp => ⟨assocInsert k.toNat d p.lines, ?_, assocFind_insert_same _ _ _,
    fun n hn => assocFind_insert_other _ n _ _ hn, assocSorted_insert _ _ _⟩⟩
  · simp only [State.storeRow, hnone]
  · simp only [State.storeRow, hp]
    rfl

/-! ### Headers -/

theorem exec_pktHdr (m : Mag) (body : List Byte) (s : State) :
    exec (.pktHdr m body) s = .next (openPage Config.std m body (s.closePage m)) := rfl

theorem closed_closePage (m : Mag) (s : State) : Closed m s (s.closePage m) := by
  obtain ⟨hnone, e⟩ | ⟨p, hp, e⟩ := closePage_cases m s
  · exact .inl ⟨hnone, e⟩
  · exact .inr ⟨p, hp, e⟩

theorem counted_closePage (d : Diag) (m : Mag) (s : State) : counted d (s.closePage m) = counted d s := by
  simp only [counted, State.counter, cnt_closePage]

/-- A header whose fields do not decode counts one `CodeError` (R167). -/
theorem openPage_of_damaged_fields (m : Mag) (body : List Byte) (s : State) (h : readHeader body = none) :
    openPage Config.std m body s = { s with cnt := counted .codeError s } := by
  simp only [openPage, h]
  exact raise_codeError_eq s

section
variable (m : Mag) (f : HeaderFields) (text : List Byte) (s : State)

theorem readHeader_headerCodes : readHeader (headerCodes f ++ text) = some f := readHeader_codes f text

theorem headerText_headerCodes : headerText (headerCodes f ++ text) = text := rfl

/-- A filler header opens nothing, whatever its text (R168). -/
theorem openPage_of_filler (h : 99 < f.relativePage) : openPage Config.std m (headerCodes f ++ text) s = s := by
  simp only [openPage, readHeader_headerCodes]
  exact if_pos h

/-- A damaged text counts one `CodeError` (R170). -/
theorem openPage_of_damaged_text (h : f.relativePage ≤ 99) (htext : parText text = none) :
    openPage Config.std m (headerCodes f ++ text) s = { s with cnt := counted .codeError s } := by
  simp only [openPage, readHeader_headerCodes, headerText_headerCodes, htext, if_neg (Nat.not_lt.mpr h)]
  exact raise_codeError_eq s

/-- A good header opens a page (R172). -/
theorem openPage_of_good (chars : List Char7) (h : f.relativePage ≤ 99) :
    openPage Config.std m (headerCodes f ++ chars.map parCode) s = s.setSlot m (some (newPage m f chars s.ts)) := by
  simp only [openPage, readHeader_headerCodes, headerText_headerCodes, parText_map, if_neg (Nat.not_lt.mpr h)]

end

/-- Fields that decode are eight code words (R167). -/
theorem bytes_of_readHeader (b0 b1 b2 b3 b4 b5 b6 b7 : Byte) (rest : List Byte) (f : HeaderFields)
    (h : readHeader (b0 :: b1 :: b2 :: b3 :: b4 :: b5 :: b6 :: b7 :: rest) = some f) :
    [b0, b1, b2, b3, b4, b5, b6, b7] = headerCodes f := by
  simp only [readHeader] at h
  split at h
  · next h0 h1 h2 h3 h4 h5 h6 h7 =>
    cases h
    rw [hamNibble_eq_some] at h0 h1 h2 h3 h4 h5 h6 h7
    simp only [headerCodes, h0, h1, h2, h3, h4, h5, h6, h7]
  · cases h

theorem ham84_of_mem_headerCodes (f : HeaderFields) (b : Byte) (h : b ∈ headerCodes f) : ham84 b ≠ 255#8 := by
  have hcode : ∀ v, ham84 (hamCode v) ≠ 255#8 := by decide
  simp only [headerCodes, List.mem_cons, List.not_mem_nil, or_false] at h
  obtain rfl | rfl | rfl | rfl | rfl | rfl | rfl | rfl := h <;> exact hcode _

/-- An invalid byte among the first eight makes the fields unreadable (R167). -/
theorem readHeader_eq_none (fields text : List Byte) (hlen : fields.length = 8) (h : ∃ b ∈ fields, ham84 b = 255#8) :
    readHeader (fields ++ text) = none := by
  obtain ⟨b, hmem, hinvalid⟩ := h
  match fields, hlen with
  | [b0, b1, b2, b3, b4, b5, b6, b7], _ =>
    rw [Option.eq_none_iff_forall_ne_some]
    intro f hf
    rw [bytes_of_readHeader b0 b1 b2 b3 b4 b5 b6 b7 text f hf] at hmem
    exact ham84_of_mem_headerCodes f b hmem hinvalid

/-- The page number's hundred (R169). -/
theorem pageNumber_eq_add (m : Mag) (r : Nat) (h : r ≤ 99) :
    pageNumber m r = (if m = 0#3 then 800 else 100 * m.toNat) + r := by
  rw [pageNumber_eq m r h]
  split_ifs <;> rfl

theorem subPage_eq (f : HeaderFields) :
    f.subPage = (f.s4c5c6.toNat % 4) * 1000 + f.s3.toNat * 100 + (f.s2c4.toNat % 8) * 10 + f.s1.toNat := by
  have hlow : ∀ x : Nibble, (x &&& 3#4).toNat = x.toNat % 4 ∧ (x &&& 7#4).toNat = x.toNat % 8 := by decide
  rw [HeaderFields.subPage, (hlow f.s4c5c6).1, (hlow f.s2c4).2]

theorem c12_14_eq (f : HeaderFields) : f.c12_14 = BitVec.ofNat 3 (f.c11_14.toNat / 2) := by
  have hupper : ∀ x : Nibble, x.extractLsb' 1 3 = BitVec.ofNat 3 (x.toNat / 2) := by decide
  exact hupper f.c11_14

/-- Settles O39: the slot holds the new page, whose identity the formulas give. -/
theorem headerOpensPage : Obligations.HeaderOpensPage := by
  intro m f text s hrel
  refine ⟨s.closePage m, closed_closePage m s, ?_⟩
  have hopen := openPage_of_good m f (s.closePage m) text hrel
  rw [newPage, pageNumber_eq_add m f.relativePage hrel, subPage_eq, ts_closePage, HeaderFields.flags,
    c12_14_eq] at hopen
  rw [exec_pktHdr, hopen]
  rfl

/-- Settles O40: nothing after the closing of the page. -/
theorem fillerHeaderCloses : Obligations.FillerHeaderCloses := by
  intro m f text s hrel
  exact ⟨s.closePage m, closed_closePage m s, slotAt_closePage_same m s,
    by rw [exec_pktHdr, openPage_of_filler m f text _ hrel]⟩

/-- Settles O41: both ways of damage count one `CodeError` after the closing of the page. -/
theorem damagedHeaderCloses : Obligations.DamagedHeaderCloses := by
  intro m fields text s hlen hdamaged
  refine ⟨s.closePage m, closed_closePage m s, slotAt_closePage_same m s, ?_⟩
  rw [exec_pktHdr, ← counted_closePage _ m s]
  obtain hfields | ⟨f, rfl, hrel, htext⟩ := hdamaged
  · rw [openPage_of_damaged_fields m _ _ (readHeader_eq_none fields text hlen hfields)]
  · rw [openPage_of_damaged_text m f text _ hrel ((parText_eq_none text).mpr htext)]

/-- What a header writes after its step 1 is neither `OUT` nor the readings at events. -/
theorem out_openPage (cfg : Config) (m : Mag) (body : List Byte) (s : State) :
    (openPage cfg m body s).out = s.out ∧ (openPage cfg m body s).eventCounters = s.eventCounters := by
  obtain e | e | ⟨f, text, -, -, -, e⟩ := openPage_cases cfg m body s <;> rw [e] <;> simp

/-- A page found open after a header is the one the header opened. -/
theorem page_of_header (cfg : Config) (m : Mag) (body : List Byte) (s : State) (p : Page)
    (h : (header cfg m body s).slotAt m = some p) : ∃ f text, p = newPage m f text s.ts := by
  unfold header at h
  have hempty := slotAt_closePage_same m s
  obtain e | e | ⟨f, text, -, -, -, e⟩ := openPage_cases cfg m body (s.closePage m) <;> rw [e] at h
  · rw [slotAt_raise, hempty] at h
    cases h
  · rw [hempty] at h
    cases h
  · rw [slotAt_setSlot_same, ts_closePage] at h
    exact ⟨f, text, (Option.some.inj h).symm⟩

/-- Settles O42: the second header's step 1 emits what the first one opened. -/
theorem twoHeadersEmitTheFirst : Obligations.TwoHeadersEmitTheFirst := by
  intro m body1 body2 s t u p ht hp hu
  cases ht
  cases hu
  obtain ⟨f, text, rfl⟩ := page_of_header _ m body1 s p hp
  generalize header Config.std m body1 s = t at hp ⊢
  have hclosed : t.closePage m = (t.emit (newPage m f text s.ts)).setSlot m none := by
    simp only [State.closePage, hp]
  obtain ⟨hout, hec⟩ := out_openPage Config.std m body2 (t.closePage m)
  have hec : (header Config.std m body2 t).eventCounters = t.eventCounters ++ [t.cnt] :=
    hec.trans (by rw [hclosed]; rfl)
  refine ⟨hout.trans (by rw [hclosed]; rfl), fun i => ?_, hec, rfl, rfl, rfl⟩
  rw [State.readDuringEvent, hec, List.getElem?_concat_length]
  rfl

/-! ### Magazines -/

theorem raise_setSlot (cfg : Config) (d : Diag) (n : Mag) (v : Option Page) (s : State) :
    (s.setSlot n v).raise cfg d = (s.raise cfg d).setSlot n v := by
  rw [raise_eq, raise_eq]
  rfl

section
variable {m n : Mag} (v : Option Page) (s : State) (h : n ≠ m)
include h

theorem closePage_setSlot : (s.setSlot n v).closePage m = (s.closePage m).setSlot n v := by
  have hother := slotAt_setSlot_other n m v s h.symm
  unfold State.closePage
  rw [hother]
  cases s.slotAt m with
  | none => rfl
  | some p => exact setSlot_comm n m v none (s.emit p) h.symm

theorem storeRow_setSlot (k : PacketNo) (d : List Char7) :
    (s.setSlot n v).storeRow m k d = (s.storeRow m k d).setSlot n v := by
  have hother := slotAt_setSlot_other n m v s h.symm
  unfold State.storeRow
  rw [hother]
  cases s.slotAt m with
  | none => rfl
  | some p => exact setSlot_comm n m v _ s h.symm

theorem openPage_setSlot (cfg : Config) (body : List Byte) :
    openPage cfg m body (s.setSlot n v) = (openPage cfg m body s).setSlot n v := by
  unfold openPage
  cases readHeader body with
  | none => exact raise_setSlot cfg _ n v s
  | some f =>
    dsimp only
    split_ifs
    · rfl
    · cases parText (headerText body) with
      | none => exact raise_setSlot cfg _ n v s
      | some text => exact setSlot_comm n m v _ s h.symm

theorem header_setSlot (cfg : Config) (body : List Byte) :
    header cfg m body (s.setSlot n v) = (header cfg m body s).setSlot n v := by
  rw [header, closePage_setSlot v s h, openPage_setSlot v _ h]
  rfl

theorem row_setSlot (cfg : Config) (k : PacketNo) (body : List Byte) :
    row cfg k m body (s.setSlot n v) = (row cfg k m body s).setSlot n v := by
  unfold row
  cases parText body with
  | none => exact raise_setSlot cfg _ n v s
  | some d => exact storeRow_setSlot v s h k d

end

/-- An operation that commutes with every write of a slot leaves the slot as it is. -/
theorem slotAt_of_setSlot_comm (f : State → State) (n : Mag) (s : State)
    (h : ∀ v, f (s.setSlot n v) = (f s).setSlot n v) : (f s).slotAt n = s.slotAt n := by
  have hself := h (s.slotAt n)
  rw [setSlot_slotAt] at hself
  rw [hself, slotAt_setSlot_same]

/-- Settles O43: a packet commutes with the write of another magazine's slot, so it neither reads nor writes it. -/
theorem magazinesAreIsolated : Obligations.MagazinesAreIsolated := by
  intro m n k body v s h
  refine ⟨fun t ht => ?_, fun t ht => ?_, fun t ht => ?_⟩ <;> cases ht
  · exact ⟨congrArg _ (header_setSlot v s h _ body),
      slotAt_of_setSlot_comm _ n s fun w => header_setSlot w s h _ body⟩
  · exact ⟨congrArg _ (row_setSlot v s h _ k body), slotAt_of_setSlot_comm _ n s fun w => row_setSlot w s h _ k body⟩
  · exact ⟨rfl, rfl⟩

/-! ### Diagnostics of a line -/

/-- What a line leaves: one diagnostic, or none and the same counters, scan pointer and mode (R178). -/
def LineOutcome (mb pb : Byte) (s t : State) : Prop :=
  t = { s with cnt := counted .badFraming s, scan := none } ∨
  t = { s with cnt := counted .codeError s } ∨
  (∃ m c, decodeAddress mb pb = .hdr m ∧ Closed m s c ∧ t = { c with cnt := counted .codeError s }) ∨
  (t.cnt = s.cnt ∧ t.scan = s.scan ∧ t.mode = s.mode)

theorem lineOutcome_header (mb pb : Byte) (m : Mag) (body : List Byte) (s : State) (ha : decodeAddress mb pb = .hdr m) :
    LineOutcome mb pb s (openPage Config.std m body (s.closePage m)) := by
  obtain e | e | ⟨f, text, -, -, -, e⟩ := openPage_cases Config.std m body (s.closePage m) <;> rw [e]
  · rw [raise_codeError_eq, counted_closePage]
    exact .inr (.inr (.inl ⟨m, _, ha, closed_closePage m s, rfl⟩))
  · exact .inr (.inr (.inr ⟨cnt_closePage m s, scan_closePage m s, mode_closePage m s⟩))
  · exact .inr (.inr (.inr ⟨cnt_closePage m s, scan_closePage m s, mode_closePage m s⟩))

theorem lineOutcome_framedLine (mb pb : Byte) (body : List Byte) (s : State) :
    LineOutcome mb pb s (framedLine Config.std mb pb body s) := by
  obtain e | e | ⟨m, ha, e⟩ | ⟨k, m, -, e⟩ := framedLine_cases Config.std mb pb body s <;> rw [e]
  · exact .inr (.inl (raise_codeError_eq s))
  · exact .inr (.inr (.inr ⟨rfl, rfl, rfl⟩))
  · exact lineOutcome_header mb pb m body s ha
  · obtain ⟨-, e⟩ | ⟨d, -, e⟩ := row_cases Config.std k m body s <;> rw [e]
    · exact .inr (.inl (raise_codeError_eq s))
    · exact .inr (.inr (.inr ⟨cnt_storeRow m k d s, scan_storeRow m k d s, mode_storeRow m k d s⟩))

/-- Settles O44: the framing fails, or the line does what its address routes to. -/
theorem oneDiagnosticPerLine : Obligations.OneDiagnosticPerLine := by
  intro second body s t hlen ht
  cases ht
  match body, hlen with
  | lb :: sb :: mb :: pb :: body, hlen =>
    simp only [lineRecord, if_pos hlen, dataLine]
    cases decodeFraming lb sb with
    | framed low => exact lineOutcome_framedLine mb pb body s
    | bad => exact .inl (raiseAndEnd_eq Config.std .badFraming s)

end Sys2Proof.Proofs.Packets
end

section
/-!
PROOFS. The host's operations (R194 to R202), the counters of finite width (R38), and the elements of a unit that only
count or change nothing (R130, R145, R146, R162, R176).
-/

namespace Sys2Proof.Proofs.HostAndCounters

open Sys2Proof Sys2Proof.Machine Sys2Proof.Claims

/-! ### Counters -/

/-- Settles O16: below the maximum the minimum is the count and one more, at the maximum it is the maximum. -/
theorem finiteCounterSaturates : Obligations.FiniteCounterSaturates := by
  intro cap w n hn
  have hbump : bump { bufCap := cap, cntWidth := some w } n = min (n + 1) (2 ^ w - 1) := rfl
  rw [hbump]
  refine ⟨?_, by omega, by omega⟩
  split_ifs with hmax
  · rw [hmax]
    exact min_eq_right (Nat.le_succ _)
  · exact min_eq_left (by omega)

/-- Settles O27: `raise` and the end of the scan, for a structural diagnostic and one that is not. -/
theorem scanEndingDiagnostics : Obligations.ScanEndingDiagnostics := by
  intro did lb sb rest s
  exact ⟨congrArg Host.Outcome.next (raiseAndEnd_eq Config.std .unknownDataId s),
    congrArg Host.Outcome.next (raiseAndEnd_eq Config.std .badFraming s)⟩

/-- Settles O32: two of the three are the identity, and `UnknownLineType` is not structural. -/
theorem skippedRecordsAndPackets : Obligations.SkippedRecordsAndPackets := by
  intro t k m body s
  exact ⟨rfl, congrArg Host.Outcome.next (raise_eq Config.std .unknownLineType s), rfl⟩

/-! ### The host -/

/-- Settles O45: the reads write the port, or the snapshot, and clear the record of callbacks. -/
theorem hostReadsOnlyPresent : Obligations.HostReadsOnlyPresent := fun _ _ => ⟨rfl, rfl⟩

/-- Settles O47: the two branches of the reset flag. -/
theorem deactivateResult : Obligations.DeactivateResult := by
  intro reset s
  cases reset <;> rfl

/-- Settles O46: the page for a number is the cached one, else the placeholder. -/
theorem setCurrentPageResult : Obligations.SetCurrentPageResult := by
  intro s
  refine ⟨rfl, fun n => ⟨s.host.pageFor n, ?_, ?_⟩⟩
  · unfold PageManager.pageFor
    cases hcached : assocFind n s.host.cache with
    | some p => exact .inl rfl
    | none =>
      have hmag : (placeholder n).magazine.toNat = n / 100 % 8 := by
        rw [placeholder, BitVec.toNat_ofNat, Nat.mod_mod]
      have hts : (-1#64).toInt = -1 := by decide
      exact .inr ⟨rfl, rfl, hmag, rfl, rfl, rfl, rfl, hts, rfl, rfl, rfl, rfl, rfl, rfl, rfl, rfl, rfl⟩
  · rfl

/-- Settles O48: the cache is a map written at one key, or not at all. -/
theorem pageCompletedResult : Obligations.PageCompletedResult := by
  intro p s
  refine ⟨(s.host.pageCompleted p).cache, rfl, fun hdisabled => ?_, fun henabled => ?_⟩
  · exact CacheOnePage.cache_pageCompleted_of_not_enabled s.host p (by simp [hdisabled])
  · rw [CacheOnePage.cache_pageCompleted_of_enabled s.host p henabled]
    exact ⟨assocFind_insert_same _ _ _, fun n hn => assocFind_insert_other _ n _ _ hn⟩

end Sys2Proof.Proofs.HostAndCounters
end

section
/-!
PROOFS. The two code tables (R100 to R111). A byte is a parity code word exactly when it has an odd number of one bits,
every Hamming code word has an odd number, and two of them differ in four bits at least; what errors either table
detects follows from how inverted bits change the number of ones.
-/

namespace Sys2Proof.Proofs.CodeTables

open Sys2Proof Sys2Proof.Machine Sys2Proof.Claims
open Sys2Proof.Proofs.HamEntries

/-! ### The entries -/

theorem ham84_hamCode : ∀ v : Nibble, ham84 (hamCode v) = v.setWidth 8 := by decide

theorem oddpar_parCode : ∀ c : Char7, oddpar (parCode c) = c.setWidth 8 := by decide

/-- Settles O7: each table looks its own code words up. -/
theorem encodersRoundTrip : Obligations.EncodersRoundTrip := ⟨ham84_hamCode, oddpar_parCode⟩

/-- Settles O2: the code words evaluated, and where R103 puts the data bits. -/
theorem hamTableContents : Obligations.HamTableContents := by
  refine ⟨by decide, fun v => ?_⟩
  obtain ⟨h6, h4, h2, h0⟩ := AddressAssembly.getLsbD_hamCode v
  refine ⟨?_, h6, h4, h2, h0⟩
  rw [ham84_hamCode, BitVec.toNat_setWidth]
  exact Nat.mod_eq_of_lt (by omega)

/-- A valid entry of `HAM84` is a value of four bits. -/
theorem ham84_le (b : Byte) : ham84 b = 255#8 ∨ (ham84 b).toNat ≤ 15 := by
  by_cases h : ham84 b = 255#8
  · exact .inl h
  · obtain ⟨v, rfl⟩ := (ham84_ne_invalid_iff b).mp h
    rw [ham84_hamCode, BitVec.toNat_setWidth]
    exact .inr (by omega)

theorem oddpar_ne_invalid_iff (b : Byte) : oddpar b ≠ 255#8 ↔ ∃ c, parCode c = b := by
  rw [ne_eq, ← parChar_eq_none, ← ne_eq, Option.ne_none_iff_exists']
  exact exists_congr fun c => (parChar_eq_some b c).trans eq_comm

/-- A valid entry of `ODDPAR` is a value of seven bits. -/
theorem oddpar_le (b : Byte) : oddpar b = 255#8 ∨ (oddpar b).toNat ≤ 127 := by
  by_cases h : oddpar b = 255#8
  · exact .inl h
  · obtain ⟨c, rfl⟩ := (oddpar_ne_invalid_iff b).mp h
    rw [oddpar_parCode, BitVec.toNat_setWidth]
    exact .inr (by omega)

/-- Settles O5: an entry is the sentinel or a value, and the greatest values occur. -/
theorem sentinelIsNoData : Obligations.SentinelIsNoData :=
  ⟨ham84_le, ⟨hamCode 15#4, ham84_hamCode 15#4⟩, oddpar_le, ⟨parCode 127#7, oddpar_parCode 127#7⟩⟩

/-- Settles O8: a well-formed look-up is of a code word, or of a byte whose entry is the sentinel. -/
theorem lookupResults : Obligations.LookupResults := by
  intro s
  refine ⟨fun v => ?_, fun c => ?_, fun b hwf => ?_, fun b hwf => ?_⟩
  · rw [← ham84_hamCode]; rfl
  · rw [← oddpar_parCode]; rfl
  · rw [← (of_decide_eq_true hwf : ham84 b = 255#8)]; rfl
  · rw [← (of_decide_eq_true hwf : oddpar b = 255#8)]; rfl

/-! ### The number of one bits -/

/-- Where two Boolean tests differ: the sum of their counts less twice the count of both. -/
theorem countP_xor {α : Type} (p q : α → Bool) (l : List α) :
    l.countP (fun x => p x ^^ q x) + 2 * l.countP (fun x => p x && q x) = l.countP p + l.countP q := by
  induction l with
  | nil => rfl
  | cons x l ih =>
    simp only [List.countP_cons]
    cases p x <;> cases q x <;> simp <;> omega

/-- Inverting the bits of `e` in `b` changes the parity of the ones by that of `e`. -/
theorem ones_xor (b e : Byte) : ones (b ^^^ e) % 2 = (ones b + ones e) % 2 := by
  have hcount := countP_xor (fun i => b.getLsbD i) (fun i => e.getLsbD i) (List.range 8)
  simp only [ones, BitVec.getLsbD_xor]
  omega

/-- A byte is the code word of its upper seven bits reversed exactly when its number of ones is odd (R107). -/
theorem parCode_parData_iff : ∀ b : Byte, parCode (parData b) = b ↔ ones b % 2 = 1 := by decide

theorem odd_ones_hamCode : ∀ v, ones (hamCode v) % 2 = 1 := by decide

/-- The minimum distance of the Hamming code words (R106). -/
theorem distance_hamCode : ∀ v w, v ≠ w → 4 ≤ ones (hamCode v ^^^ hamCode w) := by decide

/-! ### Errors in a Hamming code word -/

/-- An error that is not detected leads from one code word to another. -/
theorem exists_of_undetected (v : Nibble) (e : Byte) (h : ham84 (hamCode v ^^^ e) ≠ 255#8) :
    ∃ w, e = hamCode v ^^^ hamCode w := by
  obtain ⟨w, hw⟩ := (ham84_ne_invalid_iff _).mp h
  exact ⟨w, by rw [hw, ← BitVec.xor_assoc, BitVec.xor_self, BitVec.zero_xor]⟩

theorem xor_xor_hamCode (v w : Nibble) : hamCode v ^^^ (hamCode v ^^^ hamCode w) = hamCode w := by
  rw [← BitVec.xor_assoc, BitVec.xor_self, BitVec.zero_xor]

/-- An error that is not detected inverts an even number of bits, and either none or four at least. -/
theorem ones_of_undetected (v : Nibble) (e : Byte) (h : ham84 (hamCode v ^^^ e) ≠ 255#8) :
    ones e % 2 = 0 ∧ (ones e = 0 ∨ 4 ≤ ones e) := by
  obtain ⟨w, rfl⟩ := exists_of_undetected v e h
  refine ⟨?_, ?_⟩
  · have hv := odd_ones_hamCode v
    have hw := odd_ones_hamCode w
    rw [ones_xor]
    omega
  · by_cases hvw : v = w
    · rw [hvw, BitVec.xor_self]
      exact .inl (by decide)
    · exact .inr (distance_hamCode v w hvw)

/-- The undetected four-bit errors of a code word are its differences from the code words at distance four. -/
theorem undetected_perm (v : Nibble) :
    (allBytes.filter fun e => ones e = 4 ∧ ham84 (hamCode v ^^^ e) ≠ 255#8).Perm
      (((allWords 4).filter fun w => ones (hamCode v ^^^ hamCode w) = 4).map fun w => hamCode v ^^^ hamCode w) := by
  have hinj : Function.Injective fun w => hamCode v ^^^ hamCode w := by
    intro w x h
    have h : hamCode v ^^^ (hamCode v ^^^ hamCode w) = hamCode v ^^^ (hamCode v ^^^ hamCode x) := congrArg _ h
    rw [xor_xor_hamCode, xor_xor_hamCode] at h
    exact hamCode_injective h
  rw [allBytes_eq_allWords]
  refine (List.perm_ext_iff_of_nodup ((nodup_allWords 8).filter _) (((nodup_allWords 4).filter _).map hinj)).mpr ?_
  intro e
  simp only [List.mem_filter, List.mem_map, mem_allWords, true_and, decide_eq_true_eq]
  constructor
  · rintro ⟨hfour, hvalid⟩
    obtain ⟨w, rfl⟩ := exists_of_undetected v e hvalid
    exact ⟨w, hfour, rfl⟩
  · rintro ⟨w, hfour, rfl⟩
    exact ⟨hfour, by rw [xor_xor_hamCode]; exact (ham84_ne_invalid_iff _).mpr ⟨w, rfl⟩⟩

/-- Every code word has fourteen others at distance four (R106). -/
theorem count_distance_four : ∀ v : Nibble,
    ((allWords 4).filter fun w => ones (hamCode v ^^^ hamCode w) = 4).length = 14 := by
  decide

/-- Settles O3: an undetected error is a difference of two code words. -/
theorem hamDetectionStrength : Obligations.HamDetectionStrength := by
  refine ⟨odd_ones_hamCode, distance_hamCode, fun v e hones => ?_, ?_, fun v => ?_, fun v e hfour hvalid hsame => ?_,
    by decide⟩
  · by_contra hvalid
    have hundetected := ones_of_undetected v e hvalid
    omega
  · rfl
  · rw [(undetected_perm v).length_eq, List.length_map]
    exact count_distance_four v
  · obtain ⟨w, rfl⟩ := exists_of_undetected v e hvalid
    rw [xor_xor_hamCode, ← ham84_hamCode v] at hsame
    have hcode : hamNibble (hamCode w) = hamNibble (hamCode v) := by rw [hamNibble, hamNibble, hsame]
    rw [hamNibble_hamCode, hamNibble_hamCode] at hcode
    rw [Option.some.inj hcode, BitVec.xor_self] at hfour
    exact absurd hfour (by decide)

/-! ### Errors in a parity code word -/

/-- `ODDPAR` accepts the bytes with an odd number of ones (R108). -/
theorem oddpar_ne_invalid_iff_odd (b : Byte) : oddpar b ≠ 255#8 ↔ ones b % 2 = 1 := by
  rw [← parCode_parData_iff, ne_eq, ← parChar_eq_none, parChar_eq]
  split_ifs with hcode <;> simp [hcode]

/-- The value of a valid byte is its upper seven bits reversed (R108). -/
theorem oddpar_of_odd (b : Byte) (h : ones b % 2 = 1) : oddpar b = (parData b).setWidth 8 :=
  if_pos ((parCode_parData_iff b).mpr h)

theorem parData_toNat : ∀ b : Byte, (parData b).toNat =
    (b.getLsbD 7).toNat + (b.getLsbD 6).toNat * 2 + (b.getLsbD 5).toNat * 4 + (b.getLsbD 4).toNat * 8 +
      (b.getLsbD 3).toNat * 16 + (b.getLsbD 2).toNat * 32 + (b.getLsbD 1).toNat * 64 := by
  decide

theorem parCode_injective : Function.Injective parCode := by
  intro c d h
  have hlook : parChar (parCode c) = parChar (parCode d) := congrArg parChar h
  rw [parChar_parCode, parChar_parCode] at hlook
  exact Option.some.inj hlook

/-- The valid bytes are the 128 code words. -/
theorem length_validParity : (allBytes.filter fun b => oddpar b ≠ 255#8).length = 128 := by
  have hperm : (allBytes.filter fun b => oddpar b ≠ 255#8).Perm ((allWords 7).map parCode) := by
    rw [allBytes_eq_allWords]
    refine (List.perm_ext_iff_of_nodup ((nodup_allWords 8).filter _) ((nodup_allWords 7).map parCode_injective)).mpr ?_
    intro b
    rw [List.mem_filter, List.mem_map, decide_eq_true_iff, oddpar_ne_invalid_iff]
    simp only [mem_allWords, true_and]
  rw [hperm.length_eq, List.length_map, length_allWords]
  rfl

/-- Every byte is valid or a sentinel, which leaves 256 - 128 sentinels. -/
theorem length_invalidParity : (allBytes.filter fun b => oddpar b = 255#8).length = 128 := by
  have hsplit := List.length_eq_length_filter_add (l := allBytes) fun b => decide (oddpar b = 255#8)
  have hvalid := length_validParity
  simp only [ne_eq, decide_not] at hvalid
  rw [hvalid, allBytes_eq_allWords, length_allWords] at hsplit
  rw [allBytes_eq_allWords]
  omega

/-- The 256 numbers in the sixteen rows of the printed table. -/
theorem range_rows : List.range 256 =
    List.range' 0 16 ++ List.range' 16 16 ++ List.range' 32 16 ++ List.range' 48 16 ++
    List.range' 64 16 ++ List.range' 80 16 ++ List.range' 96 16 ++ List.range' 112 16 ++
    List.range' 128 16 ++ List.range' 144 16 ++ List.range' 160 16 ++ List.range' 176 16 ++
    List.range' 192 16 ++ List.range' 208 16 ++ List.range' 224 16 ++ List.range' 240 16 := by
  have hrow (n : Nat) : List.range' 0 n ++ List.range' n 16 = List.range' 0 (n + 16) := by
    simpa using List.range'_append_1 (s := 0) (m := n) (n := 16)
  rw [List.range_eq_range', hrow 16, hrow 32, hrow 48, hrow 64, hrow 80, hrow 96, hrow 112, hrow 128, hrow 144,
    hrow 160, hrow 176, hrow 192, hrow 208, hrow 224, hrow 240]

/-- The printed table, row by row (R108). -/
theorem oddpar_table : allBytes.map (fun b => (oddpar b).toNat) = oddparTable := by
  rw [allBytes, range_rows]
  simp only [List.map_append]
  rfl

/-- Settles O4: validity is the parity of the ones, which one inverted bit changes and two do not. -/
theorem oddParityClosedForm : Obligations.OddParityClosedForm := by
  refine ⟨oddpar_ne_invalid_iff_odd, fun b hb => ?_, length_validParity, length_invalidParity, fun b e hb he => ?_,
    fun b e hb he => ?_, oddpar_table⟩
  · rw [oddpar_of_odd b ((oddpar_ne_invalid_iff_odd b).mp hb), ← parData_toNat, BitVec.toNat_setWidth]
    exact Nat.mod_eq_of_lt (by omega)
  · by_contra hvalid
    have hb := (oddpar_ne_invalid_iff_odd b).mp hb
    have hodd := (oddpar_ne_invalid_iff_odd _).mp hvalid
    rw [ones_xor] at hodd
    omega
  · have hb := (oddpar_ne_invalid_iff_odd b).mp hb
    rw [oddpar_ne_invalid_iff_odd, ones_xor]
    omega

/-! ### The tables compared -/

/-- Every Hamming code word is a parity code word (R109). -/
theorem oddpar_of_ham84 (b : Byte) (h : ham84 b ≠ 255#8) : oddpar b ≠ 255#8 := by
  obtain ⟨v, rfl⟩ := (ham84_ne_invalid_iff b).mp h
  exact (oddpar_ne_invalid_iff_odd _).mpr (odd_ones_hamCode v)

/-- Of the 128 bytes `ODDPAR` accepts, 16 are Hamming code words, which leaves 112 (R109). -/
theorem length_parityOnly : (allBytes.filter fun b => oddpar b ≠ 255#8 ∧ ham84 b = 255#8).length = 112 := by
  have hsplit := List.length_eq_length_filter_add (l := allBytes.filter fun b => oddpar b ≠ 255#8)
    fun b => decide (ham84 b = 255#8)
  have hboth : (fun b => !decide (ham84 b = 255#8) && decide (oddpar b ≠ 255#8)) =
      fun b => decide (ham84 b ≠ 255#8) := by
    funext b
    by_cases h : ham84 b = 255#8
    · simp [h]
    · simp [h, oddpar_of_ham84 b h]
  rw [length_validParity, List.filter_filter, List.filter_filter, hboth, length_validBytes] at hsplit
  simp only [Bool.decide_and, Bool.and_comm] at hsplit ⊢
  omega

/-- Settles O6: a Hamming code word is a parity code word, and each table reads it in its own position. -/
theorem tablesCompared : Obligations.TablesCompared := by
  refine ⟨oddpar_of_ham84, fun b => not_imp_not.mp (oddpar_of_ham84 b), length_parityOnly, fun v => ?_⟩
  have hham : ham84 (hamCode v) ≠ 255#8 := (ham84_ne_invalid_iff _).mpr ⟨v, rfl⟩
  obtain ⟨c, hc⟩ := (oddpar_ne_invalid_iff _).mp (oddpar_of_ham84 _ hham)
  refine ⟨?_, c, ?_⟩
  · rw [Words.decode_ham84, Words.hamInstr, hamNibble_hamCode]
  · rw [Words.decode_oddpar, Words.parInstr, (parChar_eq_some _ c).mpr hc.symm]

end Sys2Proof.Proofs.CodeTables
end
